-- ==== Sys2Proof/Word.lean ====
section
/-! DEFINITION. The word types of HUF-CORE v1 (00_scope.md R7, R9): every value the spec treats as bits is an unsigned bit vector. -/

namespace Sys2Proof

/-- A 32-bit register, bus value or command word (R7 BUS_BITS, FREQ_BITS). -/
abbrev Word := BitVec 32

/-- A payload byte (20_memory.md R65). -/
abbrev Byte := BitVec 8

/-- A symbol, 0..255 (R7 SYM_BITS, R13). -/
abbrev Sym := BitVec 8

/-- A tree-node weight (R7 WEIGHT_BITS). -/
abbrev Weight := BitVec 40

end Sys2Proof
end

