-- ==== Sys2Proof/Config.lean ====
section
/-! DEFINITION. The parameters of 00_scope.md R7: the fixed ones as numerals, the two open ones (PBUF_BYTES and BASE) as the data a machine carries. -/

namespace Sys2Proof

/-- NSYM, the number of symbol values (R7). -/
abbrev nsym : Nat := 256

/-- MAX_CODE_LEN, the longest codeword the code table holds (R7). -/
abbrev maxCodeLen : Nat := 255

/-- The 32-bit words of one CODE_BITS entry: CODE_STORE_BITS / 32 (R7, 10_state.md R28). -/
abbrev codeWords : Nat := 8

/-- The size in bytes of the register window (20_memory.md R60). -/
abbrev windowBytes : Nat := 256

/-- The open parameters of R7 (93_implementation_defined.md U6, U7), one value for a machine, never written by a step.
DESIGN CHOICE (log 1, log 2): held as data, so that a statement about every state is about every value of them. -/
structure Params where
  /-- The index of PBUF's last byte, PBUF_BYTES - 1: 1 ≤ PBUF_BYTES ≤ 65536 holds of every value. -/
  pbufLast : Fin 65536
  /-- BASE / 256: BASE is a multiple of 256 for every value. -/
  window : Nat
  deriving DecidableEq, Repr

/-- PBUF_BYTES (R7). -/
def Params.pbufBytes (p : Params) : Nat := p.pbufLast.val + 1

/-- PBUF_BITS = 8 × PBUF_BYTES (R7). -/
def Params.pbufBits (p : Params) : Nat := 8 * p.pbufBytes

/-- BASE, the bus address of the register window (R7, 20_memory.md R60). -/
def Params.base (p : Params) : Nat := windowBytes * p.window

/-- The spec's default PBUF_BYTES = 4096 (R7). DESIGN CHOICE (log 2): BASE = 0, for which the spec gives no default. -/
def Params.default : Params := { pbufLast := 4095, window := 0 }

end Sys2Proof
end

