-- ==== Sys2Proof/Syntax.lean ====
section
/-! DEFINITION. What the host can send: the 24 commands of 30_encoding.md R94 (Instr), the bus accesses of 20_memory.md R61 to R63 and the
platform's reset (HostEvent), and the assembler lines of R100 and R101 (Line). -/

namespace Sys2Proof

/-- The commands of R94, one constructor a row of spec/opcode_table.json, with the operands of R92: SYM, LEN and DATA are 8 bits, W is 3 bits,
IDX is 16 bits. The types hold exactly the fields' ranges, so every term is well-formed. -/
inductive Instr where
  | nop
  | reset
  | clrErr
  | stop
  | freqClear
  | freqCount (sym : Sym)
  | freqSet (sym : Sym)
  | freqGet (sym : Sym)
  | build
  | tblClear
  | tblSetLen (sym : Sym) (len : BitVec 8)
  | tblSetWord (sym : Sym) (w : BitVec 3)
  | tblCommit
  | tblGetLen (sym : Sym)
  | tblGetWord (sym : Sym) (w : BitVec 3)
  | encStart
  | encSym (sym : Sym)
  | encFinish
  | encPos
  | decStart
  | decSym
  | decPos
  | pbufWr (idx : BitVec 16) (data : Byte)
  | pbufRd (idx : BitVec 16)
  deriving DecidableEq, Repr

/-- The two gate classes of R96. -/
inductive GateClass where
  | ungated
  | gated
  deriving DecidableEq, Repr

/-- The class column of R94: an ungated command executes whatever ERR holds, a gated one is ignored while ERR ≠ 0 (R96). -/
def Instr.gateClass : Instr → GateClass
  | .nop => .ungated
  | .reset => .ungated
  | .clrErr => .ungated
  | .stop => .gated
  | .freqClear => .gated
  | .freqCount _ => .gated
  | .freqSet _ => .gated
  | .freqGet _ => .ungated
  | .build => .gated
  | .tblClear => .gated
  | .tblSetLen _ _ => .gated
  | .tblSetWord _ _ => .gated
  | .tblCommit => .gated
  | .tblGetLen _ => .ungated
  | .tblGetWord _ _ => .ungated
  | .encStart => .gated
  | .encSym _ => .gated
  | .encFinish => .gated
  | .encPos => .ungated
  | .decStart => .gated
  | .decSym => .gated
  | .decPos => .ungated
  | .pbufWr _ _ => .gated
  | .pbufRd _ => .ungated

/-- The width of a bus access: only 32 bits is defined (20_memory.md R63). -/
inductive AccessWidth where
  | byte
  | half
  | word
  deriving DecidableEq, Repr

/-- What can reach the block from outside, one at a time: the host's bus accesses, at a bus address (R61 to R63), and the platform's power-on
reset (70_reset_and_hazards.md R310). Of a narrow write only the width matters: it is refused (R63). -/
inductive HostEvent where
  | write (width : AccessWidth) (addr : Nat) (value : Word)
  | read (width : AccessWidth) (addr : Nat)
  | powerOnReset
  deriving DecidableEq, Repr

/-- An operand of an assembler line: a number, or a character literal standing for its code (R100). -/
inductive Operand where
  | num (n : Nat)
  | chr (c : Char)
  deriving DecidableEq, Repr

/-- The number an operand stands for (R100). -/
def Operand.value : Operand → Nat
  | .num n => n
  | .chr c => c.toNat

/-- The lines of a host program (R100) and the pseudo-instructions (R101). Operands are numbers of any size here: WellFormed.lean checks them
against the fields' ranges. -/
inductive Line where
  | wrArg (v : Nat)
  | wrCmd (w : Nat)
  | rdResult (name : String)
  | rdStatus (name : String)
  | nop
  | reset
  | clrErr
  | stop
  | freqClear
  | freqCount (sym : Operand)
  | freqSet (sym : Operand)
  | freqGet (sym : Operand)
  | build
  | tblClear
  | tblSetLen (sym : Operand) (len : Nat)
  | tblSetWord (sym : Operand) (w : Nat)
  | tblCommit
  | tblGetLen (sym : Operand)
  | tblGetWord (sym : Operand) (w : Nat)
  | encStart
  | encSym (sym : Operand)
  | encFinish
  | encPos
  | decStart
  | decSym
  | decPos
  | pbufWr (idx : Nat) (data : Nat)
  | pbufRd (idx : Nat)
  | freqSetV (sym : Operand) (v : Nat)
  | tblSetWordV (sym : Operand) (w : Nat) (v : Nat)
  | decStartV (n : Nat)
  | count (text : List Char)
  | encode (text : List Char)
  | loadCode (sym : Operand) (bits : List Bool)
  | check
  deriving DecidableEq, Repr

end Sys2Proof
end

