-- ==== Sys2Proof/Machine/State.lean ====
section
/-! DEFINITION. The state of the block (10_state.md R20), the reasons a step can stop, and the state after power-on reset (R39). -/

namespace Sys2Proof.Machine

/-- A byte store in canonical form: addresses strictly rising, no cell holding 0, which is what an unlisted address reads as (log 6). -/
abbrev Memory := List Host.Cell

/-- PBUF (20_memory.md R65, R67). Each payload bit is written or unspecified: bit 7 - (i mod 8) of byte i div 8 of `written` says which for
payload bit i, and the same bit of `data` is its value, held as 0 while it is unspecified. Nothing listed: every bit is unspecified. -/
structure Payload where
  written : Memory
  data : Memory
  deriving DecidableEq, Repr

/-- The error codes of 60_exceptions.md R281 but NONE. -/
inductive ErrCode where
  | emptyAlphabet
  | unknownSymbol
  | truncatedStream
  | corruptStream
  | badTable
  | noTable
  | overflow
  | range
  | bufFull
  | illegalCmd
  | sequence
  deriving DecidableEq, Repr

/-- The model faults: the spec has one cause only, a read of an unspecified payload bit (00_scope.md R16, 20_memory.md R67, U1). Every ERR code is
an ordinary next state instead. -/
inductive Fault where
  /-- Raised by DEC_SYM at the read of payload bit `bit`, never written since power-on. Safe: the hardware goes on with some value. -/
  | unspecifiedBit (bit : Nat)
  /-- Raised by PBUF_RD of byte `byte`, of which some bit was never written since power-on. Safe: the hardware returns some value. -/
  | unspecifiedByte (byte : Nat)
  deriving DecidableEq, Repr

/-- The refusals: accesses that have no meaning (20_memory.md R63, U2). -/
inductive Refusal where
  /-- Raised by an arm of exec without a meaning; exec has none such. Safe. -/
  | notModelled (mnemonic : String)
  /-- Raised by a bus access of 8 or 16 bits (R63). Safe: the step has no meaning. -/
  | narrowAccess
  /-- Raised by a 32-bit access at an offset that is no multiple of 4 (R63). Safe: the step has no meaning. -/
  | misalignedAccess
  /-- Raised by an access outside the 256-byte window, which is no access of this block (R60, R69). DESIGN CHOICE (log 7). Safe: nothing is said of
  it. -/
  | outsideWindow
  deriving DecidableEq, Repr

/-- The architectural state of R20, and beside it the model's own fields: `params` (log 1, log 2), `pending` (log 3) and `reads` (log 5). -/
structure State where
  /-- PBUF_BYTES and BASE (00_scope.md R7): no step writes them. -/
  params : Params
  /-- ARG (R22). -/
  arg : Word
  /-- RESULT (R23). -/
  result : Word
  /-- ERR, the sticky error code (R35): 0 is no error. -/
  err : BitVec 8
  /-- FREQ[0..255] (R26). -/
  freq : Vector Word 256
  /-- CODE_LEN[0..255] (R27): 0 is no entry. -/
  codeLen : Vector (BitVec 8) 256
  /-- CODE_BITS[0..255], eight words each (R28). -/
  codeBits : Vector (Vector Word 8) 256
  /-- TABLE_VALID (R29). -/
  tableValid : Bool
  /-- ALPHA_SIZE, 0..256 (R30). -/
  alphaSize : BitVec 9
  /-- DEGEN, the source's DegenerateAlphabetWarning (R31). -/
  degen : Bool
  /-- ENC_ACTIVE (R32). -/
  encActive : Bool
  /-- ENC_POS, a payload bit index (R32). -/
  encPos : BitVec 32
  /-- DEC_ACTIVE (R33). -/
  decActive : Bool
  /-- DEC_POS, a payload bit index (R33). -/
  decPos : BitVec 32
  /-- DEC_LEN, the session's bitLength (R33). -/
  decLen : BitVec 32
  /-- PBUF (R36, 20_memory.md R65 to R67). -/
  pbuf : Payload
  /-- The model's own: what the host and the platform will do, first first (00_scope.md R15, R16). -/
  pending : List HostEvent
  /-- The model's own: what the host's reads returned, newest first (20_memory.md R61). -/
  reads : List Word
  deriving DecidableEq, Repr

/-- PBUF at power-on: every bit unspecified (R67). -/
def Payload.unspecified : Payload := { written := [], data := [] }

/-- An empty code table's lengths (R39). -/
def emptyLens : Vector (BitVec 8) 256 := Vector.replicate 256 0#8

/-- An empty code table's stored bits (R39). -/
def emptyBits : Vector (Vector Word 8) 256 := Vector.replicate 256 (Vector.replicate 8 0#32)

/-- An empty frequency table (R39, 41_frequency.md R141). -/
def emptyFreq : Vector Word 256 := Vector.replicate 256 0#32

/-- The state right after power-on reset (R39, R310), with the default parameters, nothing pending and nothing read (logs 1, 2, 3, 5). -/
def State.reset : State :=
  { params := Params.default
    arg := 0#32
    result := 0#32
    err := 0#8
    freq := emptyFreq
    codeLen := emptyLens
    codeBits := emptyBits
    tableValid := false
    alphaSize := 0#9
    degen := false
    encActive := false
    encPos := 0#32
    decActive := false
    decPos := 0#32
    decLen := 0#32
    pbuf := Payload.unspecified
    pending := []
    reads := [] }

end Sys2Proof.Machine
end

