-- ==== Sys2Proof/Machine/Ops.lean ====
section
/-! DEFINITION. The named operations: byte stores and the payload buffer (20_memory.md R65 to R67), the 256-entry register files, one setter a group
of registers, `raise` (60_exceptions.md R284) and the return from it (R285), the gate and the session checks (30_encoding.md R96, R97), the two resets. -/

namespace Sys2Proof.Machine

/-- What a step, a command or a bus access answers (00_scope.md R16). -/
abbrev Out := Host.Outcome State Fault Refusal

/-! ## Byte stores -/

/-- The byte at an address: 0 where nothing is listed. -/
def Memory.read : Memory → Nat → Byte
  | [], _ => 0#8
  | (b, x) :: rest, a => if a = b then x else Memory.read rest a

/-- The store without the cells at an address. -/
def Memory.without (m : Memory) (a : Nat) : Memory := m.filter fun c => c.1 != a

/-- The store with a cell placed before the first cell of a higher address. -/
def Memory.place : Memory → Nat → Byte → Memory
  | [], a, v => [(a, v)]
  | (b, x) :: rest, a, v => if a < b then (a, v) :: (b, x) :: rest else (b, x) :: Memory.place rest a v

/-- The store with one byte written, in canonical form again: writing 0 removes the cell. -/
def Memory.write (m : Memory) (a : Nat) (v : Byte) : Memory :=
  if v = 0#8 then Memory.without m a else Memory.place (Memory.without m a) a v

/-- The canonical form: addresses strictly rising, no cell holding 0. -/
abbrev Memory.wf (m : Memory) : Prop :=
  m.Pairwise (fun c d => c.1 < d.1) ∧ ∀ c ∈ m, c.2 ≠ 0#8

/-! ## The payload buffer -/

/-- The place of payload bit i in its byte: bit 7 - (i mod 8) of byte i div 8 (R66). -/
def bitPlace (i : Nat) : Nat := 7 - i % 8

/-- A byte with one bit replaced and no other. -/
def setBitAt (v : Byte) (k : Nat) (b : Bool) : Byte :=
  if b then v ||| (1#8 <<< k) else v &&& ~~~(1#8 <<< k)

/-- PbufBit(i) (R66): the bit, or none where it is unspecified (R67). -/
def Payload.bit? (p : Payload) (i : Nat) : Option Bool :=
  if (p.written.read (i / 8)).getLsbD (bitPlace i) then some ((p.data.read (i / 8)).getLsbD (bitPlace i)) else none

/-- PbufBitWrite(i, b) (R66): writes that bit and no other. -/
def Payload.writeBit (p : Payload) (i : Nat) (b : Bool) : Payload :=
  { written := p.written.write (i / 8) (setBitAt (p.written.read (i / 8)) (bitPlace i) true)
    data := p.data.write (i / 8) (setBitAt (p.data.read (i / 8)) (bitPlace i) b) }

/-- PbufBitWrite of a bit sequence at rising positions from i (44_encoder.md R221, R222). -/
def Payload.writeBits (p : Payload) (i : Nat) : List Bool → Payload
  | [] => p
  | b :: bs => (p.writeBit i b).writeBits (i + 1) bs

/-- PbufRead(k) (R65): the byte, or none where a bit of it is unspecified (R67). -/
def Payload.byte? (p : Payload) (k : Nat) : Option Byte :=
  if p.written.read k = 0xFF#8 then some (p.data.read k) else none

/-- PbufWrite(k, v) (R65): writes all 8 bits of byte k. -/
def Payload.writeByte (p : Payload) (k : Nat) (v : Byte) : Payload :=
  { written := p.written.write k 0xFF#8
    data := p.data.write k v }

/-- The canonical form of a buffer of n bytes: both stores canonical, no byte past the end, and an unspecified bit held as 0. -/
abbrev Payload.wf (p : Payload) (n : Nat) : Prop :=
  p.written.wf ∧ p.data.wf ∧ (∀ c ∈ p.written, c.1 < n) ∧ ∀ c ∈ p.data, c.2 &&& ~~~(p.written.read c.1) = 0#8

/-! ## The 256-entry register files -/

/-- Entry s of FREQ, CODE_LEN or CODE_BITS (10_state.md R26 to R28). -/
def tableGet {α : Type} (v : Vector α 256) (s : Sym) : α := v[s.toNat]'s.isLt

/-- The register file with entry s replaced. -/
def tableSet {α : Type} (v : Vector α 256) (s : Sym) (x : α) : Vector α 256 := v.set s.toNat x s.isLt

/-- Word w of a CODE_BITS entry (R28). -/
def wordGet (v : Vector Word 8) (w : BitVec 3) : Word := v[w.toNat]'w.isLt

/-- A CODE_BITS entry with word w replaced (R28). -/
def wordSet (v : Vector Word 8) (w : BitVec 3) (x : Word) : Vector Word 8 := v.set w.toNat x w.isLt

/-! ## Setters: the one place each register is written -/

def State.setArg (s : State) (v : Word) : State := { s with arg := v }

def State.setResult (s : State) (v : Word) : State := { s with result := v }

def State.setErr (s : State) (e : BitVec 8) : State := { s with err := e }

def State.setFreq (s : State) (f : Vector Word 256) : State := { s with freq := f }

/-- CODE_LEN and CODE_BITS together. -/
def State.setTable (s : State) (l : Vector (BitVec 8) 256) (b : Vector (Vector Word 8) 256) : State :=
  { s with codeLen := l, codeBits := b }

/-- TABLE_VALID, ALPHA_SIZE and DEGEN together: the same commands write all three (R25). -/
def State.setTableFlags (s : State) (valid : Bool) (size : BitVec 9) (degen : Bool) : State :=
  { s with tableValid := valid, alphaSize := size, degen := degen }

def State.setEnc (s : State) (active : Bool) (pos : BitVec 32) : State := { s with encActive := active, encPos := pos }

def State.setDec (s : State) (active : Bool) (pos len : BitVec 32) : State :=
  { s with decActive := active, decPos := pos, decLen := len }

def State.setPbuf (s : State) (p : Payload) : State := { s with pbuf := p }

def State.setPending (s : State) (es : List HostEvent) : State := { s with pending := es }

/-- The value a read access returns to the host (R61). -/
def State.pushRead (s : State) (v : Word) : State := { s with reads := v :: s.reads }

/-! ## Errors -/

/-- The code column of R281. -/
def errCode : ErrCode → BitVec 8
  | .emptyAlphabet => 1#8
  | .unknownSymbol => 2#8
  | .truncatedStream => 3#8
  | .corruptStream => 4#8
  | .badTable => 5#8
  | .noTable => 6#8
  | .overflow => 7#8
  | .range => 8#8
  | .bufFull => 9#8
  | .illegalCmd => 10#8
  | .sequence => 11#8

/-- Close any open session; the positions stay (40_control.md R123, 60_exceptions.md R284). -/
def closeSessions (s : State) : State := (s.setEnc false s.encPos).setDec false s.decPos s.decLen

/-- `raise E` (R284), the block's trap entry: with ERR = 0 it latches the code and closes any session; with ERR ≠ 0 it changes nothing. The command
ends with the state this gives. -/
def raise (e : ErrCode) (s : State) : State :=
  if s.err = 0#8 then closeSessions (s.setErr (errCode e)) else s

/-- The return from an error by CLR_ERR (R285, 40_control.md R122): ERR = 0 and nothing else restored. -/
def returnFromError (s : State) : State := s.setErr 0#8

/-- The gate of a gated command (30_encoding.md R90, R96): ignored, with no effect at all, while ERR ≠ 0. -/
def whenNoError (s : State) (run : Out) : Out :=
  if s.err = 0#8 then run else .next s

/-- The session rule of the commands that need no session (R97): SEQUENCE while one is open. -/
def whenNoSession (s : State) (run : Out) : Out :=
  if s.encActive || s.decActive then .next (raise .sequence s) else run

/-- The session rule of ENC_SYM and ENC_FINISH (R97): SEQUENCE outside an encode session. -/
def whenEncoding (s : State) (run : Out) : Out :=
  if s.encActive then run else .next (raise .sequence s)

/-- The session rule of DEC_SYM (R97): SEQUENCE outside a decode session. -/
def whenDecoding (s : State) (run : Out) : Out :=
  if s.decActive then run else .next (raise .sequence s)

/-! ## Resets -/

/-- The RESET command's effect (40_control.md R121, the "RESET command" column of 10_state.md R39): everything but PBUF,
ARG among it (log 19). -/
def resetBlock (s : State) : State :=
  { State.reset with params := s.params, pbuf := s.pbuf, pending := s.pending, reads := s.reads }

/-- The platform's power-on reset (70_reset_and_hazards.md R310): RESET's effect, and every PBUF bit unspecified. What the host has read and will do
is the host's, and stays (log 8). -/
def powerOn (s : State) : State := (resetBlock s).setPbuf Payload.unspecified

end Sys2Proof.Machine
end

