-- ==== Sys2Proof/Machine/Flags.lean ====
section
/-! DEFINITION. The flags: TABLE_VALID, ALPHA_SIZE and DEGEN as their commands leave them (10_state.md R29 to R31), DEC_DONE (R34) and the STATUS
view (R25). -/

namespace Sys2Proof.Machine

/-- An edited or cleared table is not valid: TABLE_VALID, ALPHA_SIZE and DEGEN are 0 (43_code_table.md R190). -/
def invalidateTable (s : State) : State := s.setTableFlags false 0#9 false

/-- A table of n symbols has passed construction or validation (R29 to R31): TABLE_VALID = 1, ALPHA_SIZE = n, DEGEN = 1 exactly when n = 1. -/
def validateTable (n : Nat) (s : State) : State := s.setTableFlags true (BitVec.ofNat 9 n) (n == 1)

/-- The code table emptied and marked not valid (42_tree_builder.md R160, 43_code_table.md R191). -/
def clearTable (s : State) : State := invalidateTable (s.setTable emptyLens emptyBits)

/-- DEC_DONE (R34): computed, not stored. -/
def decDone (s : State) : Bool := s.decActive && s.decPos == s.decLen

/-- A flag at bit k of a 32-bit view. -/
def flagAt (k : Nat) (b : Bool) : Word := (BitVec.ofBool b).setWidth 32 <<< k

/-- STATUS as a read returns it (R25): ERR [7:0], TABLE_VALID [8], DEGEN [9], ENC_ACTIVE [10], DEC_ACTIVE [11], DEC_DONE [12], ALPHA_SIZE [24:16],
every other bit 0. -/
def status (s : State) : Word :=
  s.err.setWidth 32 ||| flagAt 8 s.tableValid ||| flagAt 9 s.degen ||| flagAt 10 s.encActive ||| flagAt 11 s.decActive |||
    flagAt 12 (decDone s) ||| s.alphaSize.setWidth 32 <<< 16

end Sys2Proof.Machine
end

