-- ==== Sys2Proof/WellFormed.lean ====
section
/-! DEFINITION. The range checks of 30_encoding.md R92 on the operands of an assembler line: "An operand out of its field's range (rule R92) is an
assembly error, not a command" (R100). A term of Instr needs no check: its operands' types are the fields' ranges. -/

namespace Sys2Proof

/-- Which check an ill-formed line fails (R92, R100, R101). -/
inductive AsmError where
  /-- SYM not in 0..255. -/
  | symRange
  /-- LEN not in 0..255, or a LOADCODE string longer than LEN can say. -/
  | lenRange
  /-- W not in 0..7. -/
  | wordIndexRange
  /-- IDX not in 0..65535. -/
  | idxRange
  /-- DATA not in 0..255. -/
  | dataRange
  /-- A value written to ARG or CMD not in 0..2^32 - 1. -/
  | valueRange
  deriving DecidableEq, Repr

/-- The first failing check of a list of checks. -/
def firstError : List (Bool × AsmError) → Option AsmError
  | [] => none
  | (ok, e) :: rest => if ok then firstError rest else some e

/-- SYM is 0..255 (R92). -/
def checkSym (o : Operand) : Bool × AsmError := (decide (o.value < 256), .symRange)

/-- LEN is 0..255 (R92). -/
def checkLen (n : Nat) : Bool × AsmError := (decide (n < 256), .lenRange)

/-- W is 0..7 (R92). -/
def checkWordIndex (n : Nat) : Bool × AsmError := (decide (n < 8), .wordIndexRange)

/-- IDX is 0..65535 (R92). -/
def checkIdx (n : Nat) : Bool × AsmError := (decide (n < 65536), .idxRange)

/-- DATA is 0..255 (R92). -/
def checkData (n : Nat) : Bool × AsmError := (decide (n < 256), .dataRange)

/-- A bus value is 32 bits (20_memory.md R63). -/
def checkValue (n : Nat) : Bool × AsmError := (decide (n < 2 ^ 32), .valueRange)

/-- What is wrong with a line, or none: each operand against its field's range (R92, R100, R101). -/
def Line.error : Line → Option AsmError
  | .wrArg v => firstError [checkValue v]
  | .wrCmd w => firstError [checkValue w]
  | .rdResult _ => none
  | .rdStatus _ => none
  | .nop => none
  | .reset => none
  | .clrErr => none
  | .stop => none
  | .freqClear => none
  | .freqCount s => firstError [checkSym s]
  | .freqSet s => firstError [checkSym s]
  | .freqGet s => firstError [checkSym s]
  | .build => none
  | .tblClear => none
  | .tblSetLen s n => firstError [checkSym s, checkLen n]
  | .tblSetWord s w => firstError [checkSym s, checkWordIndex w]
  | .tblCommit => none
  | .tblGetLen s => firstError [checkSym s]
  | .tblGetWord s w => firstError [checkSym s, checkWordIndex w]
  | .encStart => none
  | .encSym s => firstError [checkSym s]
  | .encFinish => none
  | .encPos => none
  | .decStart => none
  | .decSym => none
  | .decPos => none
  | .pbufWr k v => firstError [checkIdx k, checkData v]
  | .pbufRd k => firstError [checkIdx k]
  | .freqSetV s v => firstError [checkSym s, checkValue v]
  | .tblSetWordV s w v => firstError [checkSym s, checkWordIndex w, checkValue v]
  | .decStartV n => firstError [checkValue n]
  | .count t => firstError (t.map fun c => checkSym (.chr c))
  | .encode t => firstError (t.map fun c => checkSym (.chr c))
  | .loadCode s bits => firstError [checkSym s, checkLen bits.length]
  | .check => none

/-- A line is well-formed when no check fails. -/
def Line.wellFormed (l : Line) : Bool := l.error.isNone

end Sys2Proof
end

