-- ==== Sys2Proof/Decode.lean ====
section
/-! DEFINITION. The command encoding of 30_encoding.md: the decoder of a 32-bit command word (R90, R91, R94, R95), the encoder written from the
same map, the machine-readable opcode table (R99), the packing of a codeword into 32-bit words (10_state.md R28), and the assembler (R100, R101). -/

namespace Sys2Proof

/-! ## Fields and formats -/

/-- OPC, bits [31:24] of every command (R91). -/
def opcField (w : Word) : BitVec 8 := w.extractLsb' 24 8

/-- SYM, bits [7:0] (R91). -/
def symField (w : Word) : Sym := w.extractLsb' 0 8

/-- LEN, bits [15:8] of format SL (R91). -/
def lenField (w : Word) : BitVec 8 := w.extractLsb' 8 8

/-- W, bits [10:8] of format SW (R91). -/
def wordIndexField (w : Word) : BitVec 3 := w.extractLsb' 8 3

/-- IDX, bits [23:8] of formats BD and BI (R91). -/
def idxField (w : Word) : BitVec 16 := w.extractLsb' 8 16

/-- DATA, bits [7:0] of format BD (R91). -/
def dataField (w : Word) : Byte := w.extractLsb' 0 8

/-- The six formats of R91. -/
inductive Format where
  | n
  | s
  | sl
  | sw
  | bd
  | bi
  deriving DecidableEq, Repr

/-- The bits a format reserves, which must be 0 (R91). -/
def reservedMask : Format → Word
  | .n => 0x00FFFFFF#32
  | .s => 0x00FFFF00#32
  | .sl => 0x00FF0000#32
  | .sw => 0x00FFF800#32
  | .bd => 0x00000000#32
  | .bi => 0x000000FF#32

/-- Why a word is illegal (R95). -/
inductive IllegalWord where
  /-- OPC is one of the 232 values R94 does not assign. -/
  | unassignedOpcode
  /-- OPC is assigned and a reserved bit of its format is not 0. -/
  | reservedBits
  deriving DecidableEq, Repr

/-! ## The decoder -/

/-- Accept the instruction when the format's reserved bits are all 0 in the word (R90, R91). -/
def acceptFormat (f : Format) (w : Word) (i : Instr) : Except IllegalWord Instr :=
  if w &&& reservedMask f = 0#32 then .ok i else .error .reservedBits

/-- The command a word stands for, or why it is illegal (R90, R94, R95). -/
def decode (w : Word) : Except IllegalWord Instr :=
  match opcField w with
  | 0x00#8 => acceptFormat .n w .nop
  | 0x01#8 => acceptFormat .n w .reset
  | 0x02#8 => acceptFormat .n w .clrErr
  | 0x03#8 => acceptFormat .n w .stop
  | 0x10#8 => acceptFormat .n w .freqClear
  | 0x11#8 => acceptFormat .s w (.freqCount (symField w))
  | 0x12#8 => acceptFormat .s w (.freqSet (symField w))
  | 0x13#8 => acceptFormat .s w (.freqGet (symField w))
  | 0x18#8 => acceptFormat .n w .build
  | 0x20#8 => acceptFormat .n w .tblClear
  | 0x21#8 => acceptFormat .sl w (.tblSetLen (symField w) (lenField w))
  | 0x22#8 => acceptFormat .sw w (.tblSetWord (symField w) (wordIndexField w))
  | 0x23#8 => acceptFormat .n w .tblCommit
  | 0x24#8 => acceptFormat .s w (.tblGetLen (symField w))
  | 0x25#8 => acceptFormat .sw w (.tblGetWord (symField w) (wordIndexField w))
  | 0x30#8 => acceptFormat .n w .encStart
  | 0x31#8 => acceptFormat .s w (.encSym (symField w))
  | 0x32#8 => acceptFormat .n w .encFinish
  | 0x33#8 => acceptFormat .n w .encPos
  | 0x40#8 => acceptFormat .n w .decStart
  | 0x41#8 => acceptFormat .n w .decSym
  | 0x42#8 => acceptFormat .n w .decPos
  | 0x50#8 => acceptFormat .bd w (.pbufWr (idxField w) (dataField w))
  | 0x51#8 => acceptFormat .bi w (.pbufRd (idxField w))
  | _ => .error .unassignedOpcode

/-- The instruction the decoder reads from a command numbered as spec/opcode_table.json numbers it. A command is one 32-bit word written whole
(R98, 20_memory.md R68: no byte order), so the word is the number itself with every bit at or above nbits 0 (log 18); no command is longer. -/
def decodeTableWord (nbits w : Nat) : Option Instr :=
  if nbits ≤ 32 then (decode (BitVec.ofNat 32 (w % 2 ^ nbits))).toOption else none

/-! ## The encoder -/

/-- SYM in its place (R91). -/
def putSym (s : Sym) : Word := s.setWidth 32

/-- A field whose lowest bit is bit 8: LEN, W or IDX in its place (R91). -/
def putAt8 {n : Nat} (x : BitVec n) : Word := x.setWidth 32 <<< 8

/-- The word of a command, as the `word` column of R94 writes it. -/
def encode : Instr → Word
  | .nop => 0x00000000#32
  | .reset => 0x01000000#32
  | .clrErr => 0x02000000#32
  | .stop => 0x03000000#32
  | .freqClear => 0x10000000#32
  | .freqCount s => 0x11000000#32 ||| putSym s
  | .freqSet s => 0x12000000#32 ||| putSym s
  | .freqGet s => 0x13000000#32 ||| putSym s
  | .build => 0x18000000#32
  | .tblClear => 0x20000000#32
  | .tblSetLen s len => 0x21000000#32 ||| putAt8 len ||| putSym s
  | .tblSetWord s w => 0x22000000#32 ||| putAt8 w ||| putSym s
  | .tblCommit => 0x23000000#32
  | .tblGetLen s => 0x24000000#32 ||| putSym s
  | .tblGetWord s w => 0x25000000#32 ||| putAt8 w ||| putSym s
  | .encStart => 0x30000000#32
  | .encSym s => 0x31000000#32 ||| putSym s
  | .encFinish => 0x32000000#32
  | .encPos => 0x33000000#32
  | .decStart => 0x40000000#32
  | .decSym => 0x41000000#32
  | .decPos => 0x42000000#32
  | .pbufWr k v => 0x50000000#32 ||| putAt8 k ||| putSym v
  | .pbufRd k => 0x51000000#32 ||| putAt8 k

/-- The format column of R94. -/
def formatOf : Instr → Format
  | .freqCount _ => .s
  | .freqSet _ => .s
  | .freqGet _ => .s
  | .tblSetLen _ _ => .sl
  | .tblSetWord _ _ => .sw
  | .tblGetLen _ => .s
  | .tblGetWord _ _ => .sw
  | .encSym _ => .s
  | .pbufWr _ _ => .bd
  | .pbufRd _ => .bi
  | .nop => .n
  | .reset => .n
  | .clrErr => .n
  | .stop => .n
  | .freqClear => .n
  | .build => .n
  | .tblClear => .n
  | .tblCommit => .n
  | .encStart => .n
  | .encFinish => .n
  | .encPos => .n
  | .decStart => .n
  | .decSym => .n
  | .decPos => .n

/-- The mnemonic column of R94. -/
def mnemonicOf : Instr → String
  | .nop => "NOP"
  | .reset => "RESET"
  | .clrErr => "CLR_ERR"
  | .stop => "STOP"
  | .freqClear => "FREQ_CLEAR"
  | .freqCount _ => "FREQ_COUNT"
  | .freqSet _ => "FREQ_SET"
  | .freqGet _ => "FREQ_GET"
  | .build => "BUILD"
  | .tblClear => "TBL_CLEAR"
  | .tblSetLen _ _ => "TBL_SET_LEN"
  | .tblSetWord _ _ => "TBL_SET_WORD"
  | .tblCommit => "TBL_COMMIT"
  | .tblGetLen _ => "TBL_GET_LEN"
  | .tblGetWord _ _ => "TBL_GET_WORD"
  | .encStart => "ENC_START"
  | .encSym _ => "ENC_SYM"
  | .encFinish => "ENC_FINISH"
  | .encPos => "ENC_POS"
  | .decStart => "DEC_START"
  | .decSym => "DEC_SYM"
  | .decPos => "DEC_POS"
  | .pbufWr _ _ => "PBUF_WR"
  | .pbufRd _ => "PBUF_RD"

/-! ## The machine-readable table -/

/-- One row of spec/opcode_table.json: a word w selects the row exactly when w &&& mask = value (R99). -/
structure OpcodeRow where
  mnemonic : String
  value : Word
  mask : Word
  deriving DecidableEq, Repr

/-- Whether a word selects a row (R99). -/
def rowSelects (r : OpcodeRow) (w : Word) : Bool := w &&& r.mask == r.value

/-- spec/opcode_table.json, row by row: a copy of the spec's table kept apart from `decode`, so that the two can be held against each other. -/
def opcodeTable : List OpcodeRow :=
  [ ⟨"NOP", 0x00000000#32, 0xFFFFFFFF#32⟩,
    ⟨"RESET", 0x01000000#32, 0xFFFFFFFF#32⟩,
    ⟨"CLR_ERR", 0x02000000#32, 0xFFFFFFFF#32⟩,
    ⟨"STOP", 0x03000000#32, 0xFFFFFFFF#32⟩,
    ⟨"FREQ_CLEAR", 0x10000000#32, 0xFFFFFFFF#32⟩,
    ⟨"FREQ_COUNT", 0x11000000#32, 0xFFFFFF00#32⟩,
    ⟨"FREQ_SET", 0x12000000#32, 0xFFFFFF00#32⟩,
    ⟨"FREQ_GET", 0x13000000#32, 0xFFFFFF00#32⟩,
    ⟨"BUILD", 0x18000000#32, 0xFFFFFFFF#32⟩,
    ⟨"TBL_CLEAR", 0x20000000#32, 0xFFFFFFFF#32⟩,
    ⟨"TBL_SET_LEN", 0x21000000#32, 0xFFFF0000#32⟩,
    ⟨"TBL_SET_WORD", 0x22000000#32, 0xFFFFF800#32⟩ ] ++
  [ ⟨"TBL_COMMIT", 0x23000000#32, 0xFFFFFFFF#32⟩,
    ⟨"TBL_GET_LEN", 0x24000000#32, 0xFFFFFF00#32⟩,
    ⟨"TBL_GET_WORD", 0x25000000#32, 0xFFFFF800#32⟩,
    ⟨"ENC_START", 0x30000000#32, 0xFFFFFFFF#32⟩,
    ⟨"ENC_SYM", 0x31000000#32, 0xFFFFFF00#32⟩,
    ⟨"ENC_FINISH", 0x32000000#32, 0xFFFFFFFF#32⟩,
    ⟨"ENC_POS", 0x33000000#32, 0xFFFFFFFF#32⟩,
    ⟨"DEC_START", 0x40000000#32, 0xFFFFFFFF#32⟩,
    ⟨"DEC_SYM", 0x41000000#32, 0xFFFFFFFF#32⟩,
    ⟨"DEC_POS", 0x42000000#32, 0xFFFFFFFF#32⟩,
    ⟨"PBUF_WR", 0x50000000#32, 0xFF000000#32⟩,
    ⟨"PBUF_RD", 0x51000000#32, 0xFF0000FF#32⟩ ]

/-! ## Codeword bits in 32-bit words -/

/-- Word w of a bit sequence: bits 32·w .. 32·w + 31 of it from bit 31 down, zero past the end (10_state.md R28, R101). -/
def packWord (c : List Bool) (w : Nat) : Word :=
  (List.range 32).foldl (fun acc j => acc.shiftConcat (c.getD (32 * w + j) false)) 0#32

/-! ## The assembler -/

/-- The CMD write of a command: the register CMD stands at BASE (R61). -/
def cmdWrite (p : Params) (i : Instr) : HostEvent := .write .word p.base (encode i)

/-- The write of a value to ARG, at offset 0x04 (R61). -/
def argWrite (p : Params) (v : Nat) : HostEvent := .write .word (p.base + 0x04) (BitVec.ofNat 32 v)

/-- The symbol an operand stands for (R92, R100). -/
def operandSym (o : Operand) : Sym := BitVec.ofNat 8 o.value

/-- The bus accesses of a line whose operands are in range (R100, R101). CHECK is its read of STATUS; what the program then requires of the value
is a premise of a claim about it (log 16). -/
def expandLine (p : Params) : Line → List HostEvent
  | .wrArg v => [argWrite p v]
  | .wrCmd w => [.write .word p.base (BitVec.ofNat 32 w)]
  | .rdResult _ => [.read .word (p.base + 0x08)]
  | .rdStatus _ => [.read .word (p.base + 0x0C)]
  | .nop => [cmdWrite p .nop]
  | .reset => [cmdWrite p .reset]
  | .clrErr => [cmdWrite p .clrErr]
  | .stop => [cmdWrite p .stop]
  | .freqClear => [cmdWrite p .freqClear]
  | .freqCount s => [cmdWrite p (.freqCount (operandSym s))]
  | .freqSet s => [cmdWrite p (.freqSet (operandSym s))]
  | .freqGet s => [cmdWrite p (.freqGet (operandSym s))]
  | .build => [cmdWrite p .build]
  | .tblClear => [cmdWrite p .tblClear]
  | .tblSetLen s n => [cmdWrite p (.tblSetLen (operandSym s) (BitVec.ofNat 8 n))]
  | .tblSetWord s w => [cmdWrite p (.tblSetWord (operandSym s) (BitVec.ofNat 3 w))]
  | .tblCommit => [cmdWrite p .tblCommit]
  | .tblGetLen s => [cmdWrite p (.tblGetLen (operandSym s))]
  | .tblGetWord s w => [cmdWrite p (.tblGetWord (operandSym s) (BitVec.ofNat 3 w))]
  | .encStart => [cmdWrite p .encStart]
  | .encSym s => [cmdWrite p (.encSym (operandSym s))]
  | .encFinish => [cmdWrite p .encFinish]
  | .encPos => [cmdWrite p .encPos]
  | .decStart => [cmdWrite p .decStart]
  | .decSym => [cmdWrite p .decSym]
  | .decPos => [cmdWrite p .decPos]
  | .pbufWr k v => [cmdWrite p (.pbufWr (BitVec.ofNat 16 k) (BitVec.ofNat 8 v))]
  | .pbufRd k => [cmdWrite p (.pbufRd (BitVec.ofNat 16 k))]
  | .freqSetV s v => [argWrite p v, cmdWrite p (.freqSet (operandSym s))]
  | .tblSetWordV s w v => [argWrite p v, cmdWrite p (.tblSetWord (operandSym s) (BitVec.ofNat 3 w))]
  | .decStartV n => [argWrite p n, cmdWrite p .decStart]
  | .count t => t.map fun c => cmdWrite p (.freqCount (operandSym (.chr c)))
  | .encode t => t.map fun c => cmdWrite p (.encSym (operandSym (.chr c)))
  | .loadCode s bits =>
    cmdWrite p (.tblSetLen (operandSym s) (BitVec.ofNat 8 bits.length)) ::
      (List.range ((bits.length + 31) / 32)).flatMap fun w =>
        [argWrite p (packWord bits w).toNat, cmdWrite p (.tblSetWord (operandSym s) (BitVec.ofNat 3 w))]
  | .check => [.read .word (p.base + 0x0C)]

/-- A line's bus accesses, or the assembly error its operands make (R100). -/
def assembleLine (p : Params) (l : Line) : Except AsmError (List HostEvent) :=
  match l.error with
  | some e => .error e
  | none => .ok (expandLine p l)

/-- A program's bus accesses, line by line, or its first assembly error (R100, R101). -/
def assemble (p : Params) : List Line → Except AsmError (List HostEvent)
  | [] => .ok []
  | l :: rest =>
    match assembleLine p l, assemble p rest with
    | .error e, _ => .error e
    | .ok _, .error e => .error e
    | .ok es, .ok es' => .ok (es ++ es')

end Sys2Proof
end

