-- ==== Sys2Proof/Machine/Operands.lean ====
section
/-! DEFINITION. What commands read through their operands: the symbols and alphabets (10_state.md R26, R27), codewords (R28), and the decode tree of
the code table (43_code_table.md R205). -/

namespace Sys2Proof.Machine

/-- The 256 symbol values in ascending order. -/
def symbols : List Sym := (List.range nsym).map (BitVec.ofNat 8)

/-- The alphabet of a frequency table: the symbols with FREQ ≠ 0, ascending (42_tree_builder.md R161). -/
def freqAlphabet (f : Vector Word 256) : List Sym := symbols.filter fun a => tableGet f a ≠ 0#32

/-- The alphabet of a code table: the symbols with CODE_LEN ≠ 0, ascending (43_code_table.md R194, R205). -/
def codeAlphabet (l : Vector (BitVec 8) 256) : List Sym := symbols.filter fun a => tableGet l a ≠ 0#8

/-- Stored codeword bit j of an entry: bit 31 - (j mod 32) of word j div 32 (R28). -/
def storedBit (b : Vector Word 8) (j : Nat) : Bool :=
  match b[j / 32]? with
  | some w => w.getLsbD (31 - j % 32)
  | none => false

/-- The first n stored bits of an entry, first bit first (R28). -/
def storedBits (b : Vector Word 8) (n : Nat) : List Bool := (List.range n).map (storedBit b)

/-- A bit sequence in the layout of R28, the stored bits past its end 0. -/
def packCode (c : List Bool) : Vector Word 8 := Vector.ofFn fun w => packWord c w.val

/-- CW(a), the codeword of symbol a (R28). -/
def codeword (s : State) (a : Sym) : List Bool := storedBits (tableGet s.codeBits a) (tableGet s.codeLen a).toNat

/-- Two codewords that may not stand in one table: a is not b and CW(a) ⊑ CW(b) (43_code_table.md R194). -/
def clash (s : State) (a b : Sym) : Bool := a != b && (codeword s a).isPrefixOf (codeword s b)

/-- The leaf at node p of the decode tree: the symbol whose codeword is p (R205, 45_decoder.md R241). A valid table has at most one; otherwise, in
states no run reaches, the least (log 12). -/
def leafAt (s : State) (p : List Bool) : Option Sym := (codeAlphabet s.codeLen).find? fun a => codeword s a == p

/-- Node p of the decode tree has a node below it: some codeword has p as a proper prefix (R205, R241). -/
def hasNodeBelow (s : State) (p : List Bool) : Bool :=
  (codeAlphabet s.codeLen).any fun a => p.isPrefixOf (codeword s a) && p != codeword s a

end Sys2Proof.Machine
end

