-- ==== Sys2Proof/Machine/Builder.lean ====
section
/-! DEFINITION. The tree builder (42_tree_builder.md): the tree, the priority queue and its merge loop, the codewords of a tree, and BUILD. -/

namespace Sys2Proof.Machine

/-- A code tree (00_scope.md R13 CodeNode): every internal node has exactly two children (R166). -/
inductive Tree where
  | leaf (sym : Sym) (weight : Weight)
  | internal (weight : Weight) (left right : Tree)
  deriving DecidableEq, Repr

/-- The weight a node carries (R170). -/
def treeWeight : Tree → Weight
  | .leaf _ w => w
  | .internal w _ _ => w

/-- The leaves with their edge labels from the root: 0 for a left edge, 1 for a right edge (R167). -/
def treePaths : Tree → List (Sym × List Bool)
  | .leaf a _ => [(a, [])]
  | .internal _ l r =>
    (treePaths l).map (fun x => (x.1, false :: x.2)) ++ (treePaths r).map (fun x => (x.1, true :: x.2))

/-- An entry of the priority queue: a node under its key (weight, sequence number) (R162, R163). -/
structure Entry where
  seq : Nat
  node : Tree
  deriving DecidableEq, Repr

/-- The key order (R164): less weight first, and at equal weight the one inserted earlier. -/
def keyLt (x y : Entry) : Bool :=
  decide (treeWeight x.node < treeWeight y.node) || (treeWeight x.node == treeWeight y.node && decide (x.seq < y.seq))

/-- popmin (R162, R164) of the queue that holds e and rest: the entry of least key, and the others. Only the order in which entries leave is
architectural, so the queue is a list in any order (log 14). -/
def popMin : Entry → List Entry → Entry × List Entry
  | e, [] => (e, [])
  | e, f :: rest =>
    let (m, others) := popMin f rest
    if keyLt e m then (e, f :: rest) else (m, e :: others)

/-- The merge step (R165): the node popped first is the left child, the second the right one, the weight their sum. -/
def mergeEntries (q : Nat) (x y : Entry) : Entry :=
  { seq := q, node := .internal (treeWeight x.node + treeWeight y.node) x.node y.node }

/-- The merge loop (R160, R166) on the queue that holds e and rest, q the next sequence number: pop two, push their merge, until one node is left,
the root. The first argument bounds the loop; the length of rest is the number of merges (log 14). -/
def mergeAll : Nat → Nat → Entry → List Entry → Tree
  | 0, _, e, _ => e.node
  | n + 1, q, e, rest =>
    match popMin e rest with
    | (x, []) => x.node
    | (x, f :: others) =>
      let (y, left) := popMin f others
      mergeAll n (q + 1) (mergeEntries q x y) left

/-- The leaf of a symbol under sequence number q, its weight the count zero-extended (R161, R163, R170). -/
def leafEntry (f : Vector Word 256) (a : Sym) (q : Nat) : Entry :=
  { seq := q, node := .leaf a ((tableGet f a).setWidth 40) }

/-- The leaves of an alphabet, inserted in its order with sequence numbers from q (R161, R163). -/
def seedFrom (f : Vector Word 256) (q : Nat) : List Sym → List Entry
  | [] => []
  | a :: rest => leafEntry f a q :: seedFrom f (q + 1) rest

/-- The tree of an alphabet a :: rest (R160, R166). -/
def huffmanTree (f : Vector Word 256) (a : Sym) (rest : List Sym) : Tree :=
  mergeAll rest.length (rest.length + 1) (leafEntry f a 0) (seedFrom f 1 rest)

/-- CODE_LEN with the length of each path written (R167). -/
def writeLens (l : Vector (BitVec 8) 256) : List (Sym × List Bool) → Vector (BitVec 8) 256
  | [] => l
  | (a, c) :: rest => writeLens (tableSet l a (BitVec.ofNat 8 c.length)) rest

/-- CODE_BITS with the bits of each path written in R28's layout, the stored bits past its end 0 (R167). -/
def writeCodes (b : Vector (Vector Word 8) 256) : List (Sym × List Bool) → Vector (Vector Word 8) 256
  | [] => b
  | (a, c) :: rest => writeCodes (tableSet b a (packCode c)) rest

/-- The codewords BUILD gives an alphabet of one or more symbols: the paths of its tree (R167), and for one symbol the codeword 0 (R168). -/
def buildCodes (f : Vector Word 256) : List Sym → List (Sym × List Bool)
  | [] => []
  | [a] => [(a, [false])]
  | a :: rest => treePaths (huffmanTree f a rest)

/-- The state BUILD leaves for an alphabet that is not empty, from the cleared state s1: the code table, the flags and RESULT (R160). -/
def installCodes (alphabet : List Sym) (s1 : State) : State :=
  let codes := buildCodes s1.freq alphabet
  ((validateTable alphabet.length (s1.setTable (writeLens s1.codeLen codes) (writeCodes s1.codeBits codes)))).setResult
    (BitVec.ofNat 32 alphabet.length)

/-- BUILD (R160): SEQUENCE in a session; else the table is cleared, and an empty alphabet raises EMPTY_ALPHABET (R169). -/
def execBuild (s : State) : Out :=
  whenNoError s (whenNoSession s
    (match freqAlphabet s.freq with
     | [] => .next (raise .emptyAlphabet (clearTable s))
     | a :: rest => .next (installCodes (a :: rest) (clearTable s))))

end Sys2Proof.Machine
end

