-- ==== Sys2Proof/Machine/CodeTable.lean ====
section
/-! DEFINITION. The code-table commands (43_code_table.md). -/

namespace Sys2Proof.Machine

/-- TBL_CLEAR (R191). -/
def execTblClear (s : State) : Out := whenNoError s (whenNoSession s (.next (clearTable s)))

/-- TBL_SET_LEN a, len (R192): the stored bits stay. -/
def execTblSetLen (a : Sym) (len : BitVec 8) (s : State) : Out :=
  whenNoError s (whenNoSession s (.next (invalidateTable (s.setTable (tableSet s.codeLen a len) s.codeBits))))

/-- TBL_SET_WORD a, w (R193): the word comes from ARG. -/
def execTblSetWord (a : Sym) (w : BitVec 3) (s : State) : Out :=
  whenNoError s (whenNoSession s (.next (invalidateTable
    (s.setTable s.codeLen (tableSet s.codeBits a (wordSet (tableGet s.codeBits a) w s.arg))))))

/-- Some codeword of the table is another one or a prefix of another one (R194). -/
def hasClash (s : State) : Bool :=
  (codeAlphabet s.codeLen).any fun a => (codeAlphabet s.codeLen).any fun b => clash s a b

/-- TBL_COMMIT (R194): the table becomes usable when it has a symbol and its codewords are pairwise prefix-free. -/
def execTblCommit (s : State) : Out :=
  whenNoError s (whenNoSession s
    (match codeAlphabet s.codeLen with
     | [] => .next (raise .emptyAlphabet (invalidateTable s))
     | a :: rest =>
       if hasClash s then .next (raise .badTable (invalidateTable s))
       else .next ((validateTable (a :: rest).length s).setResult (BitVec.ofNat 32 (a :: rest).length))))

/-- TBL_GET_LEN a (R195). -/
def execTblGetLen (a : Sym) (s : State) : Out := .next (s.setResult ((tableGet s.codeLen a).setWidth 32))

/-- TBL_GET_WORD a, w (R196). -/
def execTblGetWord (a : Sym) (w : BitVec 3) (s : State) : Out := .next (s.setResult (wordGet (tableGet s.codeBits a) w))

end Sys2Proof.Machine
end

