-- ==== Sys2Proof/Machine/Control.lean ====
section
/-! DEFINITION. The control commands (40_control.md). -/

namespace Sys2Proof.Machine

/-- NOP (R120). -/
def execNop (s : State) : Out := .next s

/-- RESET (R121). -/
def execReset (s : State) : Out := .next (resetBlock s)

/-- CLR_ERR (R122). -/
def execClrErr (s : State) : Out := .next (returnFromError s)

/-- STOP (R123). -/
def execStop (s : State) : Out := whenNoError s (.next (closeSessions s))

end Sys2Proof.Machine
end

