-- ==== Sys2Proof/Machine/Decoder.lean ====
section
/-! DEFINITION. The decoder commands (45_decoder.md). -/

namespace Sys2Proof.Machine

/-- DEC_START (R240): the session's bitLength comes from ARG. -/
def execDecStart (s : State) : Out :=
  whenNoError s (whenNoSession s
    (if s.tableValid then
       (if s.arg.toNat > s.params.pbufBits then .next (raise .range s) else .next (s.setDec true 0#32 s.arg))
     else .next (raise .noTable s)))

/-- The bit walk of DEC_SYM (R241) from node p of the decode tree: one bit a round, to a leaf, to a missing edge, or to the end of the meaningful
bits. The first argument bounds the rounds; a walk of 255 rounds always ends inside the bound (R247), so its 0 case is never reached from the
root (log 13). -/
def walk : Nat → List Bool → State → Out
  | 0, _, s => .next (raise .corruptStream s)
  | n + 1, p, s =>
    if s.decPos = s.decLen then .next (raise .truncatedStream s)
    else
      match s.pbuf.bit? s.decPos.toNat with
      | none => .fault (.unspecifiedBit s.decPos.toNat)
      | some b =>
        let s1 := s.setDec s.decActive (s.decPos + 1#32) s.decLen
        match leafAt s1 (p ++ [b]) with
        | some a => .next (s1.setResult (a.setWidth 32))
        | none => if hasNodeBelow s1 (p ++ [b]) then walk n (p ++ [b]) s1 else .next (raise .corruptStream s1)

/-- DEC_SYM (R241, R248): RESULT = 0x100 at the end of the meaningful bits, else the walk from the root. -/
def execDecSym (s : State) : Out :=
  whenNoError s (whenDecoding s
    (if s.decPos = s.decLen then .next (s.setResult 0x00000100#32) else walk maxCodeLen [] s))

/-- DEC_POS (R242). -/
def execDecPos (s : State) : Out := .next (s.setResult s.decPos)

end Sys2Proof.Machine
end

