-- ==== Sys2Proof/Machine/Encoder.lean ====
section
/-! DEFINITION. The encoder commands (44_encoder.md). -/

namespace Sys2Proof.Machine

/-- ENC_START (R220): PBUF is not cleared. -/
def execEncStart (s : State) : Out :=
  whenNoError s (whenNoSession s
    (if s.tableValid then .next (s.setEnc true 0#32) else .next (raise .noTable s)))

/-- ENC_SYM a (R221): the codeword at ENC_POS, or UNKNOWN_SYMBOL or BUF_FULL with no bit written. The end is computed exactly (log 15). -/
def execEncSym (a : Sym) (s : State) : Out :=
  whenNoError s (whenEncoding s
    (if tableGet s.codeLen a = 0#8 then .next (raise .unknownSymbol s)
     else if s.encPos.toNat + (tableGet s.codeLen a).toNat > s.params.pbufBits then .next (raise .bufFull s)
     else .next ((s.setPbuf (s.pbuf.writeBits s.encPos.toNat (codeword s a))).setEnc s.encActive
       (s.encPos + (tableGet s.codeLen a).setWidth 32))))

/-- The number of padding bits from a bit position to the next byte boundary (R222). -/
def padCount (pos : Nat) : Nat := (8 - pos % 8) % 8

/-- ENC_FINISH (R222): RESULT is the bitLength before padding; ENC_POS keeps it. -/
def execEncFinish (s : State) : Out :=
  whenNoError s (whenEncoding s
    (.next (((s.setResult s.encPos).setPbuf
      (s.pbuf.writeBits s.encPos.toNat (List.replicate (padCount s.encPos.toNat) false))).setEnc false s.encPos)))

/-- ENC_POS (R223). -/
def execEncPos (s : State) : Out := .next (s.setResult s.encPos)

end Sys2Proof.Machine
end

