-- ==== Sys2Proof/Machine/Frequency.lean ====
section
/-! DEFINITION. The frequency-table commands (41_frequency.md). -/

namespace Sys2Proof.Machine

/-- FREQ_CLEAR (R141). -/
def execFreqClear (s : State) : Out := whenNoError s (.next (s.setFreq emptyFreq))

/-- FREQ_COUNT a (R142): OVERFLOW at 2^32 - 1, the count then unchanged. -/
def execFreqCount (a : Sym) (s : State) : Out :=
  whenNoError s
    (if tableGet s.freq a = 0xFFFFFFFF#32 then .next (raise .overflow s)
     else .next (s.setFreq (tableSet s.freq a (tableGet s.freq a + 1#32))))

/-- FREQ_SET a (R143). -/
def execFreqSet (a : Sym) (s : State) : Out := whenNoError s (.next (s.setFreq (tableSet s.freq a s.arg)))

/-- FREQ_GET a (R144). -/
def execFreqGet (a : Sym) (s : State) : Out := .next (s.setResult (tableGet s.freq a))

end Sys2Proof.Machine
end

