-- ==== Sys2Proof/Machine/PayloadBuffer.lean ====
section
/-! DEFINITION. The payload-buffer commands (46_payload_buffer.md). -/

namespace Sys2Proof.Machine

/-- PBUF_WR k, v (R270). -/
def execPbufWr (k : BitVec 16) (v : Byte) (s : State) : Out :=
  whenNoError s (whenNoSession s
    (if k.toNat ≥ s.params.pbufBytes then .next (raise .range s) else .next (s.setPbuf (s.pbuf.writeByte k.toNat v))))

/-- PBUF_RD k (R271): ungated; a byte with an unspecified bit is a model fault (20_memory.md R67). -/
def execPbufRd (k : BitVec 16) (s : State) : Out :=
  if k.toNat ≥ s.params.pbufBytes then .next (raise .range s)
  else
    match s.pbuf.byte? k.toNat with
    | some v => .next (s.setResult (v.setWidth 32))
    | none => .fault (.unspecifiedByte k.toNat)

end Sys2Proof.Machine
end

