-- ==== Sys2Proof/Machine/Dispatch.lean ====
section
/-! DEFINITION. exec: one arm per command (30_encoding.md R94), each a call of its meaning, which holds the command's gate (R96). -/

namespace Sys2Proof.Machine

def exec (i : Instr) (s : State) : Host.Outcome State Fault Refusal :=
  match i with
  | .nop => Sys2Proof.Machine.execNop s
  | .reset => Sys2Proof.Machine.execReset s
  | .clrErr => Sys2Proof.Machine.execClrErr s
  | .stop => Sys2Proof.Machine.execStop s
  | .freqClear => Sys2Proof.Machine.execFreqClear s
  | .freqCount a => Sys2Proof.Machine.execFreqCount a s
  | .freqSet a => Sys2Proof.Machine.execFreqSet a s
  | .freqGet a => Sys2Proof.Machine.execFreqGet a s
  | .build => Sys2Proof.Machine.execBuild s
  | .tblClear => Sys2Proof.Machine.execTblClear s
  | .tblSetLen a len => Sys2Proof.Machine.execTblSetLen a len s
  | .tblSetWord a w => Sys2Proof.Machine.execTblSetWord a w s
  | .tblCommit => Sys2Proof.Machine.execTblCommit s
  | .tblGetLen a => Sys2Proof.Machine.execTblGetLen a s
  | .tblGetWord a w => Sys2Proof.Machine.execTblGetWord a w s
  | .encStart => Sys2Proof.Machine.execEncStart s
  | .encSym a => Sys2Proof.Machine.execEncSym a s
  | .encFinish => Sys2Proof.Machine.execEncFinish s
  | .encPos => Sys2Proof.Machine.execEncPos s
  | .decStart => Sys2Proof.Machine.execDecStart s
  | .decSym => Sys2Proof.Machine.execDecSym s
  | .decPos => Sys2Proof.Machine.execDecPos s
  | .pbufWr k v => Sys2Proof.Machine.execPbufWr k v s
  | .pbufRd k => Sys2Proof.Machine.execPbufRd k s

end Sys2Proof.Machine
end

