-- ==== Sys2Proof/Machine/Bus.lean ====
section
/-! DEFINITION. The register window (20_memory.md R60 to R64): what a bus access of the host does, and the platform's reset. -/

namespace Sys2Proof.Machine

/-- A CMD write (30_encoding.md R90): an illegal word raises ILLEGAL_CMD, whatever ERR holds; a legal one executes (log 17). -/
def writeCmd (w : Word) (s : State) : Out :=
  match decode w with
  | .error _ => .next (raise .illegalCmd s)
  | .ok i => exec i s

/-- What a read of the register at a window offset returns (R61, R62): CMD and the reserved offsets read 0. -/
def readRegister (off : Nat) (s : State) : Word :=
  match off with
  | 0x04 => s.arg
  | 0x08 => s.result
  | 0x0C => status s
  | _ => 0#32

/-- What a write of the register at a window offset does (R61, R62): only CMD and ARG take it. -/
def writeRegister (off : Nat) (v : Word) (s : State) : Out :=
  match off with
  | 0x00 => writeCmd v s
  | 0x04 => .next (s.setArg v)
  | _ => .next s

/-- The check of an access (R63, and log 7 for the window), then the access at its offset. -/
def checkedAccess (width : AccessWidth) (addr : Nat) (s : State) (run : Nat → Out) : Out :=
  if addr < s.params.base ∨ s.params.base + windowBytes ≤ addr then .refused .outsideWindow
  else if width ≠ .word then .refused .narrowAccess
  else if (addr - s.params.base) % 4 ≠ 0 then .refused .misalignedAccess
  else run (addr - s.params.base)

/-- One event from outside the block: an access of the host (R61 to R64), or the platform's reset (70_reset_and_hazards.md R310). -/
def hostEvent (e : HostEvent) (s : State) : Out :=
  match e with
  | .write width addr v => checkedAccess width addr s fun off => writeRegister off v s
  | .read width addr => checkedAccess width addr s fun off => .next (s.pushRead (readRegister off s))
  | .powerOnReset => .next (powerOn s)

/-- The host's next access happens (00_scope.md R16, 20_memory.md R71); with none the block does nothing (70_reset_and_hazards.md R310, log 4). -/
def takeEvent (s : State) : Out :=
  match s.pending with
  | [] => .next s
  | e :: rest => hostEvent e (s.setPending rest)

/-- The state whose next event is a CMD write of a word: the block fetches no command, the host writes it (20_memory.md R74, log 3). -/
def queueCommand (s : State) (w : Word) : State := s.setPending (.write .word s.params.base w :: s.pending)

end Sys2Proof.Machine
end

