-- ==== Sys2Proof/Machine/Step.lean ====
section
/-! DEFINITION. One step, one host register access (00_scope.md R16), and the word the host writes to CMD next. -/

namespace Sys2Proof.Machine

/-- One step of the machine. -/
def step (s : State) : Host.Outcome State Fault Refusal := takeEvent s

/-- The state in which the next step is the CMD write of the table word w, its bits at and above nbits 0 (log 3). -/
def State.withFetchWord (s : State) (nbits w : Nat) : State := queueCommand s (BitVec.ofNat 32 (w % 2 ^ nbits))

end Sys2Proof.Machine
end

