-- ==== Sys2Proof/Safety.lean ====
section
/-! DEFINITION. The words claims use: the invariant of 10_state.md R38, illegal words (30_encoding.md R95), the session table (R97), the error table
(60_exceptions.md R282), payload bits at a place, sequences of commands, and the cost of a code (42_tree_builder.md R174). -/

namespace Sys2Proof

open Sys2Proof.Machine

/-! ## Words and commands -/

/-- w is the one word that decodes to i: the encoding clause of a command's rule. -/
def WordOf (i : Instr) (w : Word) : Prop := ∀ v : Word, decode v = .ok i ↔ v = w

/-- R95's list of the unassigned opcodes. -/
abbrev unassignedOpc (n : Nat) : Prop :=
  (0x04 ≤ n ∧ n ≤ 0x0F) ∨ (0x14 ≤ n ∧ n ≤ 0x17) ∨ (0x19 ≤ n ∧ n ≤ 0x1F) ∨ (0x26 ≤ n ∧ n ≤ 0x2F) ∨ (0x34 ≤ n ∧ n ≤ 0x3F) ∨
    (0x43 ≤ n ∧ n ≤ 0x4F) ∨ (0x52 ≤ n ∧ n ≤ 0xFF)

/-- An assigned opcode n and a nonzero reserved bit of its format (R91, R94, R95). -/
abbrev reservedBitSet (n : Nat) (w : Word) : Prop :=
  (n ∈ [0x00, 0x01, 0x02, 0x03, 0x10, 0x18, 0x20, 0x23, 0x30, 0x32, 0x33, 0x40, 0x41, 0x42] ∧ w &&& 0x00FFFFFF#32 ≠ 0#32) ∨
    (n ∈ [0x11, 0x12, 0x13, 0x24, 0x31] ∧ w &&& 0x00FFFF00#32 ≠ 0#32) ∨
    (n = 0x21 ∧ w &&& 0x00FF0000#32 ≠ 0#32) ∨
    (n ∈ [0x22, 0x25] ∧ w &&& 0x00FFF800#32 ≠ 0#32) ∨
    (n = 0x51 ∧ w &&& 0x000000FF#32 ≠ 0#32)

/-- A word R95 calls illegal. -/
abbrev IllegalByR95 (w : Word) : Prop := unassignedOpc (w >>> 24).toNat ∨ reservedBitSet (w >>> 24).toNat w

/-- What a command needs of the sessions (R97). -/
inductive SessionNeed where
  | nothing
  | closed
  | encoding
  | decoding
  deriving DecidableEq, Repr

/-- R97's table; an ungated command needs nothing. -/
def sessionNeed : Instr → SessionNeed
  | .build => .closed
  | .tblClear => .closed
  | .tblSetLen _ _ => .closed
  | .tblSetWord _ _ => .closed
  | .tblCommit => .closed
  | .pbufWr _ _ => .closed
  | .encStart => .closed
  | .decStart => .closed
  | .encSym _ => .encoding
  | .encFinish => .encoding
  | .decSym => .decoding
  | .nop => .nothing
  | .reset => .nothing
  | .clrErr => .nothing
  | .stop => .nothing
  | .freqClear => .nothing
  | .freqCount _ => .nothing
  | .freqSet _ => .nothing
  | .freqGet _ => .nothing
  | .tblGetLen _ => .nothing
  | .tblGetWord _ _ => .nothing
  | .encPos => .nothing
  | .decPos => .nothing
  | .pbufRd _ => .nothing

/-- Whether a state meets a need (R97). -/
def sessionMet (s : State) : SessionNeed → Prop
  | .nothing => True
  | .closed => s.encActive = false ∧ s.decActive = false
  | .encoding => s.encActive = true
  | .decoding => s.decActive = true

/-- R282's table: the codes (R281) ERR may hold after a legal command that began with ERR = 0. -/
def possibleErrors : Instr → List (BitVec 8)
  | .nop => [0]
  | .reset => [0]
  | .clrErr => [0]
  | .stop => [0]
  | .freqClear => [0]
  | .freqCount _ => [0, 7]
  | .freqSet _ => [0]
  | .freqGet _ => [0]
  | .build => [0, 11, 1]
  | .tblClear => [0, 11]
  | .tblSetLen _ _ => [0, 11]
  | .tblSetWord _ _ => [0, 11]
  | .tblCommit => [0, 11, 1, 5]
  | .tblGetLen _ => [0]
  | .tblGetWord _ _ => [0]
  | .encStart => [0, 11, 6]
  | .encSym _ => [0, 11, 2, 9]
  | .encFinish => [0, 11]
  | .encPos => [0]
  | .decStart => [0, 11, 6, 8]
  | .decSym => [0, 11, 3, 4]
  | .decPos => [0]
  | .pbufWr _ _ => [0, 11, 8]
  | .pbufRd _ => [0, 8]

/-- The state after `raise` of a code with ERR = 0 before (60_exceptions.md R284). -/
def raised (code : BitVec 8) (s : State) : State := { s with err := code, encActive := false, decActive := false }

/-- A list of commands in order, stopping at the first that gives no next state. -/
def runCommands : List Instr → State → Out
  | [], s => .next s
  | i :: rest, s =>
    match exec i s with
    | .next t => runCommands rest t
    | .fault f => .fault f
    | .refused r => .refused r

/-! ## Tables and payloads -/

/-- Symbol a has a codeword (10_state.md R27). -/
abbrev InTable (s : State) (a : Sym) : Prop := tableGet s.codeLen a ≠ 0#8

/-- The codewords are pairwise prefix-free, and so distinct (R38, item 5). -/
abbrev PrefixFree (s : State) : Prop :=
  ∀ a : Sym, InTable s a → ∀ b : Sym, InTable s b → a ≠ b → ¬ codeword s a <+: codeword s b

/-- The number of symbols with a codeword (R30). -/
def codeCount (s : State) : Nat := (codeAlphabet s.codeLen).length

/-- p is a node of the decode tree that is no leaf: a proper prefix of a codeword (43_code_table.md R205). -/
abbrev InnerNode (s : State) (p : List Bool) : Prop := ∃ a : Sym, InTable s a ∧ p <+: codeword s a ∧ p ≠ codeword s a

/-- Payload bits i, i + 1, ... are written and are the bits of a sequence (20_memory.md R66, R67). -/
abbrev HoldsBits (q : Payload) (i : Nat) (bits : List Bool) : Prop := ∀ j < bits.length, q.bit? (i + j) = bits[j]?

/-- The bits of a symbol sequence: its codewords in stream order with no separators (44_encoder.md R224). -/
def encodedBits (s : State) (text : List Sym) : List Bool := text.flatMap (codeword s)

/-- The cost of giving each symbol of an alphabet a bit string: the sum of count times length (42_tree_builder.md R174). -/
def codeCost (f : Vector Word 256) (alphabet : List Sym) (code : Sym → List Bool) : Nat :=
  (alphabet.map fun a => (tableGet f a).toNat * (code a).length).sum

/-- Every node's weight is the exact sum beneath it (42_tree_builder.md R170). -/
def WeightsExact (f : Vector Word 256) : Tree → Prop
  | .leaf a w => w.toNat = (tableGet f a).toNat
  | .internal w l r => w.toNat = (treeWeight l).toNat + (treeWeight r).toNat ∧ WeightsExact f l ∧ WeightsExact f r

/-! ## The invariant -/

/-- R38, with DEGEN's meaning (R31), the legal codes (R281) and the canonical form of PBUF. -/
structure Inv (s : State) : Prop where
  /-- R38 item 1. -/
  errorClosesSessions : s.err ≠ 0#8 → s.encActive = false ∧ s.decActive = false
  /-- R38 item 2. -/
  oneSession : ¬ (s.encActive = true ∧ s.decActive = true)
  /-- R38 item 3. -/
  sessionHasTable : s.encActive = true ∨ s.decActive = true → s.tableValid = true
  /-- R38 item 4. -/
  invalidTable : s.tableValid = false → s.alphaSize = 0#9 ∧ s.degen = false
  /-- R38 item 5, the size. -/
  validSize : s.tableValid = true → s.alphaSize.toNat = codeCount s ∧ 1 ≤ codeCount s
  /-- R31. -/
  validDegen : s.tableValid = true → (s.degen = true ↔ codeCount s = 1)
  /-- R38 item 5, the codewords. -/
  validPrefixFree : s.tableValid = true → PrefixFree s
  /-- R38 item 6, the encoder. -/
  encBound : s.encPos.toNat ≤ s.params.pbufBits
  /-- R38 item 6, the decoder. -/
  decBound : s.decPos.toNat ≤ s.decLen.toNat ∧ s.decLen.toNat ≤ s.params.pbufBits
  /-- R281. -/
  legalError : s.err.toNat ≤ 11
  /-- The model's own: PBUF in canonical form, no byte past its end (log 6). -/
  payloadForm : s.pbuf.wf s.params.pbufBytes

end Sys2Proof
end

