-- ==== Sys2Proof/Certificates/Slice0/Obligations.lean ====
section
/-! DEFINITION. The statements for the provers. Each docstring names the rule of spec/ it formalises. Error codes are written as the numbers of
60_exceptions.md R281, so that the model's own table of codes is under test too. A frame is written as an equation: t = the state s with only the
named fields replaced says that every other field of State is unchanged. -/

open Sys2Proof Sys2Proof.Machine

/-! ## Encoding -/

/-- Every command's word decodes to it (30_encoding.md R91, R94, R98). -/
def Obligations.DecodeEncodeAgree : Prop := ∀ i : Instr, decode (encode i) = .ok i

/-- A legal word is the encoding of what it decodes to, so each command has one word (R91, R94, R98). -/
def Obligations.LegalWordIsItsEncoding : Prop := ∀ (w : Word) (i : Instr), decode w = .ok i → encode i = w

/-- R99: a word is legal exactly when it selects a row of the opcode table, by (w & mask) = match; it selects at most one row, and that row bears
the mnemonic of the command it decodes to. -/
def Obligations.OpcodeTableDecides : Prop :=
  ∀ w : Word,
    ((∃ i, decode w = .ok i) ↔ ∃ r ∈ opcodeTable, w &&& r.mask = r.value) ∧
    (∀ r ∈ opcodeTable, ∀ r' ∈ opcodeTable, w &&& r.mask = r.value → w &&& r'.mask = r'.value → r = r') ∧
    (∀ i, decode w = .ok i → ∀ r ∈ opcodeTable, w &&& r.mask = r.value → r.mnemonic = mnemonicOf i)

/-- Words written out from R94 and the programs of 95_test_vectors.md decode to the commands they stand for. -/
def Obligations.SampleWordsDecode : Prop :=
  decode 0x00000000#32 = .ok .nop ∧ decode 0x11000061#32 = .ok (.freqCount 0x61#8) ∧ decode 0x18000000#32 = .ok .build ∧
    decode 0x21000461#32 = .ok (.tblSetLen 0x61#8 4#8) ∧ decode 0x25000161#32 = .ok (.tblGetWord 0x61#8 1#3) ∧
    decode 0x31000066#32 = .ok (.encSym 0x66#8) ∧ decode 0x41000000#32 = .ok .decSym ∧
    decode 0x500001E0#32 = .ok (.pbufWr 1#16 0xE0#8) ∧ decode 0x51000200#32 = .ok (.pbufRd 2#16) ∧
    decode 0x04000000#32 = .error .unassignedOpcode ∧ decode 0x01000001#32 = .error .reservedBits

/-- R95: the illegal words are those of the 232 unassigned opcodes and those with a nonzero reserved bit; executing one raises ILLEGAL_CMD and has
no other effect. -/
def Obligations.IllegalWordsRaiseIllegalCmd : Prop :=
  ∀ w : Word,
    (IllegalByR95 w ↔ ¬ ∃ i, decode w = .ok i) ∧
    (IllegalByR95 w → ∀ s : State,
      (s.err = 0#8 → writeCmd w s = .next (raised 10#8 s)) ∧ (s.err ≠ 0#8 → writeCmd w s = .next s))

/-! ## Steps, accesses and reset -/

/-- A step whose next access is a CMD write of a legal word runs the command it decodes to (00_scope.md R16, 30_encoding.md R90). The queue of the
host's accesses is the model's own (log 3). -/
def Obligations.StepRunsDecodedCommand : Prop :=
  ∀ (s : State) (w : Word) (i : Instr) (rest : List HostEvent),
    s.pending = .write .word s.params.base w :: rest → decode w = .ok i → step s = exec i { s with pending := rest }

/-- What a 32-bit aligned read or write of each offset of the window does (20_memory.md R61, R62). That an access leaves the queue and that a read's
value goes to the head of the list reads are the model's choice (logs 3, 5). -/
def Obligations.RegisterWindowAccesses : Prop :=
  ∀ (s : State) (rest : List HostEvent) (off : Nat), off < 256 → off % 4 = 0 →
    (s.pending = .read .word (s.params.base + off) :: rest →
      step s = .next { s with
        pending := rest
        reads := (if off = 0x04 then s.arg else if off = 0x08 then s.result else if off = 0x0C then status s else 0#32) :: s.reads }) ∧
    ∀ v : Word, s.pending = .write .word (s.params.base + off) v :: rest →
      (off = 0x00 → step s = writeCmd v { s with pending := rest }) ∧
      (off = 0x04 → step s = .next { s with pending := rest, arg := v }) ∧
      (off ≠ 0x00 → off ≠ 0x04 → step s = .next { s with pending := rest })

/-- R63: an access of the window is refused exactly when it is narrow or misaligned. -/
def Obligations.UndefinedAccessesRefused : Prop :=
  ∀ (s : State) (rest : List HostEvent) (off : Nat) (width : AccessWidth), off < 256 →
    (∀ v : Word, s.pending = .write width (s.params.base + off) v :: rest →
      ((∃ r, step s = .refused r) ↔ (width ≠ .word ∨ off % 4 ≠ 0))) ∧
    (s.pending = .read width (s.params.base + off) :: rest →
      ((∃ r, step s = .refused r) ↔ (width ≠ .word ∨ off % 4 ≠ 0)))

/-- The layout of STATUS (10_state.md R25) and R34's DEC_DONE. -/
def Obligations.StatusViewAndDecDone : Prop :=
  ∀ s : State,
    (status s).extractLsb' 0 8 = s.err ∧ (status s).getLsbD 8 = s.tableValid ∧ (status s).getLsbD 9 = s.degen ∧
      (status s).getLsbD 10 = s.encActive ∧ (status s).getLsbD 11 = s.decActive ∧
      ((status s).getLsbD 12 = true ↔ s.decActive = true ∧ s.decPos = s.decLen) ∧
      (status s).extractLsb' 13 3 = 0#3 ∧ (status s).extractLsb' 16 9 = s.alphaSize ∧ (status s).extractLsb' 25 7 = 0#7

/-- R39: every element after power-on reset (State.reset) and after the RESET command. -/
def Obligations.ResetLeavesStatedValues : Prop :=
  (∀ i, State.reset.pbuf.bit? i = none) ∧
  ∀ s : State, ∃ t, exec .reset s = .next t ∧ t.pbuf = s.pbuf ∧
    ∀ u ∈ [State.reset, t],
      u.arg = 0#32 ∧ u.result = 0#32 ∧ u.err = 0#8 ∧ u.tableValid = false ∧ u.alphaSize = 0#9 ∧ u.degen = false ∧
        u.encActive = false ∧ u.encPos = 0#32 ∧ u.decActive = false ∧ u.decPos = 0#32 ∧ u.decLen = 0#32 ∧
        (∀ a : Sym, tableGet u.freq a = 0#32 ∧ tableGet u.codeLen a = 0#8 ∧ ∀ j : BitVec 3, wordGet (tableGet u.codeBits a) j = 0#32) ∧
        status u = 0#32

/-- The platform's reset gives the power-on column of R39 (70_reset_and_hazards.md R310); what the host has read and will do stays, which is the
model's choice (log 8), as are the reset parameters (logs 1, 2). -/
def Obligations.PowerOnResetEvent : Prop :=
  ∀ (s : State) (rest : List HostEvent), s.pending = .powerOnReset :: rest →
    step s = .next { State.reset with params := s.params, pending := rest, reads := s.reads }

/-! ## Errors, the gate and the sessions -/

/-- `raise` (60_exceptions.md R284) with the codes of R281. -/
def Obligations.RaiseLatchesFirstError : Prop :=
  ∀ (s : State) (e : ErrCode) (code : BitVec 8),
    (e, code) ∈ [(ErrCode.emptyAlphabet, 1#8), (ErrCode.unknownSymbol, 2#8), (ErrCode.truncatedStream, 3#8), (ErrCode.corruptStream, 4#8),
      (ErrCode.badTable, 5#8), (ErrCode.noTable, 6#8), (ErrCode.overflow, 7#8), (ErrCode.range, 8#8), (ErrCode.bufFull, 9#8),
      (ErrCode.illegalCmd, 10#8), (ErrCode.sequence, 11#8)] →
    (s.err = 0#8 → raise e s = { s with err := code, encActive := false, decActive := false }) ∧ (s.err ≠ 0#8 → raise e s = s)

/-- R96: gated commands are ignored while ERR ≠ 0, and the ungated ones, queries among them, execute whatever ERR holds and change nothing but
RESULT, but for a PBUF_RD that raises RANGE. -/
def Obligations.GateClasses : Prop :=
  (∀ (i : Instr) (s : State), i.gateClass = .gated → s.err ≠ 0#8 → exec i s = .next s) ∧
  (∀ i : Instr, i.gateClass = .ungated ↔
    i = .nop ∨ i = .reset ∨ i = .clrErr ∨ (∃ a, i = .freqGet a) ∨ (∃ a, i = .tblGetLen a) ∨ (∃ a w, i = .tblGetWord a w) ∨
      i = .encPos ∨ i = .decPos ∨ ∃ k, i = .pbufRd k) ∧
  (∀ s : State,
    exec .nop s = .next s ∧ exec .clrErr s = .next { s with err := 0#8 } ∧
    exec .reset s = .next { State.reset with params := s.params, pbuf := s.pbuf, pending := s.pending, reads := s.reads } ∧
    ∀ i : Instr, ((∃ a, i = .freqGet a) ∨ (∃ a, i = .tblGetLen a) ∨ (∃ a w, i = .tblGetWord a w) ∨ i = .encPos ∨ i = .decPos) →
      ∃ v : Word, ∀ e : BitVec 8, exec i { s with err := e } = .next { s with err := e, result := v }) ∧
  ∀ (s t : State) (k : BitVec 16), exec (.pbufRd k) s = .next t →
    t = { s with result := t.result } ∨ (s.err = 0#8 ∧ s.params.pbufBytes ≤ k.toNat ∧ t = raised 8#8 s)

/-- R97's table: with ERR = 0, a command whose need is not met raises SEQUENCE and does nothing else, and one whose need is met never raises
SEQUENCE. -/
def Obligations.SessionNeedsCheckedFirst : Prop :=
  ∀ (i : Instr) (s : State), s.err = 0#8 →
    (¬ sessionMet s (sessionNeed i) → exec i s = .next (raised 11#8 s)) ∧
    (sessionMet s (sessionNeed i) → ∀ t, exec i s = .next t → t.err ≠ 11#8)

/-- While a session is open no command but RESET changes the code table, and none but the encoder's own changes the payload (R97; R38, item 3). -/
def Obligations.SessionFreezesTable : Prop :=
  ∀ (i : Instr) (s t : State), (s.encActive = true ∨ s.decActive = true) → exec i s = .next t →
    (i ≠ .reset → t.codeLen = s.codeLen ∧ t.codeBits = s.codeBits ∧ t.tableValid = s.tableValid ∧ t.alphaSize = s.alphaSize ∧
      t.degen = s.degen) ∧
    ((∀ a, i ≠ .encSym a) → i ≠ .encFinish → t.pbuf = s.pbuf)

/-! ## Control commands -/

/-- R120, with the NOP word that has a nonzero reserved bit. -/
def Obligations.NopCommand : Prop :=
  WordOf .nop 0x00000000#32 ∧
  (∀ w : Word, (w >>> 24).toNat = 0 → w ≠ 0#32 → ∀ s : State, s.err = 0#8 → writeCmd w s = .next (raised 10#8 s)) ∧
  ∀ s : State, exec .nop s = .next s

/-- R121. -/
def Obligations.ResetCommand : Prop :=
  WordOf .reset 0x01000000#32 ∧
  ∀ s : State, ∃ t, exec .reset s = .next t ∧
    t = { s with
      arg := 0#32, result := 0#32, err := 0#8, freq := t.freq, codeLen := t.codeLen, codeBits := t.codeBits, tableValid := false,
      alphaSize := 0#9, degen := false, encActive := false, encPos := 0#32, decActive := false, decPos := 0#32, decLen := 0#32 } ∧
    (∀ a : Sym, tableGet t.freq a = 0#32 ∧ tableGet t.codeLen a = 0#8 ∧ tableGet t.codeBits a = Vector.replicate 8 0#32) ∧
    status t = 0#32

/-- R122. -/
def Obligations.ClrErrCommand : Prop :=
  WordOf .clrErr 0x02000000#32 ∧ ∀ s : State, exec .clrErr s = .next { s with err := 0#8 }

/-- R123: STOP ends any session, keeps the positions, the payload and RESULT, and is ignored while ERR ≠ 0. -/
def Obligations.StopCommand : Prop :=
  WordOf .stop 0x03000000#32 ∧
  ∀ s : State,
    (s.err = 0#8 → ∃ t, exec .stop s = .next t ∧ t = { s with encActive := false, decActive := false } ∧ (status t).getLsbD 12 = false) ∧
    (s.err ≠ 0#8 → exec .stop s = .next s)

/-! ## Frequency table -/

/-- R141. -/
def Obligations.FreqClearCommand : Prop :=
  WordOf .freqClear 0x10000000#32 ∧
  ∀ s : State,
    (s.err ≠ 0#8 → exec .freqClear s = .next s) ∧
    (s.err = 0#8 → ∃ t, exec .freqClear s = .next t ∧ t = { s with freq := t.freq } ∧ (∀ a : Sym, tableGet t.freq a = 0#32) ∧
      (s.encActive = false → s.decActive = false → ∃ u, exec .build t = .next u ∧ u.err = 1#8))

/-- R142. -/
def Obligations.FreqCountCommand : Prop :=
  ∀ a : Sym, WordOf (.freqCount a) (0x11000000#32 ||| a.setWidth 32) ∧
  ∀ s : State,
    (s.err ≠ 0#8 → exec (.freqCount a) s = .next s) ∧
    (s.err = 0#8 → tableGet s.freq a = 0xFFFFFFFF#32 → exec (.freqCount a) s = .next (raised 7#8 s)) ∧
    (s.err = 0#8 → tableGet s.freq a ≠ 0xFFFFFFFF#32 → ∃ t, exec (.freqCount a) s = .next t ∧ t = { s with freq := t.freq } ∧
      (tableGet t.freq a).toNat = (tableGet s.freq a).toNat + 1 ∧ ∀ b : Sym, b ≠ a → tableGet t.freq b = tableGet s.freq b)

/-- R143. -/
def Obligations.FreqSetCommand : Prop :=
  ∀ a : Sym, WordOf (.freqSet a) (0x12000000#32 ||| a.setWidth 32) ∧
  ∀ s : State,
    (s.err ≠ 0#8 → exec (.freqSet a) s = .next s) ∧
    (s.err = 0#8 → ∃ t, exec (.freqSet a) s = .next t ∧ t = { s with freq := t.freq } ∧ tableGet t.freq a = s.arg ∧
      (∀ b : Sym, b ≠ a → tableGet t.freq b = tableGet s.freq b) ∧ (s.arg = 0#32 → a ∉ freqAlphabet t.freq))

/-- R144. -/
def Obligations.FreqGetCommand : Prop :=
  ∀ a : Sym, WordOf (.freqGet a) (0x13000000#32 ||| a.setWidth 32) ∧
  ∀ s : State, exec (.freqGet a) s = .next { s with result := tableGet s.freq a }

/-- The counting pass (41_frequency.md R145): FREQ_CLEAR and one FREQ_COUNT a symbol raise no error and leave every count the number of its symbol's
occurrences; so within R145's bound any order of the same stream leaves the same state (R146). -/
def Obligations.CountingPassCountsOccurrences : Prop :=
  ∀ (s : State) (text : List Sym), s.err = 0#8 → (∀ a, text.count a < 2 ^ 32) →
    ∃ t, runCommands (.freqClear :: text.map .freqCount) s = .next t ∧ t = { s with freq := t.freq } ∧
      (∀ a : Sym, (tableGet t.freq a).toNat = text.count a) ∧
      ∀ other : List Sym, other.Perm text → runCommands (.freqClear :: other.map .freqCount) s = .next t

/-! ## Tree builder -/

/-- BUILD's gate, its SEQUENCE and its EMPTY_ALPHABET, after which the table is empty and both sessions refuse to open with NO_TABLE
(42_tree_builder.md R160, R169). -/
def Obligations.BuildRefusals : Prop :=
  WordOf .build 0x18000000#32 ∧
  ∀ s : State,
    (s.err ≠ 0#8 → exec .build s = .next s) ∧
    (s.err = 0#8 → (s.encActive = true ∨ s.decActive = true) → exec .build s = .next (raised 11#8 s)) ∧
    (s.err = 0#8 → s.encActive = false → s.decActive = false → (∀ a : Sym, tableGet s.freq a = 0#32) →
      ∃ t, exec .build s = .next t ∧
        t = { s with err := 1#8, codeLen := t.codeLen, codeBits := t.codeBits, tableValid := false, alphaSize := 0#9, degen := false } ∧
        (∀ a : Sym, tableGet t.codeLen a = 0#8 ∧ tableGet t.codeBits a = Vector.replicate 8 0#32) ∧
        ∃ u, exec .clrErr t = .next u ∧ exec .encStart u = .next (raised 6#8 u) ∧ exec .decStart u = .next (raised 6#8 u))

/-- A BUILD that raises nothing completes with a prefix-free code of exactly the symbols counted, each length between 1 and n - 1, complete when
n ≥ 2, and the codeword 0 when n = 1 (R160, R168, R173). -/
def Obligations.BuildGivesCompletePrefixCode : Prop :=
  ∀ s : State, s.err = 0#8 → s.encActive = false → s.decActive = false → freqAlphabet s.freq ≠ [] →
    ∃ t, exec .build s = .next t ∧
      t = { s with
        codeLen := t.codeLen, codeBits := t.codeBits, tableValid := true, alphaSize := BitVec.ofNat 9 (freqAlphabet s.freq).length,
        degen := (freqAlphabet s.freq).length == 1, result := BitVec.ofNat 32 (freqAlphabet s.freq).length } ∧
      (∀ a : Sym, tableGet t.codeLen a ≠ 0#8 ↔ tableGet s.freq a ≠ 0#32) ∧
      PrefixFree t ∧
      (∀ a j, storedBit (tableGet t.codeBits a) j = true → j < (tableGet t.codeLen a).toNat) ∧
      ((freqAlphabet s.freq).length = 1 → ∀ a ∈ freqAlphabet s.freq, codeword t a = [false]) ∧
      (2 ≤ (freqAlphabet s.freq).length →
        (∀ a ∈ freqAlphabet s.freq, 1 ≤ (tableGet t.codeLen a).toNat ∧ (tableGet t.codeLen a).toNat ≤ (freqAlphabet s.freq).length - 1) ∧
        ((freqAlphabet s.freq).map fun a => 2 ^ (255 - (tableGet t.codeLen a).toNat)).sum = 2 ^ 255)

/-- R167: after a BUILD of two symbols or more each symbol's codeword is the sequence of edge labels from the root of the tree to its leaf, and the
leaves are the symbols counted, each once. -/
def Obligations.BuildCodewordsAreTreePaths : Prop :=
  ∀ (s : State) (a b : Sym) (rest : List Sym), s.err = 0#8 → s.encActive = false → s.decActive = false →
    freqAlphabet s.freq = a :: b :: rest →
    ((treePaths (huffmanTree s.freq a (b :: rest))).map Prod.fst).Perm (a :: b :: rest) ∧
    ∃ t, exec .build s = .next t ∧ ∀ x ∈ treePaths (huffmanTree s.freq a (b :: rest)), codeword t x.1 = x.2 ∧
      (tableGet t.codeLen x.1).toNat = x.2.length ∧ ∀ j, x.2.length ≤ j → storedBit (tableGet t.codeBits x.1) j = false

/-- R164: keys compare lexicographically, and popmin takes the entry of least key, which is unique when sequence numbers are distinct; so it takes a
node of least weight (R172). -/
def Obligations.PopminTakesLeastKey : Prop :=
  (∀ x y : Entry, keyLt x y = true ↔
    treeWeight x.node < treeWeight y.node ∨ (treeWeight x.node = treeWeight y.node ∧ x.seq < y.seq)) ∧
  ∀ (e : Entry) (rest : List Entry) (m : Entry) (others : List Entry), popMin e rest = (m, others) →
    (m :: others).Perm (e :: rest) ∧
    (∀ x ∈ others, keyLt x m = false ∧ treeWeight m.node ≤ treeWeight x.node) ∧
    (((e :: rest).map Entry.seq).Nodup → ∀ x ∈ others, keyLt m x = true)

/-- R170: every weight of the tree is the exact sum of the counts beneath it, so no addition overflows 40 bits. -/
def Obligations.BuildWeightsNeverOverflow : Prop :=
  ∀ (f : Vector Word 256) (a : Sym) (rest : List Sym), freqAlphabet f = a :: rest →
    WeightsExact f (huffmanTree f a rest) ∧
    (treeWeight (huffmanTree f a rest)).toNat = ((a :: rest).map fun b => (tableGet f b).toNat).sum

/-- R171: what a BUILD that raises nothing leaves is a function of FREQ alone. -/
def Obligations.BuildDependsOnFreqOnly : Prop :=
  ∀ s s' t t' : State, s.freq = s'.freq → exec .build s = .next t → exec .build s' = .next t' → t.err = 0#8 → t'.err = 0#8 →
    t.codeLen = t'.codeLen ∧ t.codeBits = t'.codeBits ∧ t.tableValid = t'.tableValid ∧ t.alphaSize = t'.alphaSize ∧
      t.degen = t'.degen ∧ t.result = t'.result

/-- The decode tree of a table BUILD made of two symbols or more has both edges at every inner node, so no bit is without an edge (43_code_table.md
R206, 45_decoder.md R245). -/
def Obligations.BuiltTreesHaveBothEdges : Prop :=
  ∀ s t : State, s.err = 0#8 → s.encActive = false → s.decActive = false → 2 ≤ (freqAlphabet s.freq).length → exec .build s = .next t →
    ∀ p : List Bool, InnerNode t p → ∀ b : Bool, ∃ c : Sym, InTable t c ∧ (p ++ [b]) <+: codeword t c

/-- R174: for two symbols or more the code BUILD makes costs no more than any other prefix-free code of the same symbols; for one symbol it costs
the count. -/
def Obligations.BuildIsOptimal : Prop :=
  ∀ s t : State, s.err = 0#8 → s.encActive = false → s.decActive = false → exec .build s = .next t →
    (∀ code : Sym → List Bool, 2 ≤ (freqAlphabet s.freq).length →
      (∀ a ∈ freqAlphabet s.freq, ∀ b ∈ freqAlphabet s.freq, a ≠ b → ¬ code a <+: code b) →
      codeCost s.freq (freqAlphabet s.freq) (codeword t) ≤ codeCost s.freq (freqAlphabet s.freq) code) ∧
    ∀ a : Sym, freqAlphabet s.freq = [a] → codeCost s.freq [a] (codeword t) = (tableGet s.freq a).toNat

/-! ## Code table -/

/-- R191. -/
def Obligations.TblClearCommand : Prop :=
  WordOf .tblClear 0x20000000#32 ∧
  ∀ s : State,
    (s.err ≠ 0#8 → exec .tblClear s = .next s) ∧
    (s.err = 0#8 → (s.encActive = true ∨ s.decActive = true) → exec .tblClear s = .next (raised 11#8 s)) ∧
    (s.err = 0#8 → s.encActive = false → s.decActive = false → ∃ t, exec .tblClear s = .next t ∧
      t = { s with codeLen := t.codeLen, codeBits := t.codeBits, tableValid := false, alphaSize := 0#9, degen := false } ∧
      (∀ a : Sym, tableGet t.codeLen a = 0#8 ∧ tableGet t.codeBits a = Vector.replicate 8 0#32) ∧
      exec .tblCommit t = .next (raised 1#8 t))

/-- R192: the stored bits stay, so the codeword becomes the first len of them. -/
def Obligations.TblSetLenCommand : Prop :=
  ∀ (a : Sym) (len : BitVec 8), WordOf (.tblSetLen a len) (0x21000000#32 ||| len.setWidth 32 <<< 8 ||| a.setWidth 32) ∧
  ∀ s : State,
    (s.err ≠ 0#8 → exec (.tblSetLen a len) s = .next s) ∧
    (s.err = 0#8 → (s.encActive = true ∨ s.decActive = true) → exec (.tblSetLen a len) s = .next (raised 11#8 s)) ∧
    (s.err = 0#8 → s.encActive = false → s.decActive = false → ∃ t, exec (.tblSetLen a len) s = .next t ∧
      t = { s with codeLen := t.codeLen, tableValid := false, alphaSize := 0#9, degen := false } ∧
      tableGet t.codeLen a = len ∧ (∀ b : Sym, b ≠ a → tableGet t.codeLen b = tableGet s.codeLen b) ∧
      codeword t a = (List.range len.toNat).map (storedBit (tableGet s.codeBits a)))

/-- R193. -/
def Obligations.TblSetWordCommand : Prop :=
  ∀ (a : Sym) (w : BitVec 3), WordOf (.tblSetWord a w) (0x22000000#32 ||| w.setWidth 32 <<< 8 ||| a.setWidth 32) ∧
  ∀ s : State,
    (s.err ≠ 0#8 → exec (.tblSetWord a w) s = .next s) ∧
    (s.err = 0#8 → (s.encActive = true ∨ s.decActive = true) → exec (.tblSetWord a w) s = .next (raised 11#8 s)) ∧
    (s.err = 0#8 → s.encActive = false → s.decActive = false → ∃ t, exec (.tblSetWord a w) s = .next t ∧
      t = { s with codeBits := t.codeBits, tableValid := false, alphaSize := 0#9, degen := false } ∧
      wordGet (tableGet t.codeBits a) w = s.arg ∧
      (∀ j < 32, storedBit (tableGet t.codeBits a) (32 * w.toNat + j) = s.arg.getLsbD (31 - j)) ∧
      ∀ (b : Sym) (u : BitVec 3), b ≠ a ∨ u ≠ w → wordGet (tableGet t.codeBits b) u = wordGet (tableGet s.codeBits b) u)

/-- R194: the empty table, a clash of codewords, and the table that becomes valid, complete or not. -/
def Obligations.TblCommitCommand : Prop :=
  WordOf .tblCommit 0x23000000#32 ∧
  ∀ s : State,
    (s.err ≠ 0#8 → exec .tblCommit s = .next s) ∧
    (s.err = 0#8 → (s.encActive = true ∨ s.decActive = true) → exec .tblCommit s = .next (raised 11#8 s)) ∧
    (s.err = 0#8 → s.encActive = false → s.decActive = false →
      ((∀ a, ¬ InTable s a) →
        exec .tblCommit s = .next (raised 1#8 { s with tableValid := false, alphaSize := 0#9, degen := false })) ∧
      (¬ PrefixFree s →
        exec .tblCommit s = .next (raised 5#8 { s with tableValid := false, alphaSize := 0#9, degen := false })) ∧
      ((∃ a, InTable s a) → PrefixFree s → ∃ t, exec .tblCommit s = .next t ∧
        t = { s with tableValid := true, alphaSize := t.alphaSize, degen := codeCount s == 1, result := t.result } ∧
        t.alphaSize.toNat = codeCount s ∧ t.result.toNat = codeCount s))

/-- R195. -/
def Obligations.TblGetLenCommand : Prop :=
  ∀ a : Sym, WordOf (.tblGetLen a) (0x24000000#32 ||| a.setWidth 32) ∧
  ∀ s : State, exec (.tblGetLen a) s = .next { s with result := (tableGet s.codeLen a).setWidth 32 }

/-- R196, with what a host reads back after TBL_SET_WORD. -/
def Obligations.TblGetWordCommand : Prop :=
  ∀ (a : Sym) (w : BitVec 3), WordOf (.tblGetWord a w) (0x25000000#32 ||| w.setWidth 32 <<< 8 ||| a.setWidth 32) ∧
  ∀ s : State,
    exec (.tblGetWord a w) s = .next { s with result := wordGet (tableGet s.codeBits a) w } ∧
    (s.err = 0#8 → s.encActive = false → s.decActive = false → ∃ t, exec (.tblSetWord a w) s = .next t ∧
      exec (.tblGetWord a w) t = .next { t with result := s.arg })

/-- R101: LOADCODE's accesses, run one by one, leave the symbol's codeword the bit string and every other entry as it was. -/
def Obligations.LoadCodePseudoLoadsCodeword : Prop :=
  ∀ (s : State) (o : Operand) (bits : List Bool) (rest : List HostEvent), s.err = 0#8 → s.encActive = false → s.decActive = false →
    o.value < 256 → bits.length < 256 →
    ∃ es t, assembleLine s.params (.loadCode o bits) = .ok es ∧
      Host.Core.run core es.length { s with pending := es ++ rest } = .next t ∧
      t = { s with
        pending := rest, arg := t.arg, codeLen := t.codeLen, codeBits := t.codeBits, tableValid := false, alphaSize := 0#9, degen := false } ∧
      codeword t (BitVec.ofNat 8 o.value) = bits ∧
      ∀ b : Sym, b ≠ BitVec.ofNat 8 o.value →
        tableGet t.codeLen b = tableGet s.codeLen b ∧ tableGet t.codeBits b = tableGet s.codeBits b

/-! ## Encoder -/

/-- R220. -/
def Obligations.EncStartCommand : Prop :=
  WordOf .encStart 0x30000000#32 ∧
  ∀ s : State,
    (s.err ≠ 0#8 → exec .encStart s = .next s) ∧
    (s.err = 0#8 → (s.encActive = true ∨ s.decActive = true) → exec .encStart s = .next (raised 11#8 s)) ∧
    (s.err = 0#8 → s.encActive = false → s.decActive = false → s.tableValid = false → exec .encStart s = .next (raised 6#8 s)) ∧
    (s.err = 0#8 → s.encActive = false → s.decActive = false → s.tableValid = true →
      exec .encStart s = .next { s with encActive := true, encPos := 0#32 })

/-- R221: its errors in order, each with no payload bit written, and the codeword at ENC_POS with every other payload bit and byte as before. -/
def Obligations.EncSymCommand : Prop :=
  ∀ a : Sym, WordOf (.encSym a) (0x31000000#32 ||| a.setWidth 32) ∧
  ∀ s : State,
    (s.err ≠ 0#8 → exec (.encSym a) s = .next s) ∧
    (s.err = 0#8 → s.encActive = false → exec (.encSym a) s = .next (raised 11#8 s)) ∧
    (s.err = 0#8 → s.encActive = true → tableGet s.codeLen a = 0#8 → exec (.encSym a) s = .next (raised 2#8 s)) ∧
    (s.err = 0#8 → s.encActive = true → tableGet s.codeLen a ≠ 0#8 →
      s.params.pbufBits < s.encPos.toNat + (tableGet s.codeLen a).toNat → exec (.encSym a) s = .next (raised 9#8 s)) ∧
    (s.err = 0#8 → s.encActive = true → tableGet s.codeLen a ≠ 0#8 →
      s.encPos.toNat + (tableGet s.codeLen a).toNat ≤ s.params.pbufBits →
      ∃ t, exec (.encSym a) s = .next t ∧ t = { s with pbuf := t.pbuf, encPos := t.encPos } ∧
        t.encPos.toNat = s.encPos.toNat + (tableGet s.codeLen a).toNat ∧
        HoldsBits t.pbuf s.encPos.toNat (codeword s a) ∧
        (∀ i, i < s.encPos.toNat ∨ t.encPos.toNat ≤ i → t.pbuf.bit? i = s.pbuf.bit? i) ∧
        ∀ k, 8 * k + 8 ≤ s.encPos.toNat ∨ t.encPos.toNat ≤ 8 * k → t.pbuf.byte? k = s.pbuf.byte? k)

/-- R222 and the padding law R225. -/
def Obligations.EncFinishCommand : Prop :=
  WordOf .encFinish 0x32000000#32 ∧
  ∀ s : State,
    (s.err ≠ 0#8 → exec .encFinish s = .next s) ∧
    (s.err = 0#8 → s.encActive = false → exec .encFinish s = .next (raised 11#8 s)) ∧
    (s.err = 0#8 → s.encActive = true → ∃ t, exec .encFinish s = .next t ∧
      t = { s with result := s.encPos, encActive := false, pbuf := t.pbuf } ∧
      (∀ i, s.encPos.toNat ≤ i → i < 8 * ((s.encPos.toNat + 7) / 8) → t.pbuf.bit? i = some false) ∧
      (∀ i, i < s.encPos.toNat ∨ 8 * ((s.encPos.toNat + 7) / 8) ≤ i → t.pbuf.bit? i = s.pbuf.bit? i) ∧
      ∀ k, 8 * k + 8 ≤ s.encPos.toNat ∨ s.encPos.toNat ≤ 8 * k → t.pbuf.byte? k = s.pbuf.byte? k)

/-- R223, with what it reads after ENC_FINISH and after an ENC_SYM that raised an error. -/
def Obligations.EncPosCommand : Prop :=
  WordOf .encPos 0x33000000#32 ∧
  ∀ s : State,
    exec .encPos s = .next { s with result := s.encPos } ∧
    (s.err = 0#8 → s.encActive = true → ∃ t, exec .encFinish s = .next t ∧ exec .encPos t = .next t ∧ t.result = s.encPos) ∧
    ∀ (a : Sym) (t : State), exec (.encSym a) s = .next t → t.err ≠ 0#8 → exec .encPos t = .next { t with result := s.encPos }

/-- R224 and R225: a session over a symbol sequence whose symbols are in the table and whose bits fit writes their codewords in stream order with no
separators, pads with zero bits to a byte, and returns the bit length. -/
def Obligations.EncodeWritesConcatenation : Prop :=
  ∀ (s : State) (text : List Sym), Inv s → s.err = 0#8 → s.encActive = false → s.decActive = false → s.tableValid = true →
    (∀ a ∈ text, InTable s a) → (encodedBits s text).length ≤ s.params.pbufBits →
    ∃ t, runCommands (.encStart :: (text.map .encSym ++ [.encFinish])) s = .next t ∧
      t = { s with result := t.result, encPos := t.encPos, pbuf := t.pbuf } ∧
      t.result.toNat = (text.map fun a => (tableGet s.codeLen a).toNat).sum ∧ t.encPos = t.result ∧
      t.result.toNat = (encodedBits s text).length ∧
      HoldsBits t.pbuf 0 (encodedBits s text) ∧
      (∀ i, (encodedBits s text).length ≤ i → i < 8 * (((encodedBits s text).length + 7) / 8) → t.pbuf.bit? i = some false) ∧
      ∀ i, 8 * (((encodedBits s text).length + 7) / 8) ≤ i → t.pbuf.bit? i = s.pbuf.bit? i

/-! ## Decoder -/

/-- R240. -/
def Obligations.DecStartCommand : Prop :=
  WordOf .decStart 0x40000000#32 ∧
  ∀ s : State,
    (s.err ≠ 0#8 → exec .decStart s = .next s) ∧
    (s.err = 0#8 → (s.encActive = true ∨ s.decActive = true) → exec .decStart s = .next (raised 11#8 s)) ∧
    (s.err = 0#8 → s.encActive = false → s.decActive = false → s.tableValid = false → exec .decStart s = .next (raised 6#8 s)) ∧
    (s.err = 0#8 → s.encActive = false → s.decActive = false → s.tableValid = true → s.params.pbufBits < s.arg.toNat →
      exec .decStart s = .next (raised 8#8 s)) ∧
    (s.err = 0#8 → s.encActive = false → s.decActive = false → s.tableValid = true → s.arg.toNat ≤ s.params.pbufBits →
      ∃ t, exec .decStart s = .next t ∧ t = { s with decActive := true, decPos := 0#32, decLen := s.arg } ∧
        ((status t).getLsbD 12 = true ↔ s.arg = 0#32))

/-- R248: at the end of the meaningful bits DEC_SYM writes 0x100, changes nothing else and may be repeated. -/
def Obligations.DecSymEndMarker : Prop :=
  ∀ s : State, s.err = 0#8 → s.decActive = true → s.decPos = s.decLen →
    ∃ t, exec .decSym s = .next t ∧ t = { s with result := 0x00000100#32 } ∧ (status t).getLsbD 12 = true ∧ exec .decSym t = .next t ∧
      ∀ a : Sym, t.result ≠ a.setWidth 32

/-- DEC_SYM's word, its gate and its SEQUENCE; and that it recovers the symbol whose codeword the next payload bits are, moving DEC_POS by exactly
its length and changing nothing else but RESULT (45_decoder.md R241). -/
def Obligations.DecSymRecoversSymbol : Prop :=
  WordOf .decSym 0x41000000#32 ∧
  ∀ s : State,
    (s.err ≠ 0#8 → exec .decSym s = .next s) ∧
    (s.err = 0#8 → s.decActive = false → exec .decSym s = .next (raised 11#8 s)) ∧
    ∀ a : Sym, Inv s → s.err = 0#8 → s.decActive = true → InTable s a →
      s.decPos.toNat + (tableGet s.codeLen a).toNat ≤ s.decLen.toNat → HoldsBits s.pbuf s.decPos.toNat (codeword s a) →
      ∃ t, exec .decSym s = .next t ∧ t = { s with result := a.setWidth 32, decPos := t.decPos } ∧
        t.decPos.toNat = s.decPos.toNat + (tableGet s.codeLen a).toNat

/-- R241: the meaningful bits end at a node that is no leaf, or a bit has no edge; RESULT is unchanged and the bits read stay consumed. -/
def Obligations.DecSymStreamErrors : Prop :=
  ∀ (s : State) (p : List Bool), Inv s → s.err = 0#8 → s.decActive = true → HoldsBits s.pbuf s.decPos.toNat p → InnerNode s p →
    (p ≠ [] → s.decPos.toNat + p.length = s.decLen.toNat →
      exec .decSym s = .next { raised 3#8 s with decPos := s.decLen }) ∧
    (∀ b : Bool, s.decPos.toNat + p.length < s.decLen.toNat → s.pbuf.bit? (s.decPos.toNat + p.length) = some b →
      (¬ ∃ c : Sym, InTable s c ∧ (p ++ [b]) <+: codeword s c) →
      ∃ t, exec .decSym s = .next t ∧ t = { raised 4#8 s with decPos := t.decPos } ∧
        t.decPos.toNat = s.decPos.toNat + p.length + 1) ∧
    (s.decPos.toNat + p.length < s.decLen.toNat → s.pbuf.bit? (s.decPos.toNat + p.length) = none →
      exec .decSym s = .fault (.unspecifiedBit (s.decPos.toNat + p.length)))

/-- R243: what DEC_SYM does depends on no payload bit at or past DEC_LEN. -/
def Obligations.DecoderIgnoresBitsPastLength : Prop :=
  ∀ (s : State) (q : Payload), s.decPos.toNat ≤ s.decLen.toNat → (∀ i < s.decLen.toNat, q.bit? i = s.pbuf.bit? i) →
    (∀ t, exec .decSym s = .next t → exec .decSym { s with pbuf := q } = .next { t with pbuf := q }) ∧
    ∀ f, exec .decSym s = .fault f → exec .decSym { s with pbuf := q } = .fault f

/-- R242. -/
def Obligations.DecPosCommand : Prop :=
  WordOf .decPos 0x42000000#32 ∧ ∀ s : State, exec .decPos s = .next { s with result := s.decPos }

/-- R244, the round-trip law: what an encode session of a text wrote, a decode session of its bit length gives back, symbol by symbol, and then the
end marker, with ERR = 0 throughout. -/
def Obligations.RoundTripRecoversText : Prop :=
  ∀ (s : State) (text : List Sym), Inv s → s.err = 0#8 → s.encActive = false → s.decActive = false → s.tableValid = true →
    (∀ a ∈ text, InTable s a) → (encodedBits s text).length ≤ s.params.pbufBits →
    ∃ t, runCommands (.encStart :: (text.map .encSym ++ [.encFinish])) s = .next t ∧ t.err = 0#8 ∧
      (∀ n (h : n < text.length), ∃ u, runCommands (.decStart :: List.replicate (n + 1) .decSym) { t with arg := t.result } = .next u ∧
        u.result = (text[n]'h).setWidth 32 ∧ u.err = 0#8) ∧
      ∃ u, runCommands (.decStart :: List.replicate (text.length + 1) .decSym) { t with arg := t.result } = .next u ∧
        u.result = 0x00000100#32 ∧ u.err = 0#8 ∧ u.decPos = u.decLen

/-! ## Payload buffer -/

/-- R270: byte k written whole, payload bits 8k to 8k + 7 from its bit 7 down, every other byte and bit as before. -/
def Obligations.PbufWrCommand : Prop :=
  ∀ (k : BitVec 16) (v : Byte), WordOf (.pbufWr k v) (0x50000000#32 ||| k.setWidth 32 <<< 8 ||| v.setWidth 32) ∧
  ∀ s : State,
    (s.err ≠ 0#8 → exec (.pbufWr k v) s = .next s) ∧
    (s.err = 0#8 → (s.encActive = true ∨ s.decActive = true) → exec (.pbufWr k v) s = .next (raised 11#8 s)) ∧
    (s.err = 0#8 → s.encActive = false → s.decActive = false → s.params.pbufBytes ≤ k.toNat →
      exec (.pbufWr k v) s = .next (raised 8#8 s)) ∧
    (s.err = 0#8 → s.encActive = false → s.decActive = false → k.toNat < s.params.pbufBytes →
      ∃ t, exec (.pbufWr k v) s = .next t ∧ t = { s with pbuf := t.pbuf } ∧ t.pbuf.byte? k.toNat = some v ∧
        (∀ j < 8, t.pbuf.bit? (8 * k.toNat + j) = some (v.getLsbD (7 - j))) ∧
        ∀ m, m ≠ k.toNat → t.pbuf.byte? m = s.pbuf.byte? m ∧ ∀ j < 8, t.pbuf.bit? (8 * m + j) = s.pbuf.bit? (8 * m + j))

/-- R271, with the model fault of 20_memory.md R67. -/
def Obligations.PbufRdCommand : Prop :=
  ∀ k : BitVec 16, WordOf (.pbufRd k) (0x51000000#32 ||| k.setWidth 32 <<< 8) ∧
  ∀ s : State,
    (s.params.pbufBytes ≤ k.toNat → s.err = 0#8 → exec (.pbufRd k) s = .next (raised 8#8 s)) ∧
    (s.params.pbufBytes ≤ k.toNat → s.err ≠ 0#8 → exec (.pbufRd k) s = .next s) ∧
    (∀ v : Byte, k.toNat < s.params.pbufBytes → (∀ j < 8, s.pbuf.bit? (8 * k.toNat + j) = some (v.getLsbD (7 - j))) →
      exec (.pbufRd k) s = .next { s with result := v.setWidth 32 }) ∧
    (k.toNat < s.params.pbufBytes → (∃ j < 8, s.pbuf.bit? (8 * k.toNat + j) = none) →
      exec (.pbufRd k) s = .fault (.unspecifiedByte k.toNat))

/-! ## Whole-machine rules -/

/-- Which commands write each element: ARG (10_state.md R22, R121), RESULT (R23), FREQ (R26), the code table (R27, R28), TABLE_VALID (R29), PBUF
(20_memory.md R67); and the parameters and the host's own fields, which none does. -/
def Obligations.WritersOfEachElement : Prop :=
  ∀ (i : Instr) (s t : State), exec i s = .next t →
    (t.arg ≠ s.arg → i = .reset) ∧
    (t.result ≠ s.result → (∃ a, i = .freqGet a) ∨ i = .build ∨ i = .tblCommit ∨ (∃ a, i = .tblGetLen a) ∨ (∃ a w, i = .tblGetWord a w) ∨
      i = .encFinish ∨ i = .encPos ∨ i = .decSym ∨ i = .decPos ∨ (∃ k, i = .pbufRd k) ∨ i = .reset) ∧
    (s.err = 0#8 → t.err ≠ 0#8 → t.result = s.result) ∧
    (t.freq ≠ s.freq → i = .freqClear ∨ (∃ a, i = .freqCount a) ∨ (∃ a, i = .freqSet a) ∨ i = .reset) ∧
    (t.codeLen ≠ s.codeLen → i = .build ∨ i = .tblClear ∨ (∃ a n, i = .tblSetLen a n) ∨ i = .reset) ∧
    (t.codeBits ≠ s.codeBits → i = .build ∨ i = .tblClear ∨ (∃ a w, i = .tblSetWord a w) ∨ i = .reset) ∧
    (s.tableValid = false → t.tableValid = true → i = .build ∨ i = .tblCommit) ∧
    (t.pbuf ≠ s.pbuf → (∃ k v, i = .pbufWr k v) ∨ (∃ a, i = .encSym a) ∨ i = .encFinish) ∧
    t.params = s.params ∧ t.pending = s.pending ∧ t.reads = s.reads

/-- R35: a raise writes ERR only when it is 0, so ERR keeps the first error; only CLR_ERR and RESET clear it. -/
def Obligations.FirstErrorIsKept : Prop :=
  ∀ s t : State,
    (s.err = 0#8 → ∀ e, (raise e s).err ≠ 0#8) ∧
    (exec .clrErr s = .next t ∨ exec .reset s = .next t → t.err = 0#8) ∧
    (s.err ≠ 0#8 →
      (∀ e, raise e s = s) ∧
      (∀ i : Instr, i ≠ .clrErr → i ≠ .reset → exec i s = .next t → t.err = s.err) ∧
      ∀ w : Word, decode w ≠ .ok .clrErr → decode w ≠ .ok .reset → writeCmd w s = .next t → t.err = s.err)

/-- R282: the errors a command begun with ERR = 0 can leave. -/
def Obligations.ErrorsOfEachCommand : Prop :=
  ∀ (i : Instr) (s t : State), s.err = 0#8 → exec i s = .next t → t.err ∈ possibleErrors i

/-- 00_scope.md R16: a command gives a next state, or it is DEC_SYM or PBUF_RD and it reads an unspecified payload bit; none is refused. -/
def Obligations.OnlyUnspecifiedBitsStop : Prop :=
  ∀ (i : Instr) (s : State),
    (∃ t, exec i s = .next t) ∨
    (i = .decSym ∧ ∃ n, s.pbuf.bit? n = none ∧ exec i s = .fault (.unspecifiedBit n)) ∨
    ∃ k : BitVec 16, i = .pbufRd k ∧ s.pbuf.byte? k.toNat = none ∧ exec i s = .fault (.unspecifiedByte k.toNat)

/-- R38: every step keeps the invariant. -/
def Obligations.StepKeepsInvariant : Prop := ∀ s t : State, Inv s → step s = .next t → Inv t

/-- R38 at reset, for every value of the parameters. -/
def Obligations.ResetHasInvariant : Prop := ∀ p : Params, Inv { State.reset with params := p }
end

