-- ==== Sys2Proof/Laws/Memory.lean ====
section
/-! SUPPORT. The laws of byte stores and of the payload buffer: read after write, frames, and that every write keeps the canonical form. -/

namespace Sys2Proof.Machine

/-! ## Byte stores -/

@[simp] theorem Memory.read_nil (a : Nat) : Memory.read [] a = 0#8 := rfl

theorem Memory.read_cons (b : Nat) (x : Byte) (m : Memory) (a : Nat) :
    Memory.read ((b, x) :: m) a = if a = b then x else Memory.read m a := rfl

theorem Memory.read_without (m : Memory) (a c : Nat) :
    Memory.read (Memory.without m a) c = if c = a then 0#8 else Memory.read m c := by
  induction m with
  | nil => simp [Memory.without]
  | cons head m ih =>
    obtain ⟨b, x⟩ := head
    unfold Memory.without at ih ⊢
    by_cases hb : b = a
    · subst hb
      by_cases hc : c = b <;> simp_all [Memory.read_cons]
    · by_cases hc : c = b
      · subst hc; simp [hb, Memory.read_cons]
      · simp [hb, hc, Memory.read_cons, ih]

/-- What a read gives after a cell is placed at an address the store does not list. -/
theorem Memory.read_place {m : Memory} {a : Nat} (h : ∀ x ∈ m, x.1 ≠ a) (c : Nat) (v : Byte) :
    Memory.read (Memory.place m a v) c = if c = a then v else Memory.read m c := by
  induction m with
  | nil => simp [Memory.place, Memory.read_cons]
  | cons head m ih =>
    obtain ⟨b, x⟩ := head
    have hb : b ≠ a := h (b, x) (by simp)
    have ih := ih fun y hy => h y (by simp [hy])
    by_cases hlt : a < b
    · simp [Memory.place, Memory.read_cons, hlt]
    · by_cases hc : c = b
      · subst hc; simp [Memory.place, Memory.read_cons, hlt, hb]
      · simp [Memory.place, Memory.read_cons, hlt, hc, ih]

theorem Memory.without_ne (m : Memory) (a : Nat) : ∀ c ∈ Memory.without m a, c.1 ≠ a := by
  intro c hc
  simpa using (List.mem_filter.mp hc).2

/-- What a read gives after a write: the byte written at its address, the old byte at every other. -/
@[simp] theorem Memory.read_write (m : Memory) (a c : Nat) (v : Byte) :
    Memory.read (Memory.write m a v) c = if c = a then v else Memory.read m c := by
  unfold Memory.write
  have hne := Memory.without_ne m a
  split
  · rename_i hv; rw [Memory.read_without, hv]
  · rw [Memory.read_place hne, Memory.read_without]
    by_cases hc : c = a <;> simp [hc]

theorem Memory.mem_place {m : Memory} {a : Nat} {v : Byte} {c : Host.Cell} (h : c ∈ Memory.place m a v) :
    c = (a, v) ∨ c ∈ m := by
  induction m with
  | nil => simpa [Memory.place] using h
  | cons head m ih =>
    obtain ⟨b, x⟩ := head
    by_cases hlt : a < b
    · simpa [Memory.place, hlt] using h
    · simp only [Memory.place, hlt, if_false, List.mem_cons] at h ⊢
      rcases h with h | h
      · exact .inr (.inl h)
      · rcases ih h with h | h
        · exact .inl h
        · exact .inr (.inr h)

theorem Memory.pairwise_place {m : Memory} {a : Nat} {v : Byte} (hm : m.Pairwise (fun c d => c.1 < d.1))
    (hne : ∀ c ∈ m, c.1 ≠ a) : (Memory.place m a v).Pairwise (fun c d => c.1 < d.1) := by
  induction m with
  | nil => simp [Memory.place]
  | cons head m ih =>
    obtain ⟨b, x⟩ := head
    rw [List.pairwise_cons] at hm
    have hb : b ≠ a := hne (b, x) (by simp)
    by_cases hlt : a < b
    · simp only [Memory.place, hlt, if_true]
      refine List.pairwise_cons.mpr ⟨?_, List.pairwise_cons.mpr hm⟩
      intro d hd
      rcases List.mem_cons.mp hd with rfl | hd
      · exact hlt
      · exact Nat.lt_trans hlt (hm.1 d hd)
    · simp only [Memory.place, hlt, if_false]
      refine List.pairwise_cons.mpr ⟨?_, ih hm.2 (fun c hc => hne c (by simp [hc]))⟩
      intro d hd
      rcases Memory.mem_place hd with rfl | hd
      · simp only; omega
      · exact hm.1 d hd

/-- Every write keeps the canonical form. -/
theorem Memory.wf_write {m : Memory} (hm : m.wf) (a : Nat) (v : Byte) : (Memory.write m a v).wf := by
  have hp : (Memory.without m a).Pairwise (fun c d => c.1 < d.1) := hm.1.sublist List.filter_sublist
  have hz : ∀ c ∈ Memory.without m a, c.2 ≠ 0#8 := fun c hc => hm.2 c (List.mem_filter.mp hc).1
  unfold Memory.write
  split
  · exact ⟨hp, hz⟩
  · rename_i hv
    refine ⟨Memory.pairwise_place hp (Memory.without_ne m a), fun c hc => ?_⟩
    rcases Memory.mem_place hc with rfl | hc
    · exact hv
    · exact hz c hc

/-- Every cell after a write is the one written or an old one. -/
theorem Memory.mem_write {m : Memory} {a : Nat} {v : Byte} {c : Host.Cell} (h : c ∈ Memory.write m a v) :
    c = (a, v) ∨ c ∈ m := by
  unfold Memory.write at h
  split at h
  · exact .inr (List.mem_filter.mp h).1
  · rcases Memory.mem_place h with h | h
    · exact .inl h
    · exact .inr (List.mem_filter.mp h).1

/-- In canonical form, a listed cell is what its address reads as. -/
theorem Memory.read_of_mem {m : Memory} (hm : m.wf) {c : Host.Cell} (hc : c ∈ m) : Memory.read m c.1 = c.2 := by
  induction m with
  | nil => cases hc
  | cons head m ih =>
    obtain ⟨b, x⟩ := head
    have hp := List.pairwise_cons.mp hm.1
    rcases List.mem_cons.mp hc with rfl | hc
    · simp [Memory.read_cons]
    · have : c.1 ≠ b := fun e => absurd (hp.1 c hc) (by simp [e])
      rw [Memory.read_cons, if_neg this]
      exact ih ⟨hp.2, fun d hd => hm.2 d (by simp [hd])⟩ hc

/-! ## Bits of a byte -/

theorem bitPlace_lt (i : Nat) : bitPlace i < 8 := by unfold bitPlace; omega

/-- Payload bits of one byte stand at different places. -/
theorem bitPlace_inj {i j : Nat} (hk : i / 8 = j / 8) (hp : bitPlace i = bitPlace j) : i = j := by
  unfold bitPlace at hp; omega

/-- `setBitAt` replaces one bit and no other. -/
theorem getLsbD_setBitAt (v : Byte) (k j : Nat) (b : Bool) (hk : k < 8) :
    (setBitAt v k b).getLsbD j = if j = k then b else v.getLsbD j := by
  unfold setBitAt
  by_cases hj : j < 8
  · by_cases hjk : j = k
    · subst hjk; cases b <;> simp [hj]
    · have hsub : ¬ (k ≤ j ∧ j - k = 0) := by omega
      cases b <;> simp [hj, hjk] <;> grind
  · have hjk : j ≠ k := by omega
    simp [BitVec.getLsbD_of_ge _ _ (Nat.le_of_not_lt hj), hjk]

/-! ## The payload buffer -/

/-- A payload bit after PbufBitWrite: the bit written, every other as before. -/
@[simp] theorem Payload.bit_writeBit (p : Payload) (i j : Nat) (b : Bool) :
    (p.writeBit i b).bit? j = if j = i then some b else p.bit? j := by
  unfold Payload.bit? Payload.writeBit
  simp only [Memory.read_write]
  by_cases hk : j / 8 = i / 8
  · simp only [if_pos hk, getLsbD_setBitAt _ _ _ _ (bitPlace_lt i)]
    by_cases hji : j = i
    · subst hji; simp
    · have hp : bitPlace j ≠ bitPlace i := fun e => hji (bitPlace_inj hk e)
      simp [hji, hp, hk]
  · have hji : j ≠ i := fun e => hk (by rw [e])
    simp [hk, hji]

/-- A payload bit after PbufBitWrite of a sequence from i: the sequence's bits, and every other bit as before. -/
theorem Payload.bit_writeBits (p : Payload) (bits : List Bool) (i j : Nat) :
    (p.writeBits i bits).bit? j = if i ≤ j ∧ j < i + bits.length then bits[j - i]? else p.bit? j := by
  induction bits generalizing p i with
  | nil =>
    have : ¬ (i ≤ j ∧ j < i) := by omega
    simp [Payload.writeBits, this]
  | cons b bits ih =>
    simp only [Payload.writeBits, ih, Payload.bit_writeBit, List.length_cons]
    rcases Nat.lt_trichotomy j i with h | h | h
    · have h1 : ¬ (i + 1 ≤ j ∧ j < i + 1 + bits.length) := by omega
      have h2 : ¬ (i ≤ j ∧ j < i + (bits.length + 1)) := by omega
      have h3 : j ≠ i := by omega
      rw [if_neg h1, if_neg h2, if_neg h3]
    · subst h
      simp
    · obtain ⟨d, rfl⟩ : ∃ d, j = i + 1 + d := ⟨j - (i + 1), by omega⟩
      have h3 : i + 1 + d ≠ i := by omega
      have h4 : i + 1 + d - i = d + 1 := by omega
      have h5 : (i + 1 ≤ i + 1 + d ∧ i + 1 + d < i + 1 + bits.length) ↔
          (i ≤ i + 1 + d ∧ i + 1 + d < i + (bits.length + 1)) := by omega
      simp only [h5, h3, h4, if_false, Nat.add_sub_cancel_left, List.getElem?_cons_succ]

/-- A payload byte after PbufWrite: the byte written, every other as before. -/
@[simp] theorem Payload.byte_writeByte (p : Payload) (k j : Nat) (v : Byte) :
    (p.writeByte k v).byte? j = if j = k then some v else p.byte? j := by
  unfold Payload.byte? Payload.writeByte
  by_cases h : j = k <;> simp [h]

/-- A payload bit after PbufWrite: a bit of the byte written, or as before. -/
@[simp] theorem Payload.bit_writeByte (p : Payload) (k j : Nat) (v : Byte) :
    (p.writeByte k v).bit? j = if j / 8 = k then some (v.getLsbD (bitPlace j)) else p.bit? j := by
  unfold Payload.bit? Payload.writeByte
  by_cases h : j / 8 = k
  · have : (0xFF#8).getLsbD (bitPlace j) = true := by
      have hall : ∀ i < 8, (0xFF#8).getLsbD i = true := by decide
      exact hall _ (bitPlace_lt j)
    simp [h, this]
  · simp [h]

/-! ## Canonical form of the payload buffer -/

theorem and_not_eq_zero_iff (x y : Byte) : x &&& ~~~y = 0#8 ↔ ∀ j, x.getLsbD j = true → y.getLsbD j = true := by
  constructor
  · intro h j hx
    have := congrArg (fun z => BitVec.getLsbD z j) h
    have hj : j < 8 := BitVec.lt_of_getLsbD hx
    simpa [hx, hj] using this
  · intro h
    refine BitVec.eq_of_getLsbD_eq fun j hj => ?_
    by_cases hx : x.getLsbD j = true
    · simp [hx, h j hx, hj]
    · simp [hx]

/-- Writing bits a set of written bits covers keeps the canonical form: the shape both payload writes have. -/
theorem Payload.wf_write {p : Payload} {n k : Nat} {w v : Byte} (hp : p.wf n) (hk : k < n) (hv : v &&& ~~~w = 0#8) :
    Payload.wf { written := p.written.write k w, data := p.data.write k v } n := by
  obtain ⟨h1, h2, h3, h4⟩ := hp
  refine ⟨Memory.wf_write h1 _ _, Memory.wf_write h2 _ _, fun c hc => ?_, fun c hc => ?_⟩
  · rcases Memory.mem_write hc with rfl | hc
    · exact hk
    · exact h3 c hc
  · have hread := Memory.read_of_mem (Memory.wf_write h2 k v) hc
    simp only [Memory.read_write] at hread ⊢
    by_cases he : c.1 = k
    · simp only [if_pos he] at hread ⊢
      rw [← hread]; exact hv
    · simp only [if_neg he]
      rcases Memory.mem_write hc with rfl | hc
      · exact absurd rfl he
      · exact h4 c hc

/-- In canonical form an unspecified bit is held as 0, at every byte. -/
theorem Payload.wf_covered {p : Payload} {n : Nat} (hp : p.wf n) (k : Nat) :
    p.data.read k &&& ~~~(p.written.read k) = 0#8 := by
  obtain ⟨-, h2, -, h4⟩ := hp
  by_cases h : p.data.read k = 0#8
  · simp [h]
  · have : ∃ c ∈ p.data, c.1 = k := by
      clear h2 h4
      generalize p.data = m at h
      induction m with
      | nil => simp at h
      | cons head m ih =>
        obtain ⟨b, x⟩ := head
        by_cases hb : k = b
        · exact ⟨(b, x), by simp, hb.symm⟩
        · rw [Memory.read_cons, if_neg hb] at h
          obtain ⟨c, hc, e⟩ := ih h
          exact ⟨c, by simp [hc], e⟩
    obtain ⟨c, hc, rfl⟩ := this
    rw [Memory.read_of_mem h2 hc]
    exact h4 c hc

/-- PbufBitWrite inside a buffer of n bytes keeps the canonical form. -/
theorem Payload.wf_writeBit {p : Payload} {n i : Nat} (hp : p.wf n) (hi : i < 8 * n) (b : Bool) : (p.writeBit i b).wf n := by
  refine Payload.wf_write hp (by omega) ?_
  rw [and_not_eq_zero_iff]
  intro j
  rw [getLsbD_setBitAt _ _ _ _ (bitPlace_lt i), getLsbD_setBitAt _ _ _ _ (bitPlace_lt i)]
  by_cases hj : j = bitPlace i
  · simp [hj]
  · simpa [hj] using (and_not_eq_zero_iff _ _).mp (Payload.wf_covered hp (i / 8)) j

/-- PbufBitWrite of a sequence inside a buffer of n bytes keeps the canonical form. -/
theorem Payload.wf_writeBits {p : Payload} {n : Nat} (bits : List Bool) {i : Nat} (hp : p.wf n) (hi : i + bits.length ≤ 8 * n) :
    (p.writeBits i bits).wf n := by
  induction bits generalizing p i with
  | nil => exact hp
  | cons b bits ih =>
    simp only [List.length_cons] at hi
    exact ih (Payload.wf_writeBit hp (by omega) b) (by omega)

/-- PbufWrite inside a buffer of n bytes keeps the canonical form. -/
theorem Payload.wf_writeByte {p : Payload} {n k : Nat} (hp : p.wf n) (hk : k < n) (v : Byte) : (p.writeByte k v).wf n := by
  refine Payload.wf_write hp hk ?_
  rw [and_not_eq_zero_iff]
  intro j hj
  have hall : ∀ i < 8, (0xFF#8).getLsbD i = true := by decide
  exact hall j (BitVec.lt_of_getLsbD hj)

/-- A buffer with every bit unspecified is in canonical form. -/
theorem Payload.wf_unspecified (n : Nat) : Payload.unspecified.wf n := by
  simp [Payload.unspecified, Payload.wf, Memory.wf]

end Sys2Proof.Machine
end

