-- ==== Sys2Proof/Laws/State.lean ====
section
/-! SUPPORT. What each setter of Machine/Ops.lean leaves in each field of State: one lemma a field and setter, true by rfl. -/

namespace Sys2Proof.Machine

variable (s : State)

/-! ### setArg -/

@[simp] theorem State.setArg_params (v : Word) : (s.setArg v).params = s.params := rfl
@[simp] theorem State.setArg_arg (v : Word) : (s.setArg v).arg = v := rfl
@[simp] theorem State.setArg_result (v : Word) : (s.setArg v).result = s.result := rfl
@[simp] theorem State.setArg_err (v : Word) : (s.setArg v).err = s.err := rfl
@[simp] theorem State.setArg_freq (v : Word) : (s.setArg v).freq = s.freq := rfl
@[simp] theorem State.setArg_codeLen (v : Word) : (s.setArg v).codeLen = s.codeLen := rfl
@[simp] theorem State.setArg_codeBits (v : Word) : (s.setArg v).codeBits = s.codeBits := rfl
@[simp] theorem State.setArg_tableValid (v : Word) : (s.setArg v).tableValid = s.tableValid := rfl
@[simp] theorem State.setArg_alphaSize (v : Word) : (s.setArg v).alphaSize = s.alphaSize := rfl
@[simp] theorem State.setArg_degen (v : Word) : (s.setArg v).degen = s.degen := rfl
@[simp] theorem State.setArg_encActive (v : Word) : (s.setArg v).encActive = s.encActive := rfl
@[simp] theorem State.setArg_encPos (v : Word) : (s.setArg v).encPos = s.encPos := rfl
@[simp] theorem State.setArg_decActive (v : Word) : (s.setArg v).decActive = s.decActive := rfl
@[simp] theorem State.setArg_decPos (v : Word) : (s.setArg v).decPos = s.decPos := rfl
@[simp] theorem State.setArg_decLen (v : Word) : (s.setArg v).decLen = s.decLen := rfl
@[simp] theorem State.setArg_pbuf (v : Word) : (s.setArg v).pbuf = s.pbuf := rfl
@[simp] theorem State.setArg_pending (v : Word) : (s.setArg v).pending = s.pending := rfl
@[simp] theorem State.setArg_reads (v : Word) : (s.setArg v).reads = s.reads := rfl

/-! ### setResult -/

@[simp] theorem State.setResult_params (v : Word) : (s.setResult v).params = s.params := rfl
@[simp] theorem State.setResult_arg (v : Word) : (s.setResult v).arg = s.arg := rfl
@[simp] theorem State.setResult_result (v : Word) : (s.setResult v).result = v := rfl
@[simp] theorem State.setResult_err (v : Word) : (s.setResult v).err = s.err := rfl
@[simp] theorem State.setResult_freq (v : Word) : (s.setResult v).freq = s.freq := rfl
@[simp] theorem State.setResult_codeLen (v : Word) : (s.setResult v).codeLen = s.codeLen := rfl
@[simp] theorem State.setResult_codeBits (v : Word) : (s.setResult v).codeBits = s.codeBits := rfl
@[simp] theorem State.setResult_tableValid (v : Word) : (s.setResult v).tableValid = s.tableValid := rfl
@[simp] theorem State.setResult_alphaSize (v : Word) : (s.setResult v).alphaSize = s.alphaSize := rfl
@[simp] theorem State.setResult_degen (v : Word) : (s.setResult v).degen = s.degen := rfl
@[simp] theorem State.setResult_encActive (v : Word) : (s.setResult v).encActive = s.encActive := rfl
@[simp] theorem State.setResult_encPos (v : Word) : (s.setResult v).encPos = s.encPos := rfl
@[simp] theorem State.setResult_decActive (v : Word) : (s.setResult v).decActive = s.decActive := rfl
@[simp] theorem State.setResult_decPos (v : Word) : (s.setResult v).decPos = s.decPos := rfl
@[simp] theorem State.setResult_decLen (v : Word) : (s.setResult v).decLen = s.decLen := rfl
@[simp] theorem State.setResult_pbuf (v : Word) : (s.setResult v).pbuf = s.pbuf := rfl
@[simp] theorem State.setResult_pending (v : Word) : (s.setResult v).pending = s.pending := rfl
@[simp] theorem State.setResult_reads (v : Word) : (s.setResult v).reads = s.reads := rfl

/-! ### setErr -/

@[simp] theorem State.setErr_params (e : BitVec 8) : (s.setErr e).params = s.params := rfl
@[simp] theorem State.setErr_arg (e : BitVec 8) : (s.setErr e).arg = s.arg := rfl
@[simp] theorem State.setErr_result (e : BitVec 8) : (s.setErr e).result = s.result := rfl
@[simp] theorem State.setErr_err (e : BitVec 8) : (s.setErr e).err = e := rfl
@[simp] theorem State.setErr_freq (e : BitVec 8) : (s.setErr e).freq = s.freq := rfl
@[simp] theorem State.setErr_codeLen (e : BitVec 8) : (s.setErr e).codeLen = s.codeLen := rfl
@[simp] theorem State.setErr_codeBits (e : BitVec 8) : (s.setErr e).codeBits = s.codeBits := rfl
@[simp] theorem State.setErr_tableValid (e : BitVec 8) : (s.setErr e).tableValid = s.tableValid := rfl
@[simp] theorem State.setErr_alphaSize (e : BitVec 8) : (s.setErr e).alphaSize = s.alphaSize := rfl
@[simp] theorem State.setErr_degen (e : BitVec 8) : (s.setErr e).degen = s.degen := rfl
@[simp] theorem State.setErr_encActive (e : BitVec 8) : (s.setErr e).encActive = s.encActive := rfl
@[simp] theorem State.setErr_encPos (e : BitVec 8) : (s.setErr e).encPos = s.encPos := rfl
@[simp] theorem State.setErr_decActive (e : BitVec 8) : (s.setErr e).decActive = s.decActive := rfl
@[simp] theorem State.setErr_decPos (e : BitVec 8) : (s.setErr e).decPos = s.decPos := rfl
@[simp] theorem State.setErr_decLen (e : BitVec 8) : (s.setErr e).decLen = s.decLen := rfl
@[simp] theorem State.setErr_pbuf (e : BitVec 8) : (s.setErr e).pbuf = s.pbuf := rfl
@[simp] theorem State.setErr_pending (e : BitVec 8) : (s.setErr e).pending = s.pending := rfl
@[simp] theorem State.setErr_reads (e : BitVec 8) : (s.setErr e).reads = s.reads := rfl

/-! ### setFreq -/

@[simp] theorem State.setFreq_params (f : Vector Word 256) : (s.setFreq f).params = s.params := rfl
@[simp] theorem State.setFreq_arg (f : Vector Word 256) : (s.setFreq f).arg = s.arg := rfl
@[simp] theorem State.setFreq_result (f : Vector Word 256) : (s.setFreq f).result = s.result := rfl
@[simp] theorem State.setFreq_err (f : Vector Word 256) : (s.setFreq f).err = s.err := rfl
@[simp] theorem State.setFreq_freq (f : Vector Word 256) : (s.setFreq f).freq = f := rfl
@[simp] theorem State.setFreq_codeLen (f : Vector Word 256) : (s.setFreq f).codeLen = s.codeLen := rfl
@[simp] theorem State.setFreq_codeBits (f : Vector Word 256) : (s.setFreq f).codeBits = s.codeBits := rfl
@[simp] theorem State.setFreq_tableValid (f : Vector Word 256) : (s.setFreq f).tableValid = s.tableValid := rfl
@[simp] theorem State.setFreq_alphaSize (f : Vector Word 256) : (s.setFreq f).alphaSize = s.alphaSize := rfl
@[simp] theorem State.setFreq_degen (f : Vector Word 256) : (s.setFreq f).degen = s.degen := rfl
@[simp] theorem State.setFreq_encActive (f : Vector Word 256) : (s.setFreq f).encActive = s.encActive := rfl
@[simp] theorem State.setFreq_encPos (f : Vector Word 256) : (s.setFreq f).encPos = s.encPos := rfl
@[simp] theorem State.setFreq_decActive (f : Vector Word 256) : (s.setFreq f).decActive = s.decActive := rfl
@[simp] theorem State.setFreq_decPos (f : Vector Word 256) : (s.setFreq f).decPos = s.decPos := rfl
@[simp] theorem State.setFreq_decLen (f : Vector Word 256) : (s.setFreq f).decLen = s.decLen := rfl
@[simp] theorem State.setFreq_pbuf (f : Vector Word 256) : (s.setFreq f).pbuf = s.pbuf := rfl
@[simp] theorem State.setFreq_pending (f : Vector Word 256) : (s.setFreq f).pending = s.pending := rfl
@[simp] theorem State.setFreq_reads (f : Vector Word 256) : (s.setFreq f).reads = s.reads := rfl

/-! ### setTable -/

@[simp] theorem State.setTable_params (l : Vector (BitVec 8) 256) (b : Vector (Vector Word 8) 256) : (s.setTable l b).params = s.params := rfl
@[simp] theorem State.setTable_arg (l : Vector (BitVec 8) 256) (b : Vector (Vector Word 8) 256) : (s.setTable l b).arg = s.arg := rfl
@[simp] theorem State.setTable_result (l : Vector (BitVec 8) 256) (b : Vector (Vector Word 8) 256) : (s.setTable l b).result = s.result := rfl
@[simp] theorem State.setTable_err (l : Vector (BitVec 8) 256) (b : Vector (Vector Word 8) 256) : (s.setTable l b).err = s.err := rfl
@[simp] theorem State.setTable_freq (l : Vector (BitVec 8) 256) (b : Vector (Vector Word 8) 256) : (s.setTable l b).freq = s.freq := rfl
@[simp] theorem State.setTable_codeLen (l : Vector (BitVec 8) 256) (b : Vector (Vector Word 8) 256) : (s.setTable l b).codeLen = l := rfl
@[simp] theorem State.setTable_codeBits (l : Vector (BitVec 8) 256) (b : Vector (Vector Word 8) 256) : (s.setTable l b).codeBits = b := rfl
@[simp] theorem State.setTable_tableValid (l : Vector (BitVec 8) 256) (b : Vector (Vector Word 8) 256) : (s.setTable l b).tableValid = s.tableValid := rfl
@[simp] theorem State.setTable_alphaSize (l : Vector (BitVec 8) 256) (b : Vector (Vector Word 8) 256) : (s.setTable l b).alphaSize = s.alphaSize := rfl
@[simp] theorem State.setTable_degen (l : Vector (BitVec 8) 256) (b : Vector (Vector Word 8) 256) : (s.setTable l b).degen = s.degen := rfl
@[simp] theorem State.setTable_encActive (l : Vector (BitVec 8) 256) (b : Vector (Vector Word 8) 256) : (s.setTable l b).encActive = s.encActive := rfl
@[simp] theorem State.setTable_encPos (l : Vector (BitVec 8) 256) (b : Vector (Vector Word 8) 256) : (s.setTable l b).encPos = s.encPos := rfl
@[simp] theorem State.setTable_decActive (l : Vector (BitVec 8) 256) (b : Vector (Vector Word 8) 256) : (s.setTable l b).decActive = s.decActive := rfl
@[simp] theorem State.setTable_decPos (l : Vector (BitVec 8) 256) (b : Vector (Vector Word 8) 256) : (s.setTable l b).decPos = s.decPos := rfl
@[simp] theorem State.setTable_decLen (l : Vector (BitVec 8) 256) (b : Vector (Vector Word 8) 256) : (s.setTable l b).decLen = s.decLen := rfl
@[simp] theorem State.setTable_pbuf (l : Vector (BitVec 8) 256) (b : Vector (Vector Word 8) 256) : (s.setTable l b).pbuf = s.pbuf := rfl
@[simp] theorem State.setTable_pending (l : Vector (BitVec 8) 256) (b : Vector (Vector Word 8) 256) : (s.setTable l b).pending = s.pending := rfl
@[simp] theorem State.setTable_reads (l : Vector (BitVec 8) 256) (b : Vector (Vector Word 8) 256) : (s.setTable l b).reads = s.reads := rfl

/-! ### setTableFlags -/

@[simp] theorem State.setTableFlags_params (v : Bool) (n : BitVec 9) (d : Bool) : (s.setTableFlags v n d).params = s.params := rfl
@[simp] theorem State.setTableFlags_arg (v : Bool) (n : BitVec 9) (d : Bool) : (s.setTableFlags v n d).arg = s.arg := rfl
@[simp] theorem State.setTableFlags_result (v : Bool) (n : BitVec 9) (d : Bool) : (s.setTableFlags v n d).result = s.result := rfl
@[simp] theorem State.setTableFlags_err (v : Bool) (n : BitVec 9) (d : Bool) : (s.setTableFlags v n d).err = s.err := rfl
@[simp] theorem State.setTableFlags_freq (v : Bool) (n : BitVec 9) (d : Bool) : (s.setTableFlags v n d).freq = s.freq := rfl
@[simp] theorem State.setTableFlags_codeLen (v : Bool) (n : BitVec 9) (d : Bool) : (s.setTableFlags v n d).codeLen = s.codeLen := rfl
@[simp] theorem State.setTableFlags_codeBits (v : Bool) (n : BitVec 9) (d : Bool) : (s.setTableFlags v n d).codeBits = s.codeBits := rfl
@[simp] theorem State.setTableFlags_tableValid (v : Bool) (n : BitVec 9) (d : Bool) : (s.setTableFlags v n d).tableValid = v := rfl
@[simp] theorem State.setTableFlags_alphaSize (v : Bool) (n : BitVec 9) (d : Bool) : (s.setTableFlags v n d).alphaSize = n := rfl
@[simp] theorem State.setTableFlags_degen (v : Bool) (n : BitVec 9) (d : Bool) : (s.setTableFlags v n d).degen = d := rfl
@[simp] theorem State.setTableFlags_encActive (v : Bool) (n : BitVec 9) (d : Bool) : (s.setTableFlags v n d).encActive = s.encActive := rfl
@[simp] theorem State.setTableFlags_encPos (v : Bool) (n : BitVec 9) (d : Bool) : (s.setTableFlags v n d).encPos = s.encPos := rfl
@[simp] theorem State.setTableFlags_decActive (v : Bool) (n : BitVec 9) (d : Bool) : (s.setTableFlags v n d).decActive = s.decActive := rfl
@[simp] theorem State.setTableFlags_decPos (v : Bool) (n : BitVec 9) (d : Bool) : (s.setTableFlags v n d).decPos = s.decPos := rfl
@[simp] theorem State.setTableFlags_decLen (v : Bool) (n : BitVec 9) (d : Bool) : (s.setTableFlags v n d).decLen = s.decLen := rfl
@[simp] theorem State.setTableFlags_pbuf (v : Bool) (n : BitVec 9) (d : Bool) : (s.setTableFlags v n d).pbuf = s.pbuf := rfl
@[simp] theorem State.setTableFlags_pending (v : Bool) (n : BitVec 9) (d : Bool) : (s.setTableFlags v n d).pending = s.pending := rfl
@[simp] theorem State.setTableFlags_reads (v : Bool) (n : BitVec 9) (d : Bool) : (s.setTableFlags v n d).reads = s.reads := rfl

/-! ### setEnc -/

@[simp] theorem State.setEnc_params (a : Bool) (p : BitVec 32) : (s.setEnc a p).params = s.params := rfl
@[simp] theorem State.setEnc_arg (a : Bool) (p : BitVec 32) : (s.setEnc a p).arg = s.arg := rfl
@[simp] theorem State.setEnc_result (a : Bool) (p : BitVec 32) : (s.setEnc a p).result = s.result := rfl
@[simp] theorem State.setEnc_err (a : Bool) (p : BitVec 32) : (s.setEnc a p).err = s.err := rfl
@[simp] theorem State.setEnc_freq (a : Bool) (p : BitVec 32) : (s.setEnc a p).freq = s.freq := rfl
@[simp] theorem State.setEnc_codeLen (a : Bool) (p : BitVec 32) : (s.setEnc a p).codeLen = s.codeLen := rfl
@[simp] theorem State.setEnc_codeBits (a : Bool) (p : BitVec 32) : (s.setEnc a p).codeBits = s.codeBits := rfl
@[simp] theorem State.setEnc_tableValid (a : Bool) (p : BitVec 32) : (s.setEnc a p).tableValid = s.tableValid := rfl
@[simp] theorem State.setEnc_alphaSize (a : Bool) (p : BitVec 32) : (s.setEnc a p).alphaSize = s.alphaSize := rfl
@[simp] theorem State.setEnc_degen (a : Bool) (p : BitVec 32) : (s.setEnc a p).degen = s.degen := rfl
@[simp] theorem State.setEnc_encActive (a : Bool) (p : BitVec 32) : (s.setEnc a p).encActive = a := rfl
@[simp] theorem State.setEnc_encPos (a : Bool) (p : BitVec 32) : (s.setEnc a p).encPos = p := rfl
@[simp] theorem State.setEnc_decActive (a : Bool) (p : BitVec 32) : (s.setEnc a p).decActive = s.decActive := rfl
@[simp] theorem State.setEnc_decPos (a : Bool) (p : BitVec 32) : (s.setEnc a p).decPos = s.decPos := rfl
@[simp] theorem State.setEnc_decLen (a : Bool) (p : BitVec 32) : (s.setEnc a p).decLen = s.decLen := rfl
@[simp] theorem State.setEnc_pbuf (a : Bool) (p : BitVec 32) : (s.setEnc a p).pbuf = s.pbuf := rfl
@[simp] theorem State.setEnc_pending (a : Bool) (p : BitVec 32) : (s.setEnc a p).pending = s.pending := rfl
@[simp] theorem State.setEnc_reads (a : Bool) (p : BitVec 32) : (s.setEnc a p).reads = s.reads := rfl

/-! ### setDec -/

@[simp] theorem State.setDec_params (a : Bool) (p l : BitVec 32) : (s.setDec a p l).params = s.params := rfl
@[simp] theorem State.setDec_arg (a : Bool) (p l : BitVec 32) : (s.setDec a p l).arg = s.arg := rfl
@[simp] theorem State.setDec_result (a : Bool) (p l : BitVec 32) : (s.setDec a p l).result = s.result := rfl
@[simp] theorem State.setDec_err (a : Bool) (p l : BitVec 32) : (s.setDec a p l).err = s.err := rfl
@[simp] theorem State.setDec_freq (a : Bool) (p l : BitVec 32) : (s.setDec a p l).freq = s.freq := rfl
@[simp] theorem State.setDec_codeLen (a : Bool) (p l : BitVec 32) : (s.setDec a p l).codeLen = s.codeLen := rfl
@[simp] theorem State.setDec_codeBits (a : Bool) (p l : BitVec 32) : (s.setDec a p l).codeBits = s.codeBits := rfl
@[simp] theorem State.setDec_tableValid (a : Bool) (p l : BitVec 32) : (s.setDec a p l).tableValid = s.tableValid := rfl
@[simp] theorem State.setDec_alphaSize (a : Bool) (p l : BitVec 32) : (s.setDec a p l).alphaSize = s.alphaSize := rfl
@[simp] theorem State.setDec_degen (a : Bool) (p l : BitVec 32) : (s.setDec a p l).degen = s.degen := rfl
@[simp] theorem State.setDec_encActive (a : Bool) (p l : BitVec 32) : (s.setDec a p l).encActive = s.encActive := rfl
@[simp] theorem State.setDec_encPos (a : Bool) (p l : BitVec 32) : (s.setDec a p l).encPos = s.encPos := rfl
@[simp] theorem State.setDec_decActive (a : Bool) (p l : BitVec 32) : (s.setDec a p l).decActive = a := rfl
@[simp] theorem State.setDec_decPos (a : Bool) (p l : BitVec 32) : (s.setDec a p l).decPos = p := rfl
@[simp] theorem State.setDec_decLen (a : Bool) (p l : BitVec 32) : (s.setDec a p l).decLen = l := rfl
@[simp] theorem State.setDec_pbuf (a : Bool) (p l : BitVec 32) : (s.setDec a p l).pbuf = s.pbuf := rfl
@[simp] theorem State.setDec_pending (a : Bool) (p l : BitVec 32) : (s.setDec a p l).pending = s.pending := rfl
@[simp] theorem State.setDec_reads (a : Bool) (p l : BitVec 32) : (s.setDec a p l).reads = s.reads := rfl

/-! ### setPbuf -/

@[simp] theorem State.setPbuf_params (p : Payload) : (s.setPbuf p).params = s.params := rfl
@[simp] theorem State.setPbuf_arg (p : Payload) : (s.setPbuf p).arg = s.arg := rfl
@[simp] theorem State.setPbuf_result (p : Payload) : (s.setPbuf p).result = s.result := rfl
@[simp] theorem State.setPbuf_err (p : Payload) : (s.setPbuf p).err = s.err := rfl
@[simp] theorem State.setPbuf_freq (p : Payload) : (s.setPbuf p).freq = s.freq := rfl
@[simp] theorem State.setPbuf_codeLen (p : Payload) : (s.setPbuf p).codeLen = s.codeLen := rfl
@[simp] theorem State.setPbuf_codeBits (p : Payload) : (s.setPbuf p).codeBits = s.codeBits := rfl
@[simp] theorem State.setPbuf_tableValid (p : Payload) : (s.setPbuf p).tableValid = s.tableValid := rfl
@[simp] theorem State.setPbuf_alphaSize (p : Payload) : (s.setPbuf p).alphaSize = s.alphaSize := rfl
@[simp] theorem State.setPbuf_degen (p : Payload) : (s.setPbuf p).degen = s.degen := rfl
@[simp] theorem State.setPbuf_encActive (p : Payload) : (s.setPbuf p).encActive = s.encActive := rfl
@[simp] theorem State.setPbuf_encPos (p : Payload) : (s.setPbuf p).encPos = s.encPos := rfl
@[simp] theorem State.setPbuf_decActive (p : Payload) : (s.setPbuf p).decActive = s.decActive := rfl
@[simp] theorem State.setPbuf_decPos (p : Payload) : (s.setPbuf p).decPos = s.decPos := rfl
@[simp] theorem State.setPbuf_decLen (p : Payload) : (s.setPbuf p).decLen = s.decLen := rfl
@[simp] theorem State.setPbuf_pbuf (p : Payload) : (s.setPbuf p).pbuf = p := rfl
@[simp] theorem State.setPbuf_pending (p : Payload) : (s.setPbuf p).pending = s.pending := rfl
@[simp] theorem State.setPbuf_reads (p : Payload) : (s.setPbuf p).reads = s.reads := rfl

/-! ### setPending -/

@[simp] theorem State.setPending_params (es : List HostEvent) : (s.setPending es).params = s.params := rfl
@[simp] theorem State.setPending_arg (es : List HostEvent) : (s.setPending es).arg = s.arg := rfl
@[simp] theorem State.setPending_result (es : List HostEvent) : (s.setPending es).result = s.result := rfl
@[simp] theorem State.setPending_err (es : List HostEvent) : (s.setPending es).err = s.err := rfl
@[simp] theorem State.setPending_freq (es : List HostEvent) : (s.setPending es).freq = s.freq := rfl
@[simp] theorem State.setPending_codeLen (es : List HostEvent) : (s.setPending es).codeLen = s.codeLen := rfl
@[simp] theorem State.setPending_codeBits (es : List HostEvent) : (s.setPending es).codeBits = s.codeBits := rfl
@[simp] theorem State.setPending_tableValid (es : List HostEvent) : (s.setPending es).tableValid = s.tableValid := rfl
@[simp] theorem State.setPending_alphaSize (es : List HostEvent) : (s.setPending es).alphaSize = s.alphaSize := rfl
@[simp] theorem State.setPending_degen (es : List HostEvent) : (s.setPending es).degen = s.degen := rfl
@[simp] theorem State.setPending_encActive (es : List HostEvent) : (s.setPending es).encActive = s.encActive := rfl
@[simp] theorem State.setPending_encPos (es : List HostEvent) : (s.setPending es).encPos = s.encPos := rfl
@[simp] theorem State.setPending_decActive (es : List HostEvent) : (s.setPending es).decActive = s.decActive := rfl
@[simp] theorem State.setPending_decPos (es : List HostEvent) : (s.setPending es).decPos = s.decPos := rfl
@[simp] theorem State.setPending_decLen (es : List HostEvent) : (s.setPending es).decLen = s.decLen := rfl
@[simp] theorem State.setPending_pbuf (es : List HostEvent) : (s.setPending es).pbuf = s.pbuf := rfl
@[simp] theorem State.setPending_pending (es : List HostEvent) : (s.setPending es).pending = es := rfl
@[simp] theorem State.setPending_reads (es : List HostEvent) : (s.setPending es).reads = s.reads := rfl

/-! ### pushRead -/

@[simp] theorem State.pushRead_params (v : Word) : (s.pushRead v).params = s.params := rfl
@[simp] theorem State.pushRead_arg (v : Word) : (s.pushRead v).arg = s.arg := rfl
@[simp] theorem State.pushRead_result (v : Word) : (s.pushRead v).result = s.result := rfl
@[simp] theorem State.pushRead_err (v : Word) : (s.pushRead v).err = s.err := rfl
@[simp] theorem State.pushRead_freq (v : Word) : (s.pushRead v).freq = s.freq := rfl
@[simp] theorem State.pushRead_codeLen (v : Word) : (s.pushRead v).codeLen = s.codeLen := rfl
@[simp] theorem State.pushRead_codeBits (v : Word) : (s.pushRead v).codeBits = s.codeBits := rfl
@[simp] theorem State.pushRead_tableValid (v : Word) : (s.pushRead v).tableValid = s.tableValid := rfl
@[simp] theorem State.pushRead_alphaSize (v : Word) : (s.pushRead v).alphaSize = s.alphaSize := rfl
@[simp] theorem State.pushRead_degen (v : Word) : (s.pushRead v).degen = s.degen := rfl
@[simp] theorem State.pushRead_encActive (v : Word) : (s.pushRead v).encActive = s.encActive := rfl
@[simp] theorem State.pushRead_encPos (v : Word) : (s.pushRead v).encPos = s.encPos := rfl
@[simp] theorem State.pushRead_decActive (v : Word) : (s.pushRead v).decActive = s.decActive := rfl
@[simp] theorem State.pushRead_decPos (v : Word) : (s.pushRead v).decPos = s.decPos := rfl
@[simp] theorem State.pushRead_decLen (v : Word) : (s.pushRead v).decLen = s.decLen := rfl
@[simp] theorem State.pushRead_pbuf (v : Word) : (s.pushRead v).pbuf = s.pbuf := rfl
@[simp] theorem State.pushRead_pending (v : Word) : (s.pushRead v).pending = s.pending := rfl
@[simp] theorem State.pushRead_reads (v : Word) : (s.pushRead v).reads = v :: s.reads := rfl

end Sys2Proof.Machine
end

