-- ==== Sys2Proof/Laws/Ops.lean ====
section
/-! SUPPORT. One lemma a shared operation, saying everything it can do: the register files, raise, the gates, the resets, the table flags, the
layout of codewords, the alphabets and the rounds of the decoder's walk. -/

namespace Sys2Proof.Machine

/-! ## Register files -/

/-- An entry after a write: the value written, every other as before. -/
@[simp] theorem tableGet_tableSet {α : Type} (v : Vector α 256) (a b : Sym) (x : α) :
    tableGet (tableSet v a x) b = if b = a then x else tableGet v b := by
  unfold tableGet tableSet
  by_cases h : b = a
  · subst h; simp
  · have : a.toNat ≠ b.toNat := fun e => h (BitVec.eq_of_toNat_eq e.symm)
    simp [h, Vector.getElem_set_ne, this]

/-- A word of an entry after a write: the value written, every other as before. -/
@[simp] theorem wordGet_wordSet (v : Vector Word 8) (w u : BitVec 3) (x : Word) :
    wordGet (wordSet v w x) u = if u = w then x else wordGet v u := by
  unfold wordGet wordSet
  by_cases h : u = w
  · subst h; simp
  · have : w.toNat ≠ u.toNat := fun e => h (BitVec.eq_of_toNat_eq e.symm)
    simp [h, Vector.getElem_set_ne, this]

@[simp] theorem tableGet_emptyLens (a : Sym) : tableGet emptyLens a = 0#8 := by
  unfold tableGet emptyLens; simp

@[simp] theorem tableGet_emptyFreq (a : Sym) : tableGet emptyFreq a = 0#32 := by
  unfold tableGet emptyFreq; simp

@[simp] theorem tableGet_emptyBits (a : Sym) : tableGet emptyBits a = Vector.replicate 8 0#32 := by
  unfold tableGet emptyBits; simp

/-- Two register files with the same entries are equal. -/
theorem table_ext {α : Type} {v u : Vector α 256} (h : ∀ a : Sym, tableGet v a = tableGet u a) : v = u := by
  refine Vector.ext fun i hi => ?_
  have := h (BitVec.ofNat 8 i)
  have hm : i % 256 = i := Nat.mod_eq_of_lt hi
  simpa [tableGet, hm] using this

/-! ## raise, the gates and the session rules -/

/-- `raise` with ERR = 0 (60_exceptions.md R284). -/
theorem raise_of_noError {s : State} (e : ErrCode) (h : s.err = 0#8) :
    raise e s = { s with err := errCode e, encActive := false, decActive := false } := by
  simp [raise, h, closeSessions, State.setErr, State.setEnc, State.setDec]

/-- `raise` with ERR ≠ 0 changes nothing (R284). -/
theorem raise_of_error {s : State} (e : ErrCode) (h : s.err ≠ 0#8) : raise e s = s := by
  simp [raise, h]

/-- What `raise` leaves alone, whatever ERR holds. -/
theorem raise_frame (e : ErrCode) (s : State) :
    raise e s = { s with err := (raise e s).err, encActive := (raise e s).encActive, decActive := (raise e s).decActive } := by
  by_cases h : s.err = 0#8
  · simp [raise_of_noError e h]
  · simp [raise_of_error e h]

theorem errCode_ne_zero (e : ErrCode) : errCode e ≠ 0#8 := by cases e <;> decide

theorem errCode_le (e : ErrCode) : (errCode e).toNat ≤ 11 := by cases e <;> decide

@[simp] theorem whenNoError_of_noError {s : State} {run : Out} (h : s.err = 0#8) : whenNoError s run = run := by
  simp [whenNoError, h]

@[simp] theorem whenNoError_of_error {s : State} {run : Out} (h : s.err ≠ 0#8) : whenNoError s run = .next s := by
  simp [whenNoError, h]

/-- What a gated command can answer. -/
theorem whenNoError_cases {s : State} {run : Out} {o : Out} (h : whenNoError s run = o) :
    (s.err ≠ 0#8 ∧ o = .next s) ∨ (s.err = 0#8 ∧ o = run) := by
  by_cases he : s.err = 0#8
  · exact .inr ⟨he, by rw [← h, whenNoError_of_noError he]⟩
  · exact .inl ⟨he, by rw [← h, whenNoError_of_error he]⟩

theorem whenNoSession_closed {s : State} {run : Out} (he : s.encActive = false) (hd : s.decActive = false) :
    whenNoSession s run = run := by simp [whenNoSession, he, hd]

theorem whenNoSession_open {s : State} {run : Out} (h : s.encActive = true ∨ s.decActive = true) :
    whenNoSession s run = .next (raise .sequence s) := by
  rcases h with h | h <;> simp [whenNoSession, h]

/-- What a command that needs no session can answer. -/
theorem whenNoSession_cases {s : State} {run : Out} {o : Out} (h : whenNoSession s run = o) :
    ((s.encActive = true ∨ s.decActive = true) ∧ o = .next (raise .sequence s)) ∨
      (s.encActive = false ∧ s.decActive = false ∧ o = run) := by
  cases he : s.encActive <;> cases hd : s.decActive <;> simp_all [whenNoSession]

/-- What a command that needs an encode session can answer. -/
theorem whenEncoding_cases {s : State} {run : Out} {o : Out} (h : whenEncoding s run = o) :
    (s.encActive = false ∧ o = .next (raise .sequence s)) ∨ (s.encActive = true ∧ o = run) := by
  cases he : s.encActive <;> simp_all [whenEncoding]

/-- What a command that needs a decode session can answer. -/
theorem whenDecoding_cases {s : State} {run : Out} {o : Out} (h : whenDecoding s run = o) :
    (s.decActive = false ∧ o = .next (raise .sequence s)) ∨ (s.decActive = true ∧ o = run) := by
  cases he : s.decActive <;> simp_all [whenDecoding]

/-! ## Resets, table flags, STATUS -/

/-- The RESET command's state (10_state.md R39). -/
theorem resetBlock_eq (s : State) :
    resetBlock s = { State.reset with params := s.params, pbuf := s.pbuf, pending := s.pending, reads := s.reads } := rfl

/-- Power-on reset is RESET with PBUF unspecified (70_reset_and_hazards.md R310, R311). -/
theorem powerOn_eq (s : State) : powerOn s = { resetBlock s with pbuf := Payload.unspecified } := rfl

theorem closeSessions_eq (s : State) : closeSessions s = { s with encActive := false, decActive := false } := rfl

theorem returnFromError_eq (s : State) : returnFromError s = { s with err := 0#8 } := rfl

theorem invalidateTable_eq (s : State) : invalidateTable s = { s with tableValid := false, alphaSize := 0#9, degen := false } := rfl

theorem validateTable_eq (n : Nat) (s : State) :
    validateTable n s = { s with tableValid := true, alphaSize := BitVec.ofNat 9 n, degen := n == 1 } := rfl

theorem clearTable_eq (s : State) :
    clearTable s = { s with codeLen := emptyLens, codeBits := emptyBits, tableValid := false, alphaSize := 0#9, degen := false } :=
  rfl

/-! ## Symbols, alphabets and codewords -/

theorem mem_symbols (a : Sym) : a ∈ symbols := by
  refine List.mem_map.mpr ⟨a.toNat, List.mem_range.mpr a.isLt, ?_⟩
  simp

theorem nodup_symbols : symbols.Nodup := by
  refine List.Nodup.map_on ?_ List.nodup_range
  intro x hx y hy h
  have := congrArg BitVec.toNat h
  rw [BitVec.toNat_ofNat, BitVec.toNat_ofNat, Nat.mod_eq_of_lt (List.mem_range.mp hx), Nat.mod_eq_of_lt (List.mem_range.mp hy)] at this
  exact this

theorem length_symbols : symbols.length = 256 := by simp [symbols]

theorem mem_freqAlphabet {f : Vector Word 256} {a : Sym} : a ∈ freqAlphabet f ↔ tableGet f a ≠ 0#32 := by
  simp [freqAlphabet, mem_symbols]

theorem mem_codeAlphabet {l : Vector (BitVec 8) 256} {a : Sym} : a ∈ codeAlphabet l ↔ tableGet l a ≠ 0#8 := by
  simp [codeAlphabet, mem_symbols]

theorem nodup_freqAlphabet (f : Vector Word 256) : (freqAlphabet f).Nodup := nodup_symbols.filter _

theorem nodup_codeAlphabet (l : Vector (BitVec 8) 256) : (codeAlphabet l).Nodup := nodup_symbols.filter _

theorem length_freqAlphabet_le (f : Vector Word 256) : (freqAlphabet f).length ≤ 256 :=
  length_symbols ▸ List.length_filter_le _ _

theorem length_codeAlphabet_le (l : Vector (BitVec 8) 256) : (codeAlphabet l).length ≤ 256 :=
  length_symbols ▸ List.length_filter_le _ _

@[simp] theorem length_storedBits (b : Vector Word 8) (n : Nat) : (storedBits b n).length = n := by simp [storedBits]

@[simp] theorem length_codeword (s : State) (a : Sym) : (codeword s a).length = (tableGet s.codeLen a).toNat := by simp [codeword]

theorem packWord_foldl (c : List Bool) (w n : Nat) (hn : n ≤ 32) (k : Nat) :
    ((List.range n).foldl (fun acc j => acc.shiftConcat (c.getD (32 * w + j) false)) 0#32).getLsbD k =
      (decide (k < n) && c.getD (32 * w + (n - 1 - k)) false) := by
  induction n generalizing k with
  | zero => simp
  | succ n ih =>
    rw [List.range_succ, List.foldl_append, List.foldl_cons, List.foldl_nil, BitVec.getLsbD_shiftConcat]
    rcases k with _ | k
    · simp
    · have hk : decide (k + 1 < 32) = true ∨ ¬ k < n := by
        by_cases h : k < n
        · exact .inl (by simp; omega)
        · exact .inr h
      have e : n - (k + 1) = n - 1 - k := by omega
      rw [ih (by omega)]
      rcases hk with hk | hk
      · simp [hk, e]
      · simp [hk]

/-- Bit 31 - j of word w of a packed sequence is its bit 32·w + j, zero past the end (10_state.md R28). -/
theorem getLsbD_packWord (c : List Bool) (w j : Nat) (hj : j < 32) : (packWord c w).getLsbD (31 - j) = c.getD (32 * w + j) false := by
  unfold packWord
  rw [packWord_foldl c w 32 (Nat.le_refl _)]
  have h1 : 31 - j < 32 := by omega
  have h2 : 32 - 1 - (31 - j) = j := by omega
  rw [h2]
  simp [h1]

/-- Stored bit j of a packed sequence is its bit j, zero past the end (R28). -/
theorem storedBit_packCode (c : List Bool) (j : Nat) (hj : j < 256) : storedBit (packCode c) j = c.getD j false := by
  unfold storedBit packCode
  have hw : j / 32 < 8 := by omega
  rw [Vector.getElem?_eq_getElem hw]
  simp only [Vector.getElem_ofFn]
  rw [getLsbD_packWord _ _ _ (Nat.mod_lt _ (by decide)), show 32 * (j / 32) + j % 32 = j from Nat.div_add_mod j 32]

/-- A sequence packed and read back (R28, 42_tree_builder.md R167). -/
theorem storedBits_packCode (c : List Bool) (hc : c.length ≤ 256) : storedBits (packCode c) c.length = c := by
  refine List.ext_getElem (by simp) fun j h1 h2 => ?_
  have hj : j < c.length := by simpa using h1
  simp [storedBits, storedBit_packCode c j (by omega), List.getD_eq_getElem?_getD, hj]

/-! ## The decode tree -/

/-- A leaf found is a symbol of the table under that codeword (43_code_table.md R205). -/
theorem leafAt_some {s : State} {p : List Bool} {a : Sym} (h : leafAt s p = some a) :
    tableGet s.codeLen a ≠ 0#8 ∧ codeword s a = p := by
  have h1 := List.mem_of_find?_eq_some h
  have h2 := List.find?_some h
  exact ⟨mem_codeAlphabet.mp h1, by simpa using h2⟩

/-- No leaf found: no symbol of the table has that codeword. -/
theorem leafAt_none {s : State} {p : List Bool} (h : leafAt s p = none) (a : Sym) (ha : tableGet s.codeLen a ≠ 0#8) :
    codeword s a ≠ p := by
  have := List.find?_eq_none.mp h a (mem_codeAlphabet.mpr ha)
  simpa using this

/-- A node has a node below it exactly when it is a proper prefix of a codeword (R205). -/
theorem hasNodeBelow_iff {s : State} {p : List Bool} :
    hasNodeBelow s p = true ↔ ∃ a : Sym, tableGet s.codeLen a ≠ 0#8 ∧ p <+: codeword s a ∧ p ≠ codeword s a := by
  simp [hasNodeBelow, mem_codeAlphabet]

/-- The decode tree depends on the code table alone. -/
theorem leafAt_congr {s t : State} (hl : t.codeLen = s.codeLen) (hb : t.codeBits = s.codeBits) (p : List Bool) :
    leafAt t p = leafAt s p := by simp [leafAt, codeword, hl, hb]

theorem hasNodeBelow_congr {s t : State} (hl : t.codeLen = s.codeLen) (hb : t.codeBits = s.codeBits) (p : List Bool) :
    hasNodeBelow t p = hasNodeBelow s p := by simp [hasNodeBelow, codeword, hl, hb]

/-- A path of 255 bits or more has no node below it: no codeword is longer (45_decoder.md R247). -/
theorem hasNodeBelow_long {s : State} {p : List Bool} (h : 255 ≤ p.length) : hasNodeBelow s p = false := by
  rw [Bool.eq_false_iff]
  intro hb
  obtain ⟨a, -, hpre, hne⟩ := hasNodeBelow_iff.mp hb
  have h1 := hpre.length_le
  have h2 := (tableGet s.codeLen a).isLt
  rw [length_codeword] at h1
  exact hne (hpre.eq_of_length (by rw [length_codeword]; omega))

/-- Clashing codewords exist exactly when the table is not prefix-free (43_code_table.md R194). -/
theorem hasClash_iff {s : State} :
    hasClash s = true ↔ ∃ a b : Sym, tableGet s.codeLen a ≠ 0#8 ∧ tableGet s.codeLen b ≠ 0#8 ∧ a ≠ b ∧ codeword s a <+: codeword s b := by
  simp [hasClash, clash, mem_codeAlphabet]

/-- One round of the decoder's walk (45_decoder.md R241). -/
theorem walk_succ (n : Nat) (p : List Bool) (s : State) :
    walk (n + 1) p s =
      if s.decPos = s.decLen then .next (raise .truncatedStream s)
      else
        match s.pbuf.bit? s.decPos.toNat with
        | none => .fault (.unspecifiedBit s.decPos.toNat)
        | some b =>
          match leafAt s (p ++ [b]) with
          | some a => .next { s with decPos := s.decPos + 1#32, result := a.setWidth 32 }
          | none =>
            if hasNodeBelow s (p ++ [b]) then walk n (p ++ [b]) { s with decPos := s.decPos + 1#32 }
            else .next (raise .corruptStream { s with decPos := s.decPos + 1#32 }) := rfl

/-- What the walk can answer from a state with ERR = 0: a symbol, one of the two stream errors, or the fault; and what it leaves alone (R241). -/
theorem walk_cases {n : Nat} {p : List Bool} {s : State} (he : s.err = 0#8) :
    (∃ (a : Sym) (q : BitVec 32), walk n p s = .next { s with decPos := q, result := a.setWidth 32 }) ∨
      (∃ (q : BitVec 32) (c : BitVec 8), (c = 3#8 ∨ c = 4#8) ∧
        walk n p s = .next { s with decPos := q, err := c, encActive := false, decActive := false }) ∨
      ∃ i : Nat, s.pbuf.bit? i = none ∧ walk n p s = .fault (.unspecifiedBit i) := by
  induction n generalizing p s with
  | zero => exact .inr (.inl ⟨s.decPos, 4#8, .inr rfl, by rw [walk, raise_of_noError _ he]; rfl⟩)
  | succ n ih =>
    rw [walk_succ]
    split
    · exact .inr (.inl ⟨s.decPos, 3#8, .inl rfl, by rw [raise_of_noError _ he]; rfl⟩)
    · split
      · rename_i h; exact .inr (.inr ⟨_, h, rfl⟩)
      · split
        · exact .inl ⟨_, _, rfl⟩
        · split
          · exact @ih _ { s with decPos := s.decPos + 1#32 } he
          · exact .inr (.inl ⟨s.decPos + 1#32, 4#8, .inr rfl, by rw [raise_of_noError _ (by exact he)]; rfl⟩)

end Sys2Proof.Machine
end

