-- ==== Sys2Proof/Laws/Builder.lean ====
section
/-! SUPPORT. The small lemmas of the tree builder: the seed, the codes of an alphabet, the tables written from a list of paths, and BUILD's state. -/

namespace Sys2Proof.Machine

@[simp] theorem length_seedFrom (f : Vector Word 256) (q : Nat) (l : List Sym) : (seedFrom f q l).length = l.length := by
  induction l generalizing q with
  | nil => rfl
  | cons a l ih => simp [seedFrom, ih]

@[simp] theorem treeWeight_mergeEntries (q : Nat) (x y : Entry) :
    treeWeight (mergeEntries q x y).node = treeWeight x.node + treeWeight y.node := rfl

@[simp] theorem treePaths_mergeEntries (q : Nat) (x y : Entry) :
    treePaths (mergeEntries q x y).node =
      (treePaths x.node).map (fun z => (z.1, false :: z.2)) ++ (treePaths y.node).map (fun z => (z.1, true :: z.2)) := rfl

/-- Entry a of CODE_LEN after a list of paths that does not name a. -/
theorem tableGet_writeLens_other {a : Sym} {paths : List (Sym × List Bool)} (h : ∀ x ∈ paths, x.1 ≠ a) (l : Vector (BitVec 8) 256) :
    tableGet (writeLens l paths) a = tableGet l a := by
  induction paths generalizing l with
  | nil => rfl
  | cons x paths ih =>
    obtain ⟨b, c⟩ := x
    have hb : b ≠ a := h (b, c) (by simp)
    rw [writeLens, ih fun y hy => h y (by simp [hy])]
    simp [hb.symm]

/-- Entry a of CODE_LEN after a list of paths that names each symbol once, a with path c. -/
theorem tableGet_writeLens {a : Sym} {c : List Bool} {paths : List (Sym × List Bool)} (hn : (paths.map Prod.fst).Nodup)
    (h : (a, c) ∈ paths) (l : Vector (BitVec 8) 256) : tableGet (writeLens l paths) a = BitVec.ofNat 8 c.length := by
  induction paths generalizing l with
  | nil => cases h
  | cons x paths ih =>
    obtain ⟨b, d⟩ := x
    rw [List.map_cons, List.nodup_cons] at hn
    rcases List.mem_cons.mp h with e | h
    · cases e
      rw [writeLens, tableGet_writeLens_other fun y hy e => hn.1 (List.mem_map.mpr ⟨y, hy, e⟩)]
      simp
    · exact ih hn.2 h _

/-- Entry a of CODE_BITS after a list of paths that does not name a. -/
theorem tableGet_writeCodes_other {a : Sym} {paths : List (Sym × List Bool)} (h : ∀ x ∈ paths, x.1 ≠ a)
    (l : Vector (Vector Word 8) 256) : tableGet (writeCodes l paths) a = tableGet l a := by
  induction paths generalizing l with
  | nil => rfl
  | cons x paths ih =>
    obtain ⟨b, c⟩ := x
    have hb : b ≠ a := h (b, c) (by simp)
    rw [writeCodes, ih fun y hy => h y (by simp [hy])]
    simp [hb.symm]

/-- Entry a of CODE_BITS after a list of paths that names each symbol once, a with path c. -/
theorem tableGet_writeCodes {a : Sym} {c : List Bool} {paths : List (Sym × List Bool)} (hn : (paths.map Prod.fst).Nodup)
    (h : (a, c) ∈ paths) (l : Vector (Vector Word 8) 256) : tableGet (writeCodes l paths) a = packCode c := by
  induction paths generalizing l with
  | nil => cases h
  | cons x paths ih =>
    obtain ⟨b, d⟩ := x
    rw [List.map_cons, List.nodup_cons] at hn
    rcases List.mem_cons.mp h with e | h
    · cases e
      rw [writeCodes, tableGet_writeCodes_other fun y hy e => hn.1 (List.mem_map.mpr ⟨y, hy, e⟩)]
      simp
    · exact ih hn.2 h _

/-- The state BUILD leaves for an alphabet that is not empty (42_tree_builder.md R160). -/
theorem installCodes_eq (alphabet : List Sym) (s : State) :
    installCodes alphabet (clearTable s) =
      { s with
        codeLen := writeLens emptyLens (buildCodes s.freq alphabet)
        codeBits := writeCodes emptyBits (buildCodes s.freq alphabet)
        tableValid := true
        alphaSize := BitVec.ofNat 9 alphabet.length
        degen := alphabet.length == 1
        result := BitVec.ofNat 32 alphabet.length } := rfl

end Sys2Proof.Machine
end

