-- ==== Sys2Proof/Laws/PerInstr.lean ====
section
/-! SUPPORT. Statements made command by command about the command as syntax (LAWS.json). -/

namespace Sys2Proof.Laws.EncodingFields

/-- The word of a command has 0 in every bit its format reserves (30_encoding.md R91), its word is in the row of the opcode table that bears its
mnemonic (R94, R99), and its SYM, LEN, W, IDX and DATA fields read back as its operands (R92). -/
def Statement (i : Instr) : Prop :=
  encode i &&& reservedMask (formatOf i) = 0#32 ∧
  (∃ r ∈ opcodeTable, r.mnemonic = mnemonicOf i ∧ encode i &&& r.mask = r.value) ∧
  match i with
  | .freqCount s => symField (encode i) = s
  | .freqSet s => symField (encode i) = s
  | .freqGet s => symField (encode i) = s
  | .tblSetLen s n => symField (encode i) = s ∧ lenField (encode i) = n
  | .tblSetWord s w => symField (encode i) = s ∧ wordIndexField (encode i) = w
  | .tblGetLen s => symField (encode i) = s
  | .tblGetWord s w => symField (encode i) = s ∧ wordIndexField (encode i) = w
  | .encSym s => symField (encode i) = s
  | .pbufWr k v => idxField (encode i) = k ∧ dataField (encode i) = v
  | .pbufRd k => idxField (encode i) = k
  | .nop => True
  | .reset => True
  | .clrErr => True
  | .stop => True
  | .freqClear => True
  | .build => True
  | .tblClear => True
  | .tblCommit => True
  | .encStart => True
  | .encFinish => True
  | .encPos => True
  | .decStart => True
  | .decSym => True
  | .decPos => True

/-! ## Fields and masks of a word put together from its parts -/

theorem and_or (x y m : Word) : (x ||| y) &&& m = x &&& m ||| y &&& m :=
  BitVec.eq_of_getLsbD_eq fun _ _ => by simp [Bool.and_or_distrib_right]

/-- A mask on SYM is a mask on its 8 bits. -/
theorem putSym_and (s : Sym) (m : Word) : putSym s &&& m = putSym (s &&& m.setWidth 8) :=
  BitVec.eq_of_getLsbD_eq fun i hi => by
    unfold putSym
    by_cases h : i < 8
    · simp [hi, h]
    · simp [hi, h, BitVec.getLsbD_of_ge s i (Nat.le_of_not_lt h)]

/-- A mask on a field at bit 8 is a mask on its own bits. -/
theorem putAt8_and {n : Nat} (x : BitVec n) (m : Word) : putAt8 x &&& m = putAt8 (x &&& m.extractLsb' 8 n) :=
  BitVec.eq_of_getLsbD_eq fun i hi => by
    unfold putAt8
    by_cases h : i < 8
    · simp [h]
    · by_cases hn : i - 8 < n
      · have e : 8 + (i - 8) = i := by omega
        simp [hi, h, hn, e]
      · simp [hi, h, BitVec.getLsbD_of_ge x (i - 8) (Nat.le_of_not_lt hn)]

/-- The field of n bits at bit k of a word put together from two parts. -/
theorem extract_or (x y : Word) (k n : Nat) : (x ||| y).extractLsb' k n = x.extractLsb' k n ||| y.extractLsb' k n :=
  BitVec.eq_of_getLsbD_eq fun _ _ => by simp [Bool.and_or_distrib_left]

@[simp] theorem putSym_sym (s : Sym) : (putSym s).extractLsb' 0 8 = s :=
  BitVec.eq_of_getLsbD_eq fun i hi => by
    have : i < 32 := by omega
    simp [putSym, hi, this]

theorem putSym_at8 (s : Sym) (n : Nat) : (putSym s).extractLsb' 8 n = 0#n :=
  BitVec.eq_of_getLsbD_eq fun i _ => by simp [putSym]

theorem putAt8_sym {n : Nat} (x : BitVec n) : (putAt8 x).extractLsb' 0 8 = 0#8 :=
  BitVec.eq_of_getLsbD_eq fun i hi => by simp [putAt8, hi]

theorem putAt8_at8 {n : Nat} (x : BitVec n) (hn : n ≤ 24) : (putAt8 x).extractLsb' 8 n = x :=
  BitVec.eq_of_getLsbD_eq fun i hi => by
    have h1 : 8 + i < 32 := by omega
    simp [putAt8, hi, h1]

theorem putSym_zero : putSym 0#8 = 0#32 := by decide

theorem putAt8_zero (n : Nat) : putAt8 0#n = 0#32 := by simp [putAt8]

/-! ## The statement, command by command -/

theorem nop : Statement .nop := ⟨by decide, ⟨⟨"NOP", 0x00000000#32, 0xFFFFFFFF#32⟩, by simp [opcodeTable], rfl, by decide⟩, trivial⟩

theorem reset : Statement .reset := ⟨by decide, ⟨⟨"RESET", 0x01000000#32, 0xFFFFFFFF#32⟩, by simp [opcodeTable], rfl, by decide⟩, trivial⟩

theorem clrErr : Statement .clrErr := ⟨by decide, ⟨⟨"CLR_ERR", 0x02000000#32, 0xFFFFFFFF#32⟩, by simp [opcodeTable], rfl, by decide⟩, trivial⟩

theorem stop : Statement .stop := ⟨by decide, ⟨⟨"STOP", 0x03000000#32, 0xFFFFFFFF#32⟩, by simp [opcodeTable], rfl, by decide⟩, trivial⟩

theorem freqClear : Statement .freqClear := ⟨by decide, ⟨⟨"FREQ_CLEAR", 0x10000000#32, 0xFFFFFFFF#32⟩, by simp [opcodeTable], rfl, by decide⟩, trivial⟩

theorem freqCount (s : Sym) : Statement (.freqCount s) :=
  ⟨by simp [encode, reservedMask, formatOf, and_or, putSym_and, putSym_zero],
    ⟨⟨"FREQ_COUNT", 0x11000000#32, 0xFFFFFF00#32⟩, by simp [opcodeTable], rfl, by simp [encode, and_or, putSym_and, putSym_zero]⟩,
    by simp [symField, encode, extract_or]⟩

theorem freqSet (s : Sym) : Statement (.freqSet s) :=
  ⟨by simp [encode, reservedMask, formatOf, and_or, putSym_and, putSym_zero],
    ⟨⟨"FREQ_SET", 0x12000000#32, 0xFFFFFF00#32⟩, by simp [opcodeTable], rfl, by simp [encode, and_or, putSym_and, putSym_zero]⟩,
    by simp [symField, encode, extract_or]⟩

theorem freqGet (s : Sym) : Statement (.freqGet s) :=
  ⟨by simp [encode, reservedMask, formatOf, and_or, putSym_and, putSym_zero],
    ⟨⟨"FREQ_GET", 0x13000000#32, 0xFFFFFF00#32⟩, by simp [opcodeTable], rfl, by simp [encode, and_or, putSym_and, putSym_zero]⟩,
    by simp [symField, encode, extract_or]⟩

theorem build : Statement .build := ⟨by decide, ⟨⟨"BUILD", 0x18000000#32, 0xFFFFFFFF#32⟩, by simp [opcodeTable], rfl, by decide⟩, trivial⟩

theorem tblClear : Statement .tblClear := ⟨by decide, ⟨⟨"TBL_CLEAR", 0x20000000#32, 0xFFFFFFFF#32⟩, by simp [opcodeTable], rfl, by decide⟩, trivial⟩

theorem tblSetLen (s : Sym) (n : BitVec 8) : Statement (.tblSetLen s n) :=
  ⟨by simp [encode, reservedMask, formatOf, and_or, putSym_and, putAt8_and, putSym_zero, putAt8_zero],
    ⟨⟨"TBL_SET_LEN", 0x21000000#32, 0xFFFF0000#32⟩, by simp [opcodeTable], rfl, by simp [encode, and_or, putSym_and, putAt8_and, putSym_zero, putAt8_zero]⟩,
    by simp [symField, encode, extract_or, putAt8_sym], by simp [lenField, encode, extract_or, putSym_at8, putAt8_at8]⟩

theorem tblSetWord (s : Sym) (w : BitVec 3) : Statement (.tblSetWord s w) :=
  ⟨by simp [encode, reservedMask, formatOf, and_or, putSym_and, putAt8_and, putSym_zero, putAt8_zero],
    ⟨⟨"TBL_SET_WORD", 0x22000000#32, 0xFFFFF800#32⟩, by simp [opcodeTable], rfl, by simp [encode, and_or, putSym_and, putAt8_and, putSym_zero, putAt8_zero]⟩,
    by simp [symField, encode, extract_or, putAt8_sym], by simp [wordIndexField, encode, extract_or, putSym_at8, putAt8_at8]⟩

theorem tblCommit : Statement .tblCommit := ⟨by decide, ⟨⟨"TBL_COMMIT", 0x23000000#32, 0xFFFFFFFF#32⟩, by simp [opcodeTable], rfl, by decide⟩, trivial⟩

theorem tblGetLen (s : Sym) : Statement (.tblGetLen s) :=
  ⟨by simp [encode, reservedMask, formatOf, and_or, putSym_and, putSym_zero],
    ⟨⟨"TBL_GET_LEN", 0x24000000#32, 0xFFFFFF00#32⟩, by simp [opcodeTable], rfl, by simp [encode, and_or, putSym_and, putSym_zero]⟩,
    by simp [symField, encode, extract_or]⟩

theorem tblGetWord (s : Sym) (w : BitVec 3) : Statement (.tblGetWord s w) :=
  ⟨by simp [encode, reservedMask, formatOf, and_or, putSym_and, putAt8_and, putSym_zero, putAt8_zero],
    ⟨⟨"TBL_GET_WORD", 0x25000000#32, 0xFFFFF800#32⟩, by simp [opcodeTable], rfl, by simp [encode, and_or, putSym_and, putAt8_and, putSym_zero, putAt8_zero]⟩,
    by simp [symField, encode, extract_or, putAt8_sym], by simp [wordIndexField, encode, extract_or, putSym_at8, putAt8_at8]⟩

theorem encStart : Statement .encStart := ⟨by decide, ⟨⟨"ENC_START", 0x30000000#32, 0xFFFFFFFF#32⟩, by simp [opcodeTable], rfl, by decide⟩, trivial⟩

theorem encSym (s : Sym) : Statement (.encSym s) :=
  ⟨by simp [encode, reservedMask, formatOf, and_or, putSym_and, putSym_zero],
    ⟨⟨"ENC_SYM", 0x31000000#32, 0xFFFFFF00#32⟩, by simp [opcodeTable], rfl, by simp [encode, and_or, putSym_and, putSym_zero]⟩,
    by simp [symField, encode, extract_or]⟩

theorem encFinish : Statement .encFinish := ⟨by decide, ⟨⟨"ENC_FINISH", 0x32000000#32, 0xFFFFFFFF#32⟩, by simp [opcodeTable], rfl, by decide⟩, trivial⟩

theorem encPos : Statement .encPos := ⟨by decide, ⟨⟨"ENC_POS", 0x33000000#32, 0xFFFFFFFF#32⟩, by simp [opcodeTable], rfl, by decide⟩, trivial⟩

theorem decStart : Statement .decStart := ⟨by decide, ⟨⟨"DEC_START", 0x40000000#32, 0xFFFFFFFF#32⟩, by simp [opcodeTable], rfl, by decide⟩, trivial⟩

theorem decSym : Statement .decSym := ⟨by decide, ⟨⟨"DEC_SYM", 0x41000000#32, 0xFFFFFFFF#32⟩, by simp [opcodeTable], rfl, by decide⟩, trivial⟩

theorem decPos : Statement .decPos := ⟨by decide, ⟨⟨"DEC_POS", 0x42000000#32, 0xFFFFFFFF#32⟩, by simp [opcodeTable], rfl, by decide⟩, trivial⟩

theorem pbufWr (k : BitVec 16) (v : Byte) : Statement (.pbufWr k v) :=
  ⟨by simp [encode, reservedMask, formatOf],
    ⟨⟨"PBUF_WR", 0x50000000#32, 0xFF000000#32⟩, by simp [opcodeTable], rfl, by simp [encode, and_or, putSym_and, putAt8_and, putSym_zero, putAt8_zero]⟩,
    by simp [idxField, encode, extract_or, putSym_at8, putAt8_at8], by simp [dataField, encode, extract_or, putAt8_sym]⟩

theorem pbufRd (k : BitVec 16) : Statement (.pbufRd k) :=
  ⟨by simp [encode, reservedMask, formatOf, and_or, putAt8_and, putAt8_zero],
    ⟨⟨"PBUF_RD", 0x51000000#32, 0xFF0000FF#32⟩, by simp [opcodeTable], rfl, by simp [encode, and_or, putAt8_and, putAt8_zero]⟩,
    by simp [idxField, encode, extract_or, putAt8_at8]⟩

end Sys2Proof.Laws.EncodingFields
end

