-- ==== Sys2Proof/Tests/Slice0.lean ====
section
/-! SUPPORT. The model's own tests: ill-formed lines refused, words decoded, one or two single steps a command with the results of
spec/95_test_vectors.md, and a witness for the hypotheses of each statement. -/

namespace Sys2Proof.Tests

set_option Elab.async false

open Sys2Proof.Machine

/-! ## Helpers -/

/-- The outcome is a next state of which P holds. -/
def answers (o : Out) (P : State → Bool) : Bool :=
  match o with
  | .next t => P t
  | .fault _ => false
  | .refused _ => false

theorem exists_of_answers {o : Out} {P : State → Bool} (h : answers o P = true) : ∃ t, o = .next t ∧ P t = true := by
  cases o with
  | next t => exact ⟨t, rfl, h⟩
  | fault f => cases h
  | refused r => cases h

/-- The outcome is this fault. -/
def faults (o : Out) (f : Fault) : Bool :=
  match o with
  | .next _ => false
  | .fault g => g == f
  | .refused _ => false

/-- The outcome is this refusal. -/
def refuses (o : Out) (r : Refusal) : Bool :=
  match o with
  | .next _ => false
  | .fault _ => false
  | .refused q => q == r

/-- One step in which the host writes a word to CMD. -/
def send (s : State) (w : Word) : Out := step (queueCommand s w)

/-- A state with these counts. -/
def withFreq (s : State) : List (Sym × Word) → State
  | [] => s
  | (a, n) :: rest => withFreq (s.setFreq (tableSet s.freq a n)) rest

/-- A state whose table holds these codewords, marked valid. -/
def withCodes (s : State) (codes : List (Sym × List Bool)) : State :=
  validateTable codes.length (s.setTable (codes.foldl (fun l x => tableSet l x.1 (BitVec.ofNat 8 x.2.length)) s.codeLen)
    (codes.foldl (fun l x => tableSet l x.1 (packCode x.2)) s.codeBits))

def bits (s : List Nat) : List Bool := s.map (· == 1)

/-- PBUF_BYTES = n + 1. -/
def withLast (s : State) (n : Fin 65536) : State := { s with params := { s.params with pbufLast := n } }

/-- The golden counts of V-B1. -/
def goldenFreq : State := withFreq State.reset [(0x61, 5), (0x62, 9), (0x63, 12), (0x64, 13), (0x65, 16), (0x66, 45)]

/-- The golden table of 95_test_vectors.md. -/
def golden : State :=
  withCodes State.reset [(0x61, bits [1, 1, 0, 0]), (0x62, bits [1, 1, 0, 1]), (0x63, bits [1, 0, 0]), (0x64, bits [1, 0, 1]),
    (0x65, bits [1, 1, 1]), (0x66, bits [0])]

/-- The table a = 0, b = 1. -/
def two : State := withCodes State.reset [(0x61, [false]), (0x62, [true])]

/-- The incomplete table a = 00. -/
def sparse : State := withCodes State.reset [(0x61, [false, false])]

/-- An encode session open at payload bit n. -/
def encoding (s : State) (n : Nat) : State := s.setEnc true (BitVec.ofNat 32 n)

/-- A decode session of n bits open at payload bit 0. -/
def decoding (s : State) (n : Nat) : State := s.setDec true 0 (BitVec.ofNat 32 n)

/-- PBUF with its first bits written. -/
def holding (s : State) (b : List Nat) : State := s.setPbuf (s.pbuf.writeBits 0 (bits b))

/-- A state with an error latched. -/
def failed (s : State) (e : BitVec 8) : State := s.setErr e

/-! ## WellFormed: an ill-formed line for each check (30_encoding.md R92, R100) -/

theorem test_wf_sym : (Line.freqCount (.num 256)).error = some .symRange := by decide
theorem test_wf_len : (Line.tblSetLen (.chr 'a') 256).error = some .lenRange := by decide
theorem test_wf_loadCode_len : (Line.loadCode (.chr 'a') (List.replicate 256 true)).error = some .lenRange := by decide +kernel
theorem test_wf_wordIndex : (Line.tblGetWord (.chr 'a') 8).error = some .wordIndexRange := by decide
theorem test_wf_idx : (Line.pbufRd 65536).error = some .idxRange := by decide
theorem test_wf_data : (Line.pbufWr 0 256).error = some .dataRange := by decide
theorem test_wf_value : (Line.wrArg 4294967296).error = some .valueRange := by decide
theorem test_wf_accepts : (Line.pbufWr 65535 255).wellFormed = true ∧ (Line.tblSetLen (.chr 'a') 255).wellFormed = true := by decide

/-- LOADCODE 'a',"1100" of P4: 0x21000461; ARG 0xC0000000; 0x22000061. -/
theorem test_assemble_loadCode :
    assembleLine Params.default (.loadCode (.chr 'a') [true, true, false, false]) =
      .ok [.write .word 0 0x21000461#32, .write .word 4 0xC0000000#32, .write .word 0 0x22000061#32] := by decide +kernel

/-! ## Decoding: a word for each command, written out from R91 and R94 as OPC and fields in binary -/

theorem test_decode_nop : decode 0b00000000000000000000000000000000#32 = .ok .nop := by decide
theorem test_decode_reset : decode 0b00000001000000000000000000000000#32 = .ok .reset := by decide
theorem test_decode_clrErr : decode 0b00000010000000000000000000000000#32 = .ok .clrErr := by decide
theorem test_decode_stop : decode 0b00000011000000000000000000000000#32 = .ok .stop := by decide
theorem test_decode_freqClear : decode 0b00010000000000000000000000000000#32 = .ok .freqClear := by decide
theorem test_decode_freqCount : decode 0b00010001000000000000000001100001#32 = .ok (.freqCount 0x61#8) := by decide
theorem test_decode_freqSet : decode 0b00010010000000000000000001100110#32 = .ok (.freqSet 0x66#8) := by decide
theorem test_decode_freqGet : decode 0b00010011000000000000000011111111#32 = .ok (.freqGet 0xFF#8) := by decide
theorem test_decode_build : decode 0b00011000000000000000000000000000#32 = .ok .build := by decide
theorem test_decode_tblClear : decode 0b00100000000000000000000000000000#32 = .ok .tblClear := by decide
theorem test_decode_tblSetLen : decode 0b00100001000000000010000101100001#32 = .ok (.tblSetLen 0x61#8 33#8) := by decide
theorem test_decode_tblSetWord : decode 0b00100010000000000000011101100001#32 = .ok (.tblSetWord 0x61#8 7#3) := by decide
theorem test_decode_tblCommit : decode 0b00100011000000000000000000000000#32 = .ok .tblCommit := by decide
theorem test_decode_tblGetLen : decode 0b00100100000000000000000001100111#32 = .ok (.tblGetLen 0x67#8) := by decide
theorem test_decode_tblGetWord : decode 0b00100101000000000000000101100001#32 = .ok (.tblGetWord 0x61#8 1#3) := by decide
theorem test_decode_encStart : decode 0b00110000000000000000000000000000#32 = .ok .encStart := by decide
theorem test_decode_encSym : decode 0b00110001000000000000000001100001#32 = .ok (.encSym 0x61#8) := by decide
theorem test_decode_encFinish : decode 0b00110010000000000000000000000000#32 = .ok .encFinish := by decide
theorem test_decode_encPos : decode 0b00110011000000000000000000000000#32 = .ok .encPos := by decide
theorem test_decode_decStart : decode 0b01000000000000000000000000000000#32 = .ok .decStart := by decide
theorem test_decode_decSym : decode 0b01000001000000000000000000000000#32 = .ok .decSym := by decide
theorem test_decode_decPos : decode 0b01000010000000000000000000000000#32 = .ok .decPos := by decide
theorem test_decode_pbufWr : decode 0b01010000000000010000001001101110#32 = .ok (.pbufWr 0x0102#16 0x6E#8) := by decide
theorem test_decode_pbufRd : decode 0b01010001100000000000001000000000#32 = .ok (.pbufRd 0x8002#16) := by decide
/-- Bit 11 of format SW is reserved (R91, R94). -/
theorem test_decode_reserved : decode 0b00100101000000000000100001100001#32 = .error .reservedBits := by decide
theorem test_decode_unassigned : decode 0xFF000000#32 = .error .unassignedOpcode := by decide

/-! ## Single steps, with the results of spec/95_test_vectors.md -/

/-- V-C5, V-C6. -/
theorem test_illegal : answers (send State.reset 0x04000000#32) (fun t => status t == 0x0000000A#32) ∧
    answers (send State.reset 0x00000001#32) (fun t => status t == 0x0000000A#32) := by decide +kernel
/-- V-C1. -/
theorem test_nop : answers (send golden 0x00000000#32) (fun t => status t == 0x00060100#32 && t.result == golden.result && t.reads == []) := by decide +kernel
/-- V-C2: PBUF is kept and FREQ cleared. -/
theorem test_reset : answers (send (holding (failed goldenFreq 4#8) [0, 1, 1, 0, 0, 1, 0, 0]) 0x01000000#32)
    (fun t => status t == 0#32 && t.pbuf.byte? 0 == some 0x64#8 && tableGet t.freq 0x66#8 == 0#32) := by decide +kernel
/-- V-C3. -/
theorem test_clrErr : answers (send (failed State.reset 2#8) 0x02000000#32) (fun t => t.err == 0#8 && !t.encActive) := by decide +kernel
/-- V-C9. -/
theorem test_stop : answers (send (two.setDec true 23 23) 0x03000000#32) (fun t => !t.decActive && t.decPos == 23#32) := by decide +kernel
/-- R141's example. -/
theorem test_freqClear : answers (send goldenFreq 0x10000000#32) (fun t => symbols.all fun a => tableGet t.freq a == 0#32) := by decide +kernel
/-- V-F1. -/
theorem test_freqCount : answers (send (withFreq State.reset [(0x61, 4)]) 0x11000061#32)
    (fun t => tableGet t.freq 0x61#8 == 5#32 && tableGet t.freq 0x62#8 == 0#32) := by decide +kernel
/-- V-F2. -/
theorem test_freqCount_overflow : answers (send (withFreq State.reset [(0x41, 0xFFFFFFFF)]) 0x11000041#32)
    (fun t => status t == 0x00000007#32 && tableGet t.freq 0x41#8 == 0xFFFFFFFF#32) := by decide +kernel
/-- R143's example. -/
theorem test_freqSet : answers (send (State.reset.setArg 45) 0x12000066#32) (fun t => tableGet t.freq 0x66#8 == 45#32) := by decide +kernel
/-- V-F4. -/
theorem test_freqGet : answers (send (failed (withFreq State.reset [(0x41, 0xFFFFFFFF)]) 7#8) 0x13000041#32)
    (fun t => t.result == 0xFFFFFFFF#32) := by decide +kernel
/-- V-B1. -/
theorem test_build_golden : answers (send goldenFreq 0x18000000#32)
    (fun t => t.result == 6#32 && status t == 0x00060100#32 && [0x61, 0x62, 0x63, 0x64, 0x65, 0x66].all (fun a => codeword t a == codeword golden a)) := by
  decide +kernel
/-- V-B2: at equal weight the leaf leaves before the later internal node. -/
theorem test_build_tie : answers (send (withFreq State.reset [(0x61, 1), (0x62, 1), (0x63, 2)]) 0x18000000#32)
    (fun t => codeword t 0x63 == [false] && codeword t 0x61 == [true, false] && codeword t 0x62 == [true, true]) := by decide +kernel
/-- R191's example. -/
theorem test_tblClear : answers (send golden 0x20000000#32) (fun t => status t == 0#32 && tableGet t.codeLen 0x61#8 == 0#8 && wordGet (tableGet t.codeBits 0x61#8) 0#3 == 0#32) := by decide +kernel
/-- V-T9: SEQUENCE closes the session and the table stays. -/
theorem test_tblSetLen_session : answers (send (decoding golden 0) 0x21000261#32)
    (fun t => status t == 0x0006010B#32 && tableGet t.codeLen 0x61#8 == 4#8) := by decide +kernel
/-- R192's example. -/
theorem test_tblSetLen : answers (send golden 0x21000461#32) (fun t => status t == 0#32 && tableGet t.codeLen 0x61#8 == 4#8) := by
  decide +kernel
/-- R193's example. -/
theorem test_tblSetWord : answers (send ((sparse.setArg 0xC0000000).setTable (tableSet emptyLens 0x61 4) emptyBits) 0x22000061#32)
    (fun t => codeword t 0x61 == [true, true, false, false] && !t.tableValid) := by decide +kernel
/-- V-T3: 0 is a prefix of 01. -/
theorem test_tblCommit_clash : answers (send (withCodes State.reset [(0x61, [false]), (0x62, [false, true])]) 0x23000000#32)
    (fun t => status t == 0x00000005#32) := by decide +kernel
/-- V-T10: one symbol, codeword 1, sets DEGEN. -/
theorem test_tblCommit_one : answers (send (withCodes State.reset [(0x78, [true])]) 0x23000000#32)
    (fun t => t.result == 1#32 && status t == 0x00010300#32) := by decide +kernel
/-- V-T8, V-T11. -/
theorem test_tblGetLen : answers (send golden 0x24000061#32) (fun t => t.result == 4#32) ∧
    answers (send golden 0x24000067#32) (fun t => t.result == 0#32) := by decide +kernel
/-- V-T11. -/
theorem test_tblGetWord : answers (send golden 0x25000061#32) (fun t => t.result == 0xC0000000#32) := by decide +kernel
/-- R220's example, and V-E4. -/
theorem test_encStart : answers (send golden 0x30000000#32) (fun t => status t == 0x00060500#32 && t.encPos == 0#32) ∧
    answers (send State.reset 0x30000000#32) (fun t => status t == 0x00000006#32) := by decide +kernel
/-- R221's example. -/
theorem test_encSym : answers (send (encoding golden 0) 0x31000061#32)
    (fun t => t.encPos == 4#32 && (List.range 5).map t.pbuf.bit? == [some true, some true, some false, some false, none]) := by decide +kernel
/-- V-E6: the ninth bit of a one-byte buffer. -/
theorem test_encSym_full : answers (send (encoding (withLast (withCodes State.reset [(0x61, [false])]) 0) 8) 0x31000061#32)
    (fun t => status t == 0x00010309#32 && t.encPos == 8#32 && t.pbuf == Payload.unspecified) := by decide +kernel
/-- R222's example: 11 bits 01100100111. -/
theorem test_encFinish : answers (send (encoding (holding golden [0, 1, 1, 0, 0, 1, 0, 0, 1, 1, 1]) 11) 0x32000000#32)
    (fun t => t.result == 11#32 && t.pbuf.byte? 0 == some 0x64#8 && t.pbuf.byte? 1 == some 0xE0#8 && !t.encActive) := by decide +kernel
/-- V-E10. -/
theorem test_encPos : answers (send (golden.setEnc false 11) 0x33000000#32) (fun t => t.result == 11#32) := by decide +kernel
/-- V-D6: 33 bits of a four-byte buffer raise RANGE, 32 do not. -/
theorem test_decStart : answers (send (withLast (two.setArg 33) 3) 0x40000000#32) (fun t => status t == 0x00020108#32) ∧
    answers (send (withLast (two.setArg 32) 3) 0x40000000#32) (fun t => status t == 0x00020900#32 && t.decLen == 32#32) := by decide +kernel
/-- V-B2's table c = 0, a = 10, b = 11: the bits 0 11 from payload bit 1 give b. -/
theorem test_decSym : answers
    (send ((holding (withCodes State.reset [(0x63, [false]), (0x61, [true, false]), (0x62, [true, true])]) [0, 1, 1]).setDec true 1 3) 0x41000000#32)
    (fun t => t.result == 0x62#32 && t.decPos == 3#32) := by decide +kernel
/-- V-D4 and V-D11. -/
theorem test_decSym_stops : answers (send (decoding (holding (withCodes State.reset [(0x61, [false])]) [1]) 1) 0x41000000#32)
    (fun t => status t == 0x00010304#32 && t.decPos == 1#32) ∧
    faults (send (decoding golden 1) 0x41000000#32) (.unspecifiedBit 0) := by decide +kernel
/-- R242. -/
theorem test_decPos : answers (send (golden.setDec false 3 4) 0x42000000#32) (fun t => t.result == 3#32) := by decide +kernel
/-- V-P7, V-P2. -/
theorem test_pbufWr : answers (send State.reset 0x5000006E#32)
    (fun t => (List.range 8).map t.pbuf.bit? == (bits [0, 1, 1, 0, 1, 1, 1, 0]).map some) ∧
    answers (send (withLast State.reset 3) 0x50000400#32) (fun t => status t == 0x00000008#32) := by decide +kernel
/-- V-P4, V-P5. -/
theorem test_pbufRd : answers (send (encoding (withLast two 3) 0) 0x51000400#32) (fun t => status t == 0x00020108#32) ∧
    faults (send State.reset 0x51000500#32) (.unspecifiedByte 5) := by decide +kernel
/-- R63: a half-word access and a misaligned one. -/
theorem test_refused_accesses :
    refuses (step (State.reset.setPending [.read .half 4])) .narrowAccess ∧
    refuses (step (State.reset.setPending [.write .word 2 0#32])) .misalignedAccess := by decide +kernel
/-- R61, R62: STATUS and a reserved offset. -/
theorem test_reads : answers (step (golden.setPending [.read .word 0x0C])) (fun t => t.reads == [0x00060100#32]) ∧
    answers (step (golden.setPending [.read .word 0xFC])) (fun t => t.reads == [0#32]) := by decide +kernel
/-- The host's question: step runs the table's word as the first command after reset. -/
theorem test_withFetchWord : answers (step (State.reset.withFetchWord 32 0x11000061)) (fun t => tableGet t.freq 0x61#8 == 1#32) := by
  decide +kernel

/-! ## Witnesses: for each statement with hypotheses, states and operands that meet them, at boundary values where a clause has a range -/

/-- The invariant's clauses about sessions, positions, error and payload. -/
abbrev InvParts (s : State) : Prop :=
  (s.err ≠ 0#8 → s.encActive = false ∧ s.decActive = false) ∧ ¬ (s.encActive = true ∧ s.decActive = true) ∧
    s.encPos.toNat ≤ s.params.pbufBits ∧ (s.decPos.toNat ≤ s.decLen.toNat ∧ s.decLen.toNat ≤ s.params.pbufBits) ∧ s.err.toNat ≤ 11 ∧
    s.pbuf.wf s.params.pbufBytes

/-- The invariant's clauses about a valid table. -/
abbrev ValidParts (s : State) : Prop :=
  s.tableValid = true ∧ s.alphaSize.toNat = codeCount s ∧ 1 ≤ codeCount s ∧ (s.degen = true ↔ codeCount s = 1)

theorem inv_of_parts {s : State} (h : InvParts s) (v : ValidParts s) (p : PrefixFree s) : Inv s :=
  let ⟨h1, h2, h3, h4, h5, h6⟩ := h
  let ⟨v1, v2, v3, v4⟩ := v
  ⟨h1, h2, fun _ => v1, fun f => absurd v1 (by simp [f]), fun _ => ⟨v2, v3⟩, fun _ => v4, fun _ => p, h3, h4, h5, h6⟩

/-- ERR = 0 and no session. -/
abbrev Idle (s : State) : Prop := s.err = 0#8 ∧ s.encActive = false ∧ s.decActive = false

/-- A state with ERR = 11. -/
def stuck : State := failed State.reset 11#8

/-! ### Encoding, steps and accesses -/

theorem witness_LegalWordIsItsEncoding : decode 0x51FFFF00#32 = .ok (.pbufRd 0xFFFF#16) := by decide
theorem witness_OpcodeTableDecides : decode 0x51FFFF00#32 = .ok (.pbufRd 0xFFFF#16) ∧
    (⟨"PBUF_RD", 0x51000000#32, 0xFF0000FF#32⟩ : OpcodeRow) ∈ opcodeTable ∧ 0x51FFFF00#32 &&& 0xFF0000FF#32 = 0x51000000#32 := by decide
theorem witness_IllegalWordsRaiseIllegalCmd : IllegalByR95 0x04000000#32 ∧ IllegalByR95 0xFFFFFFFF#32 ∧ IllegalByR95 0x51000001#32 ∧
    ¬ IllegalByR95 0x03000000#32 ∧ State.reset.err = 0#8 ∧ stuck.err ≠ 0#8 :=
  ⟨by decide, by decide, by decide, by decide, by decide +kernel, by decide +kernel⟩
theorem witness_StepRunsDecodedCommand : (queueCommand two 0x18000000#32).pending = .write .word two.params.base 0x18000000#32 :: [] ∧
    decode 0x18000000#32 = .ok .build := by decide +kernel
theorem witness_RegisterWindowAccesses : (252 < 256 ∧ 252 % 4 = 0) ∧
    (two.setPending [.read .word (two.params.base + 252)]).pending = .read .word (two.params.base + 252) :: [] ∧
    (two.setPending [.write .word (two.params.base + 0) 7#32]).pending = .write .word (two.params.base + 0) 7#32 :: [] ∧
    (two.setPending [.write .word (two.params.base + 4) 7#32]).pending = .write .word (two.params.base + 4) 7#32 :: [] ∧
    (two.setPending [.write .word (two.params.base + 8) 7#32]).pending = .write .word (two.params.base + 8) 7#32 :: [] := by decide +kernel
theorem witness_UndefinedAccessesRefused : 255 < 256 ∧
    (two.setPending [.write .word (two.params.base + 255) 0#32]).pending = .write .word (two.params.base + 255) 0#32 :: [] ∧
    (two.setPending [.read .byte (two.params.base + 0)]).pending = .read .byte (two.params.base + 0) :: [] := by decide +kernel
theorem witness_PowerOnResetEvent : (two.setPending [.powerOnReset]).pending = .powerOnReset :: [] := by decide +kernel

/-! ### Errors, the gate and the sessions -/

theorem witness_RaiseLatchesFirstError : (ErrCode.sequence, 11#8) ∈ [(ErrCode.emptyAlphabet, 1#8), (ErrCode.sequence, 11#8)] ∧
    State.reset.err = 0#8 ∧ stuck.err ≠ 0#8 := by decide +kernel
theorem witness_GateClasses : Instr.build.gateClass = .gated ∧ stuck.err ≠ 0#8 ∧
    (∃ t, exec (.pbufRd 4095#16) { two with pbuf := two.pbuf.writeByte 4095 1#8 } = .next t ∧ true = true) ∧
    ∃ t, exec (.pbufRd 4096#16) two = .next t ∧ (t.err == 8#8) = true :=
  ⟨by decide, by decide +kernel, exists_of_answers (P := fun _ => true) (by decide +kernel),
    exists_of_answers (P := fun t => t.err == 8#8) (by decide +kernel)⟩
theorem witness_SessionNeedsCheckedFirst : State.reset.err = 0#8 ∧ ¬ sessionMet State.reset (sessionNeed .decSym) ∧
    sessionMet (decoding two 1) (sessionNeed .decSym) ∧ ∃ t, exec .stop State.reset = .next t ∧ true = true :=
  ⟨by decide +kernel, by simp [sessionMet, sessionNeed, State.reset], by simp [sessionMet, sessionNeed, decoding],
    exists_of_answers (P := fun _ => true) (by decide +kernel)⟩
theorem witness_SessionFreezesTable : (encoding two 0).encActive = true ∧ ∃ t, exec .tblClear (encoding two 0) = .next t ∧ (t.err == 11#8) = true :=
  ⟨by decide +kernel, exists_of_answers (P := fun t => t.err == 11#8) (by decide +kernel)⟩

/-! ### Control and frequency commands -/

theorem witness_NopCommand : (0x00FFFFFF#32 >>> 24).toNat = 0 ∧ 0x00FFFFFF#32 ≠ 0#32 ∧ State.reset.err = 0#8 := by decide +kernel
theorem witness_StopCommand : (decoding two 1).err = 0#8 ∧ stuck.err ≠ 0#8 := by decide +kernel
theorem witness_FreqClearCommand : stuck.err ≠ 0#8 ∧ Idle goldenFreq := by decide +kernel
theorem witness_FreqCountCommand : stuck.err ≠ 0#8 ∧
    (State.reset.err = 0#8 ∧ tableGet (withFreq State.reset [(0xFF, 0xFFFFFFFF)]).freq 0xFF#8 = 0xFFFFFFFF#32) ∧
    (State.reset.err = 0#8 ∧ tableGet (withFreq State.reset [(0xFF, 0xFFFFFFFE)]).freq 0xFF#8 ≠ 0xFFFFFFFF#32) := by decide +kernel
theorem witness_FreqSetCommand : stuck.err ≠ 0#8 ∧ State.reset.err = 0#8 ∧ State.reset.arg = 0#32 := by decide +kernel
theorem witness_CountingPassCountsOccurrences : State.reset.err = 0#8 ∧ (∀ a, [0x61#8, 0x62#8, 0x61#8].count a < 2 ^ 32) ∧
    [0x61#8, 0x61#8, 0x62#8].Perm [0x61#8, 0x62#8, 0x61#8] :=
  ⟨by decide +kernel, fun _ => Nat.lt_of_le_of_lt List.count_le_length (by decide), by decide⟩

/-! ### Tree builder -/

/-- Three counts, two of them least. -/
def three : State := withFreq State.reset [(0x61, 1), (0x62, 1), (0x63, 2)]

theorem three_alphabet : freqAlphabet three.freq = [0x61#8, 0x62#8, 0x63#8] := by decide +kernel
theorem witness_BuildRefusals : stuck.err ≠ 0#8 ∧ ((encoding two 0).err = 0#8 ∧ (encoding two 0).encActive = true) ∧
    (Idle two ∧ ∀ a : Sym, tableGet two.freq a = 0#32) := by decide +kernel
theorem witness_BuildGivesCompletePrefixCode : (Idle three ∧ freqAlphabet three.freq ≠ [] ∧ 2 ≤ (freqAlphabet three.freq).length) ∧
    (freqAlphabet (withFreq State.reset [(0xFF, 1)]).freq).length = 1 := by decide +kernel
theorem witness_BuildCodewordsAreTreePaths : Idle three ∧ freqAlphabet three.freq = 0x61#8 :: 0x62#8 :: [0x63#8] := by decide +kernel
theorem witness_PopminTakesLeastKey :
    popMin (leafEntry three.freq 0x63 2) [leafEntry three.freq 0x61 0, leafEntry three.freq 0x62 1] =
      (leafEntry three.freq 0x61 0, [leafEntry three.freq 0x63 2, leafEntry three.freq 0x62 1]) ∧
    ([leafEntry three.freq 0x63 2, leafEntry three.freq 0x61 0, leafEntry three.freq 0x62 1].map Entry.seq).Nodup := by decide +kernel
theorem witness_BuildWeightsNeverOverflow : freqAlphabet three.freq = 0x61#8 :: [0x62#8, 0x63#8] := by decide +kernel
theorem witness_BuildDependsOnFreqOnly : three.freq = (encoding three 5 |>.setEnc false 5).freq ∧
    (∃ t, exec .build three = .next t ∧ (t.err == 0#8) = true) ∧ ∃ t, exec .build (encoding three 5 |>.setEnc false 5) = .next t ∧ (t.err == 0#8) = true :=
  ⟨rfl, exists_of_answers (P := fun t => t.err == 0#8) (by decide +kernel), exists_of_answers (P := fun t => t.err == 0#8) (by decide +kernel)⟩
theorem witness_BuiltTreesHaveBothEdges : Idle three ∧ 2 ≤ (freqAlphabet three.freq).length ∧
    ∃ t, exec .build three = .next t ∧ decide (InnerNode t [true]) = true :=
  ⟨by decide +kernel, by decide +kernel, exists_of_answers (P := fun t => decide (InnerNode t [true])) (by decide +kernel)⟩
/-- The other code: all three codewords two bits long. -/
def otherCode (a : Sym) : List Bool := [a == 0x61#8, a == 0x62#8]
theorem witness_BuildIsOptimal : Idle three ∧ 2 ≤ (freqAlphabet three.freq).length ∧
    (∃ t, exec .build three = .next t ∧ true = true) ∧
    (∀ a ∈ freqAlphabet three.freq, ∀ b ∈ freqAlphabet three.freq, a ≠ b → ¬ otherCode a <+: otherCode b) ∧
    freqAlphabet (withFreq State.reset [(0xFF, 1)]).freq = [0xFF#8] :=
  ⟨by decide +kernel, by decide +kernel, exists_of_answers (P := fun _ => true) (by decide +kernel), by decide +kernel, by decide +kernel⟩

/-! ### Code table -/

theorem witness_TblClearCommand : stuck.err ≠ 0#8 ∧ ((decoding two 0).err = 0#8 ∧ (decoding two 0).decActive = true) ∧ Idle two := by decide +kernel
theorem witness_TblSetLenCommand : stuck.err ≠ 0#8 ∧ ((decoding two 0).err = 0#8 ∧ (decoding two 0).decActive = true) ∧ Idle two := by decide +kernel
theorem witness_TblSetWordCommand : stuck.err ≠ 0#8 ∧ ((encoding two 0).err = 0#8 ∧ (encoding two 0).encActive = true) ∧ Idle two := by decide +kernel
/-- The table a = 0, b = 01. -/
def clashing : State := invalidateTable (withCodes State.reset [(0x61, [false]), (0x62, [false, true])])
theorem witness_TblCommitCommand : stuck.err ≠ 0#8 ∧ ((encoding two 0).err = 0#8 ∧ (encoding two 0).encActive = true) ∧
    (Idle State.reset ∧ ∀ a, ¬ InTable State.reset a) ∧ (Idle clashing ∧ ¬ PrefixFree clashing) ∧
    (Idle two ∧ InTable two 0x61#8 ∧ PrefixFree two) :=
  ⟨by decide +kernel, by decide +kernel, ⟨by decide +kernel, by decide +kernel⟩, ⟨by decide +kernel, by decide +kernel⟩,
    ⟨by decide +kernel, by decide +kernel, by decide +kernel⟩⟩
theorem witness_TblGetWordCommand : Idle two := by decide +kernel
theorem witness_LoadCodePseudoLoadsCodeword : Idle two ∧ (Operand.num 255).value < 256 ∧ (List.replicate 255 true).length < 256 := by decide +kernel

/-! ### Encoder -/

/-- A one-byte buffer. -/
def tiny : State := withLast two 0

theorem witness_EncStartCommand : stuck.err ≠ 0#8 ∧ ((decoding two 0).err = 0#8 ∧ (decoding two 0).decActive = true) ∧
    (Idle State.reset ∧ State.reset.tableValid = false) ∧ (Idle two ∧ two.tableValid = true) := by decide +kernel
theorem witness_EncSymCommand : stuck.err ≠ 0#8 ∧ (State.reset.err = 0#8 ∧ State.reset.encActive = false) ∧
    ((encoding tiny 0).err = 0#8 ∧ (encoding tiny 0).encActive = true ∧ tableGet (encoding tiny 0).codeLen 0x67#8 = 0#8) ∧
    ((encoding tiny 8).encActive = true ∧ tableGet tiny.codeLen 0x61#8 ≠ 0#8 ∧
      tiny.params.pbufBits < (encoding tiny 8).encPos.toNat + (tableGet tiny.codeLen 0x61#8).toNat) ∧
    ((encoding tiny 7).encActive = true ∧
      (encoding tiny 7).encPos.toNat + (tableGet tiny.codeLen 0x61#8).toNat ≤ tiny.params.pbufBits) := by decide +kernel
theorem witness_EncFinishCommand : stuck.err ≠ 0#8 ∧ (State.reset.err = 0#8 ∧ State.reset.encActive = false) ∧
    ((encoding tiny 1).err = 0#8 ∧ (encoding tiny 1).encActive = true) := by decide +kernel
theorem witness_EncPosCommand : ((encoding tiny 1).err = 0#8 ∧ (encoding tiny 1).encActive = true) ∧
    ∃ t, exec (.encSym 0x67) (encoding tiny 1) = .next t ∧ (t.err != 0#8) = true :=
  ⟨by decide +kernel, exists_of_answers (P := fun t => t.err != 0#8) (by decide +kernel)⟩
/-- Eight symbols of one bit fill the one-byte buffer exactly. -/
theorem witness_EncodeWritesConcatenation : Inv tiny ∧ Idle tiny ∧ tiny.tableValid = true ∧
    (∀ a ∈ List.replicate 8 0x62#8, InTable tiny a) ∧ (encodedBits tiny (List.replicate 8 0x62#8)).length ≤ tiny.params.pbufBits :=
  ⟨inv_of_parts (by decide +kernel) (by decide +kernel) (by decide +kernel), by decide +kernel, by decide +kernel, by decide +kernel, by decide +kernel⟩

/-! ### Decoder -/

theorem witness_DecStartCommand : stuck.err ≠ 0#8 ∧ ((decoding two 0).err = 0#8 ∧ (decoding two 0).decActive = true) ∧
    (Idle State.reset ∧ State.reset.tableValid = false) ∧
    (Idle (tiny.setArg 9) ∧ tiny.tableValid = true ∧ (tiny.setArg 9).params.pbufBits < (tiny.setArg 9).arg.toNat) ∧
    (Idle (tiny.setArg 8) ∧ (tiny.setArg 8).arg.toNat ≤ (tiny.setArg 8).params.pbufBits) := by decide +kernel
theorem witness_DecSymEndMarker : (decoding two 0).err = 0#8 ∧ (decoding two 0).decActive = true ∧ (decoding two 0).decPos = (decoding two 0).decLen := by
  decide +kernel
/-- The payload bits 0 0, of which two are meaningful: the codeword of a ends at DEC_LEN. -/
def whole : State := decoding (holding sparse [0, 0]) 2
theorem witness_DecSymRecoversSymbol : stuck.err ≠ 0#8 ∧ (State.reset.err = 0#8 ∧ State.reset.decActive = false) ∧
    Inv whole ∧ whole.err = 0#8 ∧ whole.decActive = true ∧ InTable whole 0x61#8 ∧
    whole.decPos.toNat + (tableGet whole.codeLen 0x61#8).toNat ≤ whole.decLen.toNat ∧
    HoldsBits whole.pbuf whole.decPos.toNat (codeword whole 0x61#8) :=
  ⟨by decide +kernel, by decide +kernel, inv_of_parts (by decide +kernel) (by decide +kernel) (by decide +kernel), by decide +kernel, by decide +kernel, by decide +kernel,
    by decide +kernel, by decide +kernel⟩
/-- The payload bit 0 alone is meaningful: the stream ends inside the codeword of a. -/
def cut : State := decoding (holding sparse [0]) 1
/-- The payload bits 0 1: the second has no edge. -/
def corrupt : State := decoding (holding sparse [0, 1]) 2
/-- The payload bit 0, and a second meaningful bit that is unspecified. -/
def unwritten : State := decoding (holding sparse [0]) 2
theorem witness_DecSymStreamErrors :
    (Inv cut ∧ cut.err = 0#8 ∧ cut.decActive = true ∧ HoldsBits cut.pbuf cut.decPos.toNat [false] ∧ InnerNode cut [false] ∧
      cut.decPos.toNat + [false].length = cut.decLen.toNat) ∧
    (Inv corrupt ∧ HoldsBits corrupt.pbuf corrupt.decPos.toNat [false] ∧ InnerNode corrupt [false] ∧
      corrupt.decPos.toNat + [false].length < corrupt.decLen.toNat ∧
      corrupt.pbuf.bit? (corrupt.decPos.toNat + [false].length) = some true ∧
      ¬ ∃ c : Sym, InTable corrupt c ∧ ([false] ++ [true]) <+: codeword corrupt c) ∧
    (Inv unwritten ∧ HoldsBits unwritten.pbuf unwritten.decPos.toNat [false] ∧ InnerNode unwritten [false] ∧
      unwritten.decPos.toNat + [false].length < unwritten.decLen.toNat ∧
      unwritten.pbuf.bit? (unwritten.decPos.toNat + [false].length) = none) :=
  ⟨⟨inv_of_parts (by decide +kernel) (by decide +kernel) (by decide +kernel), by decide +kernel, by decide +kernel, by decide +kernel, by decide +kernel, by decide +kernel⟩,
    ⟨inv_of_parts (by decide +kernel) (by decide +kernel) (by decide +kernel), by decide +kernel, by decide +kernel, by decide +kernel, by decide +kernel, by decide +kernel⟩,
    ⟨inv_of_parts (by decide +kernel) (by decide +kernel) (by decide +kernel), by decide +kernel, by decide +kernel, by decide +kernel, by decide +kernel⟩⟩
/-- The first meaningful bit is the same, the padding bit after it differs. -/
theorem witness_DecoderIgnoresBitsPastLength : (decoding (holding two [1, 0]) 1).decPos.toNat ≤ (decoding (holding two [1, 0]) 1).decLen.toNat ∧
    (∀ i < (decoding (holding two [1, 0]) 1).decLen.toNat, (holding two [1, 1]).pbuf.bit? i = (decoding (holding two [1, 0]) 1).pbuf.bit? i) ∧
    (∃ t, exec .decSym (decoding (holding two [1, 0]) 1) = .next t ∧ true = true) ∧
    exec .decSym (decoding two 1) = .fault (.unspecifiedBit 0) :=
  ⟨by decide +kernel, by decide +kernel, exists_of_answers (P := fun _ => true) (by decide +kernel), rfl⟩
theorem witness_RoundTripRecoversText : Inv tiny ∧ Idle tiny ∧ tiny.tableValid = true ∧
    (∀ a ∈ List.replicate 8 0x62#8, InTable tiny a) ∧ (encodedBits tiny (List.replicate 8 0x62#8)).length ≤ tiny.params.pbufBits :=
  witness_EncodeWritesConcatenation

/-! ### Payload buffer and whole-machine rules -/

theorem witness_PbufWrCommand : stuck.err ≠ 0#8 ∧ ((encoding two 0).err = 0#8 ∧ (encoding two 0).encActive = true) ∧
    (Idle tiny ∧ tiny.params.pbufBytes ≤ (1#16).toNat) ∧ (Idle tiny ∧ (0#16).toNat < tiny.params.pbufBytes) := by decide +kernel
theorem witness_PbufRdCommand : (tiny.params.pbufBytes ≤ (1#16).toNat ∧ tiny.err = 0#8) ∧ stuck.err ≠ 0#8 ∧
    ((0#16).toNat < tiny.params.pbufBytes ∧ ∀ j < 8, (holding tiny [0, 1, 1, 0, 1, 1, 1, 0]).pbuf.bit? (8 * (0#16).toNat + j) = some ((0x6E#8).getLsbD (7 - j))) ∧
    ((0#16).toNat < tiny.params.pbufBytes ∧ ∃ j < 8, (holding tiny [0, 1, 1, 0, 1, 1, 1]).pbuf.bit? (8 * (0#16).toNat + j) = none) := by decide +kernel
/-- Each kind of element changes under a command of its list. -/
theorem witness_WritersOfEachElement :
    (∃ t, exec .reset (two.setArg 1) = .next t ∧ (t.arg != (two.setArg 1).arg) = true) ∧
    (∃ t, exec (.tblGetLen 0x61) two = .next t ∧ (t.result != two.result) = true) ∧
    (∃ t, exec .decSym State.reset = .next t ∧ (State.reset.err == 0#8 && t.err != 0#8) = true) ∧
    (∃ t, exec (.freqCount 0x61) two = .next t ∧ (tableGet t.freq 0x61 != tableGet two.freq 0x61) = true) ∧
    (∃ t, exec (.tblSetLen 0x61 3) two = .next t ∧ (tableGet t.codeLen 0x61 != tableGet two.codeLen 0x61) = true) ∧
    (∃ t, exec (.tblSetWord 0x61 1) (two.setArg 1) = .next t ∧
      (wordGet (tableGet t.codeBits 0x61) 1 != wordGet (tableGet two.codeBits 0x61) 1) = true) ∧
    (∃ t, exec .tblCommit (invalidateTable two) = .next t ∧ t.tableValid = true) ∧
    ∃ t, exec (.pbufWr 0 0) two = .next t ∧ (t.pbuf != two.pbuf) = true :=
  ⟨exists_of_answers (P := fun t => t.arg != (two.setArg 1).arg) (by decide +kernel),
    exists_of_answers (P := fun t => t.result != two.result) (by decide +kernel),
    exists_of_answers (P := fun t => State.reset.err == 0#8 && t.err != 0#8) (by decide +kernel),
    exists_of_answers (P := fun t => tableGet t.freq 0x61 != tableGet two.freq 0x61) (by decide +kernel),
    exists_of_answers (P := fun t => tableGet t.codeLen 0x61 != tableGet two.codeLen 0x61) (by decide +kernel),
    exists_of_answers (P := fun t => wordGet (tableGet t.codeBits 0x61) 1 != wordGet (tableGet two.codeBits 0x61) 1) (by decide +kernel),
    exists_of_answers (P := fun t => t.tableValid) (by decide +kernel),
    exists_of_answers (P := fun t => t.pbuf != two.pbuf) (by decide +kernel)⟩
theorem witness_FirstErrorIsKept : State.reset.err = 0#8 ∧ exec .clrErr stuck = .next { stuck with err := 0#8 } ∧ stuck.err ≠ 0#8 ∧
    exec .nop stuck = .next stuck ∧ decode 0xFF000000#32 ≠ .ok .clrErr ∧ decode 0xFF000000#32 ≠ .ok .reset ∧
    writeCmd 0xFF000000#32 stuck = .next stuck :=
  ⟨by decide +kernel, rfl, by decide +kernel, rfl, by decide, by decide, rfl⟩
theorem witness_ErrorsOfEachCommand : State.reset.err = 0#8 ∧ ∃ t, exec .decSym State.reset = .next t ∧ (t.err == 11#8) = true :=
  ⟨by decide +kernel, exists_of_answers (P := fun t => t.err == 11#8) (by decide +kernel)⟩
theorem witness_StepKeepsInvariant : Inv (queueCommand two 0x30000000#32) ∧
    ∃ t, step (queueCommand two 0x30000000#32) = .next t ∧ t.encActive = true :=
  ⟨inv_of_parts (by decide +kernel) (by decide +kernel) (by decide +kernel), exists_of_answers (P := fun t => t.encActive) (by decide +kernel)⟩

end Sys2Proof.Tests
end

section
/-! PROOFS of the statements of 00_scope.md: which commands answer a next state (R16, R67), and what the step of a CMD write is (R16, R90). -/

namespace Sys2Proof.Machine

/-! ## Commands that answer a next state -/

/-- A gated command answers a next state when its meaning behind the gate does. -/
theorem whenNoError_next {s : State} {run : Out} (h : ∃ t, run = .next t) : ∃ t, whenNoError s run = .next t := by
  rcases whenNoError_cases (s := s) (run := run) rfl with ⟨-, hskip⟩ | ⟨-, hrun⟩
  · exact ⟨s, hskip⟩
  · rwa [hrun]

/-- A command that needs no session answers a next state when its meaning does. -/
theorem whenNoSession_next {s : State} {run : Out} (h : ∃ t, run = .next t) : ∃ t, whenNoSession s run = .next t := by
  rcases whenNoSession_cases (s := s) (run := run) rfl with ⟨-, hraise⟩ | ⟨-, -, hrun⟩
  · exact ⟨_, hraise⟩
  · rwa [hrun]

/-- A command that needs an encode session answers a next state when its meaning does. -/
theorem whenEncoding_next {s : State} {run : Out} (h : ∃ t, run = .next t) : ∃ t, whenEncoding s run = .next t := by
  rcases whenEncoding_cases (s := s) (run := run) rfl with ⟨-, hraise⟩ | ⟨-, hrun⟩
  · exact ⟨_, hraise⟩
  · rwa [hrun]

theorem execFreqCount_next (a : Sym) (s : State) : ∃ t, execFreqCount a s = .next t :=
  whenNoError_next (by split <;> exact ⟨_, rfl⟩)

theorem execBuild_next (s : State) : ∃ t, execBuild s = .next t :=
  whenNoError_next (whenNoSession_next (by split <;> exact ⟨_, rfl⟩))

theorem execTblCommit_next (s : State) : ∃ t, execTblCommit s = .next t := by
  refine whenNoError_next (whenNoSession_next ?_)
  split
  · exact ⟨_, rfl⟩
  · split <;> exact ⟨_, rfl⟩

theorem execEncStart_next (s : State) : ∃ t, execEncStart s = .next t :=
  whenNoError_next (whenNoSession_next (by split <;> exact ⟨_, rfl⟩))

theorem execEncSym_next (a : Sym) (s : State) : ∃ t, execEncSym a s = .next t := by
  refine whenNoError_next (whenEncoding_next ?_)
  split
  · exact ⟨_, rfl⟩
  · split <;> exact ⟨_, rfl⟩

theorem execDecStart_next (s : State) : ∃ t, execDecStart s = .next t := by
  refine whenNoError_next (whenNoSession_next ?_)
  split
  · split <;> exact ⟨_, rfl⟩
  · exact ⟨_, rfl⟩

theorem execPbufWr_next (k : BitVec 16) (v : Byte) (s : State) : ∃ t, execPbufWr k v s = .next t :=
  whenNoError_next (whenNoSession_next (by split <;> exact ⟨_, rfl⟩))

/-! ## The two commands that read the payload -/

/-- DEC_SYM answers a next state or faults at an unspecified bit: the fault can only come from its walk (45_decoder.md R241). -/
theorem execDecSym_next_or_fault (s : State) :
    (∃ t, execDecSym s = .next t) ∨ ∃ n, s.pbuf.bit? n = none ∧ execDecSym s = .fault (.unspecifiedBit n) := by
  unfold execDecSym
  rcases whenNoError_cases (s := s) rfl with ⟨-, hskip⟩ | ⟨he, hrun⟩
  · exact .inl ⟨s, hskip⟩
  rw [hrun]
  rcases whenDecoding_cases (s := s) rfl with ⟨-, hraise⟩ | ⟨-, hrun⟩
  · exact .inl ⟨_, hraise⟩
  rw [hrun]
  split
  · exact .inl ⟨_, rfl⟩
  · rcases walk_cases he with ⟨a, q, hsym⟩ | ⟨q, c, -, herr⟩ | hfault
    · exact .inl ⟨_, hsym⟩
    · exact .inl ⟨_, herr⟩
    · exact .inr hfault

/-- PBUF_RD answers a next state or faults at an unspecified byte (46_payload_buffer.md R271). -/
theorem execPbufRd_next_or_fault (k : BitVec 16) (s : State) :
    (∃ t, execPbufRd k s = .next t) ∨
      (s.pbuf.byte? k.toNat = none ∧ execPbufRd k s = .fault (.unspecifiedByte k.toNat)) := by
  unfold execPbufRd
  split
  · exact .inl ⟨_, rfl⟩
  · split
    · exact .inl ⟨_, rfl⟩
    case _ hnone => exact .inr ⟨hnone, rfl⟩

/-- Settles O57, command by command: DEC_SYM and PBUF_RD by what they can answer, every other command answers a next state. -/
theorem onlyUnspecifiedBitsStop : Obligations.OnlyUnspecifiedBitsStop := by
  intro i s
  cases i with
  | decSym => exact (execDecSym_next_or_fault s).imp_right fun h => .inl ⟨rfl, h⟩
  | pbufRd k => exact (execPbufRd_next_or_fault k s).imp_right fun h => .inr ⟨k, rfl, h⟩
  | nop | reset | clrErr | freqGet | tblGetLen | tblGetWord | encPos | decPos => exact .inl ⟨_, rfl⟩
  | stop | freqClear | freqSet => exact .inl (whenNoError_next ⟨_, rfl⟩)
  | tblClear | tblSetLen | tblSetWord => exact .inl (whenNoError_next (whenNoSession_next ⟨_, rfl⟩))
  | encFinish => exact .inl (whenNoError_next (whenEncoding_next ⟨_, rfl⟩))
  | freqCount a => exact .inl (execFreqCount_next a s)
  | build => exact .inl (execBuild_next s)
  | tblCommit => exact .inl (execTblCommit_next s)
  | encStart => exact .inl (execEncStart_next s)
  | encSym a => exact .inl (execEncSym_next a s)
  | decStart => exact .inl (execDecStart_next s)
  | pbufWr k v => exact .inl (execPbufWr_next k v s)

/-! ## Steps and accesses -/

/-- A step takes the first pending event out of the queue and does it. -/
theorem step_of_pending_cons {s : State} {e : HostEvent} {rest : List HostEvent} (h : s.pending = e :: rest) :
    step s = hostEvent e (s.setPending rest) := by
  simp [step, takeEvent, h]

/-- A 32-bit aligned access inside the window passes the check (20_memory.md R60, R63). -/
theorem checkedAccess_word_aligned {s : State} {off : Nat} (hlt : off < windowBytes) (hal : off % 4 = 0) (run : Nat → Out) :
    checkedAccess .word (s.params.base + off) s run = run off := by
  simp [checkedAccess, Nat.not_le.mpr hlt, hal]

/-- The CMD write of a legal word runs the command it decodes to (30_encoding.md R90). -/
theorem writeCmd_of_decode {w : Word} {i : Instr} (h : decode w = .ok i) (s : State) : writeCmd w s = exec i s := by
  simp [writeCmd, h]

/-- A 32-bit write at BASE + 0 is a CMD write (20_memory.md R61). -/
theorem hostEvent_write_base (w : Word) (s : State) : hostEvent (.write .word s.params.base w) s = writeCmd w s :=
  checkedAccess_word_aligned (off := 0) (by decide) rfl fun off => writeRegister off w s

/-- Settles O6: the step takes the CMD write from the queue, and the write runs the decoded command. -/
theorem stepRunsDecodedCommand : Obligations.StepRunsDecodedCommand := by
  intro s w i rest hpending hdecode
  calc step s
      = hostEvent (.write .word s.params.base w) (s.setPending rest) := step_of_pending_cons hpending
    _ = writeCmd w (s.setPending rest) := hostEvent_write_base w (s.setPending rest)
    _ = exec i (s.setPending rest) := writeCmd_of_decode hdecode _

end Sys2Proof.Machine
end

section
/-! PROOFS of the statements of 10_state.md, part 1: the codes BUILD writes (42_tree_builder.md R161 to R168) name each symbol of the alphabet once,
are PrefixFree, and fit CODE_LEN. -/

namespace Sys2Proof.Machine

/-! ## The paths of a tree -/

/-- Neither of two paths begins with the other. -/
def Incomparable (x y : Sym × List Bool) : Prop := ¬ x.2 <+: y.2 ∧ ¬ y.2 <+: x.2

theorem symm_incomparable : Std.Symm Incomparable := ⟨fun _ _ => And.symm⟩

/-- No two paths of a tree are comparable: below one edge by induction, and paths of the two edges differ in their first bit. -/
theorem treePaths_incomparable (t : Tree) : (treePaths t).Pairwise Incomparable := by
  induction t with
  | leaf => simp [treePaths]
  | internal w l r ihl ihr =>
    simp only [treePaths, List.pairwise_append, List.pairwise_map, List.mem_map]
    refine ⟨ihl.imp fun h => ?_, ihr.imp fun h => ?_, ?_⟩
    · simpa [Incomparable] using h
    · simpa [Incomparable] using h
    · rintro _ ⟨x, -, rfl⟩ _ ⟨y, -, rfl⟩
      simp [Incomparable]

theorem treePaths_length_pos (t : Tree) : 1 ≤ (treePaths t).length := by
  induction t with
  | leaf => simp [treePaths]
  | internal w l r ihl ihr => simp only [treePaths, List.length_append, List.length_map]; omega

/-- A path is shorter than the number of leaves: each edge on it leaves a leaf aside. -/
theorem length_lt_of_mem_treePaths {t : Tree} {x : Sym × List Bool} (hx : x ∈ treePaths t) : x.2.length < (treePaths t).length := by
  induction t generalizing x with
  | leaf => simp_all [treePaths]
  | internal w l r ihl ihr =>
    have hl := treePaths_length_pos l
    have hr := treePaths_length_pos r
    simp only [treePaths, List.mem_append, List.mem_map, List.length_append, List.length_map] at hx ⊢
    rcases hx with ⟨y, hy, rfl⟩ | ⟨y, hy, rfl⟩
    · have := ihl hy
      simp only [List.length_cons]; omega
    · have := ihr hy
      simp only [List.length_cons]; omega

/-- Only a tree that is one leaf has the empty path. -/
theorem length_pos_of_mem_treePaths {t : Tree} (ht : 2 ≤ (treePaths t).length) {x : Sym × List Bool} (hx : x ∈ treePaths t) :
    1 ≤ x.2.length := by
  cases t with
  | leaf => simp [treePaths] at ht
  | internal w l r =>
    simp only [treePaths, List.mem_append, List.mem_map] at hx
    rcases hx with ⟨y, -, rfl⟩ | ⟨y, -, rfl⟩ <;> simp

/-! ## The symbols of the queue -/

/-- The symbols at the leaves of a queue entry, from left to right. -/
def entrySyms (e : Entry) : List Sym := (treePaths e.node).map Prod.fst

@[simp] theorem entrySyms_leafEntry (f : Vector Word 256) (a : Sym) (q : Nat) : entrySyms (leafEntry f a q) = [a] := rfl

@[simp] theorem entrySyms_mergeEntries (q : Nat) (x y : Entry) : entrySyms (mergeEntries q x y) = entrySyms x ++ entrySyms y := by
  simp [entrySyms, Function.comp_def]

@[simp] theorem flatMap_entrySyms_seedFrom (f : Vector Word 256) (q : Nat) (l : List Sym) : (seedFrom f q l).flatMap entrySyms = l := by
  induction l generalizing q with
  | nil => rfl
  | cons a l ih => simp [seedFrom, ih]

/-- popmin takes one entry out of the queue and leaves the others. -/
theorem popMin_perm (e : Entry) (rest : List Entry) : ((popMin e rest).1 :: (popMin e rest).2).Perm (e :: rest) := by
  induction rest generalizing e with
  | nil => simp [popMin]
  | cons f rest ih =>
    simp only [popMin]
    split
    · exact .refl _
    · exact (List.Perm.swap _ _ _).trans ((ih f).cons e)

/-- Once its bound is at least the number of merges, the merge loop keeps every symbol of the queue (R166). -/
theorem mergeAll_syms {n q : Nat} {e : Entry} {rest : List Entry} (hn : rest.length ≤ n) :
    ((treePaths (mergeAll n q e rest)).map Prod.fst).Perm ((e :: rest).flatMap entrySyms) := by
  induction n generalizing q e rest with
  | zero =>
    have hnil : rest = [] := List.length_eq_zero_iff.mp (Nat.le_zero.mp hn)
    simp [hnil, mergeAll, entrySyms]
  | succ n ih =>
    have hpop := popMin_perm e rest
    unfold mergeAll
    split
    case _ x heq =>
      rw [heq] at hpop
      simpa [entrySyms] using hpop.flatMap_right entrySyms
    case _ x f others heq =>
      rw [heq] at hpop
      have hpop2 := popMin_perm f others
      have hlen : (popMin f others).2.length ≤ n := by
        have h1 := hpop.length_eq
        have h2 := hpop2.length_eq
        simp only [List.length_cons] at h1 h2
        omega
      have hmerge : (mergeEntries q x (popMin f others).1 :: (popMin f others).2).flatMap entrySyms =
          (x :: (popMin f others).1 :: (popMin f others).2).flatMap entrySyms := by simp
      exact (ih hlen).trans (hmerge ▸ ((hpop2.cons x).trans hpop).flatMap_right entrySyms)

/-! ## The codes of an alphabet -/

/-- BUILD's codes name the symbols of the alphabet, each as often as the alphabet does (R161, R167). -/
theorem buildCodes_syms (f : Vector Word 256) (l : List Sym) : ((buildCodes f l).map Prod.fst).Perm l := by
  match l with
  | [] => simp [buildCodes]
  | [a] => simp [buildCodes]
  | a :: b :: rest =>
    simpa [buildCodes, huffmanTree] using
      mergeAll_syms (n := (b :: rest).length) (q := (b :: rest).length + 1) (e := leafEntry f a 0)
        (rest := seedFrom f 1 (b :: rest)) (by simp)

/-- No codeword of BUILD begins with another one. -/
theorem buildCodes_incomparable (f : Vector Word 256) (l : List Sym) : (buildCodes f l).Pairwise Incomparable := by
  match l with
  | [] => simp [buildCodes]
  | [a] => simp [buildCodes]
  | a :: b :: rest => exact treePaths_incomparable _

/-- A codeword of BUILD has at least one bit, and fewer than there are symbols unless there is one symbol only (R168). -/
theorem buildCodes_length {f : Vector Word 256} {l : List Sym} {x : Sym × List Bool} (hx : x ∈ buildCodes f l) :
    1 ≤ x.2.length ∧ x.2.length ≤ max 1 (l.length - 1) := by
  match l with
  | [] => simp [buildCodes] at hx
  | [a] => simp_all [buildCodes]
  | a :: b :: rest =>
    have hlen : (treePaths (huffmanTree f a (b :: rest))).length = rest.length + 2 := by
      simpa [buildCodes] using (buildCodes_syms f (a :: b :: rest)).length_eq
    have hlt := length_lt_of_mem_treePaths hx
    refine ⟨length_pos_of_mem_treePaths (by omega) hx, ?_⟩
    simp only [List.length_cons]
    omega

end Sys2Proof.Machine
end

section
/-! PROOFS of the statements of 10_state.md, part 2: what each operation keeps of the invariant (10_state.md R38), and the reset states (O10, O59). -/

namespace Sys2Proof.Machine

/-! ## The table BUILD installs -/

/-- The state BUILD leaves, before it is marked valid: the codes of an alphabet written to an empty table (42_tree_builder.md R160). -/
def writeTable (s : State) (l : List Sym) : State :=
  s.setTable (writeLens emptyLens (buildCodes s.freq l)) (writeCodes emptyBits (buildCodes s.freq l))

section
variable {s : State} {l : List Sym} (hnd : l.Nodup) (hle : l.length ≤ 256)

include hnd in
theorem nodup_buildCodes_syms (f : Vector Word 256) : ((buildCodes f l).map Prod.fst).Nodup :=
  (buildCodes_syms f l).nodup_iff.mpr hnd

include hnd hle in
/-- A symbol of the alphabet has its codeword in the written table. -/
theorem writeTable_codeword {a : Sym} {c : List Bool} (h : (a, c) ∈ buildCodes s.freq l) :
    tableGet (writeTable s l).codeLen a ≠ 0#8 ∧ codeword (writeTable s l) a = c := by
  have hc := buildCodes_length h
  have hnd := nodup_buildCodes_syms hnd s.freq
  have hlen : tableGet (writeTable s l).codeLen a = BitVec.ofNat 8 c.length := tableGet_writeLens hnd h _
  have hbits : tableGet (writeTable s l).codeBits a = packCode c := tableGet_writeCodes hnd h _
  have hnat : (tableGet (writeTable s l).codeLen a).toNat = c.length := by
    rw [hlen, BitVec.toNat_ofNat]; simp only at hc; omega
  refine ⟨fun h0 => ?_, ?_⟩
  · rw [h0] at hnat
    simp only [BitVec.toNat_ofNat] at hnat hc
    omega
  · rw [codeword, hnat, hbits, storedBits_packCode c (by simp only at hc; omega)]

include hnd hle in
/-- The written table has a codeword for each symbol of the alphabet and for no other. -/
theorem writeTable_inTable_iff {a : Sym} : InTable (writeTable s l) a ↔ ∃ c, (a, c) ∈ buildCodes s.freq l := by
  refine ⟨fun h => ?_, fun ⟨c, h⟩ => (writeTable_codeword hnd hle h).1⟩
  by_contra hno
  refine h ((tableGet_writeLens_other ?_ _).trans (tableGet_emptyLens a))
  rintro ⟨b, c⟩ hx rfl
  exact hno ⟨c, hx⟩

include hnd hle in
theorem writeTable_codeCount : codeCount (writeTable s l) = l.length := by
  refine List.Perm.length_eq ((List.perm_ext_iff_of_nodup (nodup_codeAlphabet _) hnd).mpr fun a => ?_)
  calc a ∈ codeAlphabet (writeTable s l).codeLen
      ↔ ∃ c, (a, c) ∈ buildCodes s.freq l := mem_codeAlphabet.trans (writeTable_inTable_iff hnd hle)
    _ ↔ a ∈ (buildCodes s.freq l).map Prod.fst := by simp
    _ ↔ a ∈ l := (buildCodes_syms s.freq l).mem_iff

include hnd hle in
theorem writeTable_prefixFree : PrefixFree (writeTable s l) := by
  intro a ha b hb hab
  obtain ⟨c, hc⟩ := (writeTable_inTable_iff hnd hle).mp ha
  obtain ⟨d, hd⟩ := (writeTable_inTable_iff hnd hle).mp hb
  rw [(writeTable_codeword hnd hle hc).2, (writeTable_codeword hnd hle hd).2]
  have hne : (a, c) ≠ (b, d) := fun h => hab (congrArg Prod.fst h)
  have := symm_incomparable
  exact ((buildCodes_incomparable s.freq l).forall hc hd hne).1

end

/-! ## Each operation keeps the invariant -/

section
variable {s : State} (h : Inv s)
include h

theorem inv_setArg (v : Word) : Inv (s.setArg v) := { h with }

theorem inv_setResult (v : Word) : Inv (s.setResult v) := { h with }

theorem inv_setFreq (f : Vector Word 256) : Inv (s.setFreq f) := { h with }

theorem inv_setPending (es : List HostEvent) : Inv (s.setPending es) := { h with }

theorem inv_pushRead (v : Word) : Inv (s.pushRead v) := { h with }

theorem inv_setPbuf {p : Payload} (hp : p.wf s.params.pbufBytes) : Inv (s.setPbuf p) := { h with payloadForm := hp }

theorem inv_closeSessions : Inv (closeSessions s) :=
  { h with
    errorClosesSessions := fun _ => ⟨rfl, rfl⟩
    oneSession := by simp [closeSessions_eq]
    sessionHasTable := by simp [closeSessions_eq] }

theorem inv_raise (e : ErrCode) : Inv (raise e s) := by
  by_cases he : s.err = 0#8
  · rw [raise_of_noError e he]
    exact { inv_closeSessions h with
      legalError := errCode_le e
      errorClosesSessions := fun _ => ⟨rfl, rfl⟩ }
  · rwa [raise_of_error e he]

theorem inv_returnFromError : Inv (returnFromError s) :=
  { h with
    errorClosesSessions := fun hne => absurd rfl hne
    legalError := Nat.zero_le _ }

/-- ENC_POS may stand anywhere within the payload; a session is open only with ERR = 0, no decode session and a valid table (10_state.md R38). -/
theorem inv_setEnc {active : Bool} {pos : BitVec 32} (hpos : pos.toNat ≤ s.params.pbufBits)
    (hopen : active = true → s.err = 0#8 ∧ s.decActive = false ∧ s.tableValid = true) : Inv (s.setEnc active pos) :=
  { h with
    errorClosesSessions := fun hne => ⟨by_contra fun ha => hne (hopen (by simpa using ha)).1, (h.errorClosesSessions hne).2⟩
    oneSession := fun ⟨ha, hd⟩ => by simp [(hopen ha).2.1] at hd
    sessionHasTable := fun hs => hs.elim (fun ha => (hopen ha).2.2) fun hd => h.sessionHasTable (.inr hd)
    encBound := hpos }

/-- The same for DEC_POS and DEC_LEN. -/
theorem inv_setDec {active : Bool} {pos len : BitVec 32} (hpos : pos.toNat ≤ len.toNat) (hlen : len.toNat ≤ s.params.pbufBits)
    (hopen : active = true → s.err = 0#8 ∧ s.encActive = false ∧ s.tableValid = true) : Inv (s.setDec active pos len) :=
  { h with
    errorClosesSessions := fun hne => ⟨(h.errorClosesSessions hne).1, by_contra fun ha => hne (hopen (by simpa using ha)).1⟩
    oneSession := fun ⟨he, ha⟩ => by simp [(hopen ha).2.1] at he
    sessionHasTable := fun hs => hs.elim (fun he => h.sessionHasTable (.inl he)) fun ha => (hopen ha).2.2
    decBound := ⟨hpos, hlen⟩ }

/-- With no session open any edit of the code table keeps the invariant, as it leaves the table not valid (43_code_table.md R190). -/
theorem inv_editTable (hc : s.encActive = false ∧ s.decActive = false) (l : Vector (BitVec 8) 256) (b : Vector (Vector Word 8) 256) :
    Inv (invalidateTable (s.setTable l b)) :=
  { h with
    sessionHasTable := by simp [invalidateTable_eq, hc]
    invalidTable := fun _ => ⟨rfl, rfl⟩
    validSize := fun hv => by cases hv
    validDegen := fun hv => by cases hv
    validPrefixFree := fun hv => by cases hv }

/-- A PrefixFree table of one symbol or more may be marked valid (10_state.md R29 to R31). -/
theorem inv_validateTable (hp : PrefixFree s) (hn : 1 ≤ codeCount s) : Inv (validateTable (codeCount s) s) :=
  { h with
    sessionHasTable := fun _ => rfl
    invalidTable := fun hv => by cases hv
    validSize := fun _ => by
      have hle : codeCount s ≤ 256 := length_codeAlphabet_le _
      have hsize : (BitVec.ofNat 9 (codeCount s)).toNat = codeCount s := by rw [BitVec.toNat_ofNat]; omega
      exact ⟨hsize, hn⟩
    validDegen := fun _ => beq_iff_eq
    validPrefixFree := fun _ => hp }

theorem inv_installCodes (hc : s.encActive = false ∧ s.decActive = false) {l : List Sym} (hnd : l.Nodup) (hle : l.length ≤ 256)
    (hpos : 1 ≤ l.length) : Inv (installCodes l (clearTable s)) := by
  have hcount : codeCount (invalidateTable (writeTable s l)) = l.length := writeTable_codeCount hnd hle
  have hedit : Inv (invalidateTable (writeTable s l)) := inv_editTable h hc _ _
  have hvalid := inv_validateTable hedit (writeTable_prefixFree hnd hle) (hcount ▸ hpos)
  rw [hcount] at hvalid
  exact inv_setResult hvalid _

end

/-! ## The reset states -/

/-- Every element of R39 but PBUF at its reset value: the invariant needs only a payload in canonical form. -/
theorem inv_resetBlock {s : State} (hp : s.pbuf.wf s.params.pbufBytes) : Inv (resetBlock s) where
  errorClosesSessions := fun hne => absurd rfl hne
  oneSession := by simp [resetBlock_eq, State.reset]
  sessionHasTable := by simp [resetBlock_eq, State.reset]
  invalidTable := fun _ => ⟨rfl, rfl⟩
  validSize := fun hv => by cases hv
  validDegen := fun hv => by cases hv
  validPrefixFree := fun hv => by cases hv
  encBound := Nat.zero_le _
  decBound := ⟨Nat.zero_le _, Nat.zero_le _⟩
  legalError := Nat.zero_le _
  payloadForm := hp

theorem inv_powerOn (s : State) : Inv (powerOn s) :=
  inv_resetBlock (s := s.setPbuf Payload.unspecified) (Payload.wf_unspecified _)

/-- Settles O59: State.reset is the RESET command's state over a payload with every bit unspecified. -/
theorem resetHasInvariant : Obligations.ResetHasInvariant := fun p =>
  inv_resetBlock (s := { State.reset with params := p }) (Payload.wf_unspecified _)

/-- At power-on every payload bit is unspecified (20_memory.md R67). -/
theorem Payload.bit_unspecified (i : Nat) : Payload.unspecified.bit? i = none := by
  simp [Payload.bit?, Payload.unspecified]

theorem status_resetBlock (s : State) : status (resetBlock s) = 0#32 :=
  calc status (resetBlock s)
      = status State.reset := rfl
    _ = 0#32 := by decide

/-- Settles O10: both states are the RESET command's state of some state. -/
theorem resetLeavesStatedValues : Obligations.ResetLeavesStatedValues := by
  refine ⟨Payload.bit_unspecified, fun s => ⟨resetBlock s, rfl, rfl, fun u hu => ?_⟩⟩
  obtain ⟨r, rfl⟩ : ∃ r, u = resetBlock r := by
    rcases List.mem_pair.mp hu with rfl | rfl
    · exact ⟨State.reset, rfl⟩
    · exact ⟨s, rfl⟩
  refine ⟨rfl, rfl, rfl, rfl, rfl, rfl, rfl, rfl, rfl, rfl, rfl, fun a => ⟨?_, ?_, fun j => ?_⟩, status_resetBlock r⟩
  · exact tableGet_emptyFreq a
  · exact tableGet_emptyLens a
  · exact (congrArg (wordGet · j) (tableGet_emptyBits a)).trans (by simp [wordGet])

end Sys2Proof.Machine
end

section
/-! PROOFS of the statements of 10_state.md, part 3: the bits of STATUS (O9). -/

namespace Sys2Proof.Machine

theorem getLsbD_flagAt {k j : Nat} (hj : j < 32) (b : Bool) : (flagAt k b).getLsbD j = (decide (j = k) && b) := by
  have hbit : (!decide (j < k) && decide (j - k = 0)) = decide (j = k) := by
    simp only [← decide_not, ← Bool.decide_and, decide_eq_decide]
    omega
  cases b
  · simp [flagAt]
  · simp [flagAt, hj, hbit]

/-- STATUS bit by bit (10_state.md R25). -/
theorem getLsbD_status (s : State) {j : Nat} (hj : j < 32) :
    (status s).getLsbD j =
      if j < 8 then s.err.getLsbD j
      else if j = 8 then s.tableValid
      else if j = 9 then s.degen
      else if j = 10 then s.encActive
      else if j = 11 then s.decActive
      else if j = 12 then decDone s
      else decide (16 ≤ j) && s.alphaSize.getLsbD (j - 16) := by
  have herr : 8 ≤ j → s.err.getLsbD j = false := BitVec.getLsbD_of_ge _ _
  simp only [status, BitVec.getLsbD_or, getLsbD_flagAt hj, BitVec.getLsbD_setWidth, BitVec.getLsbD_shiftLeft, hj]
  split_ifs with h0 h8 h9 h10 h11 h12
  · have h16 : j < 16 := by omega
    simp [h16, show j ≠ 8 by omega, show j ≠ 9 by omega, show j ≠ 10 by omega, show j ≠ 11 by omega, show j ≠ 12 by omega]
  · simp [h8]
  · simp [h9]
  · simp [h10]
  · simp [h11]
  · simp [h12]
  · have hsub : j - 16 < 32 := by omega
    by_cases h16 : j < 16
    · simp [herr (by omega), h8, h9, h10, h11, h12, h16]
    · simp [herr (by omega), h8, h9, h10, h11, h12, h16, hsub, Nat.le_of_not_lt h16]

/-- Above DEC_DONE only ALPHA_SIZE is not 0. -/
theorem getLsbD_status_high (s : State) {j : Nat} (hj : j < 32) (hge : 13 ≤ j) :
    (status s).getLsbD j = (decide (16 ≤ j) && s.alphaSize.getLsbD (j - 16)) := by
  rw [getLsbD_status s hj]
  simp [show ¬ j < 8 by omega, show j ≠ 8 by omega, show j ≠ 9 by omega, show j ≠ 10 by omega, show j ≠ 11 by omega,
    show j ≠ 12 by omega]

/-- Settles O9, each field from STATUS bit by bit. -/
theorem statusViewAndDecDone : Obligations.StatusViewAndDecDone := by
  intro s
  refine ⟨BitVec.eq_of_getLsbD_eq fun i hi => ?_, getLsbD_status s (by decide), getLsbD_status s (by decide),
    getLsbD_status s (by decide), getLsbD_status s (by decide), ?_, BitVec.eq_of_getLsbD_eq fun i hi => ?_,
    BitVec.eq_of_getLsbD_eq fun i hi => ?_, BitVec.eq_of_getLsbD_eq fun i hi => ?_⟩
  · simp [getLsbD_status s (show i < 32 by omega), hi]
  · rw [getLsbD_status s (by decide)]
    simp [decDone]
  · have := getLsbD_status_high s (show 13 + i < 32 by omega) (by omega)
    simp [this, hi, show ¬ 16 ≤ 13 + i by omega]
  · have := getLsbD_status_high s (show 16 + i < 32 by omega) (by omega)
    simp [this, hi]
  · have := getLsbD_status_high s (show 25 + i < 32 by omega) (by omega)
    simp [this, hi, show 9 ≤ 25 + i - 16 by omega]

end Sys2Proof.Machine
end

section
/-! PROOFS of the statements of 10_state.md, part 4: every way a command answers a next state (40_control.md to 46_payload_buffer.md), said once. -/

namespace Sys2Proof.Machine

/-- A step of the decoder's walk never passes DEC_LEN (45_decoder.md R241, R247). -/
theorem walk_decPos_le {n : Nat} {p : List Bool} {s t : State} (h : walk n p s = .next t) (hle : s.decPos.toNat ≤ s.decLen.toNat) :
    t.decPos.toNat ≤ s.decLen.toNat := by
  induction n generalizing p s with
  | zero =>
    cases h
    rwa [raise_frame]
  | succ n ih =>
    rw [walk_succ] at h
    split at h
    · cases h
      rwa [raise_frame]
    case _ hne =>
      have hnat : s.decPos.toNat ≠ s.decLen.toNat := fun e => hne (BitVec.eq_of_toNat_eq e)
      have hnext : (s.decPos + 1#32).toNat ≤ s.decLen.toNat := by bv_omega
      split at h
      · cases h
      · split at h
        · cases h
          exact hnext
        · split at h
          · exact ih (s := { s with decPos := s.decPos + 1#32 }) h hnext
          · cases h
            rwa [raise_frame]

/-- Where the decoder's walk ends, when it answers a next state: at a symbol or at one of the two stream errors (R241). -/
theorem walk_next_cases {n : Nat} {p : List Bool} {s t : State} (he : s.err = 0#8) (h : walk n p s = .next t) :
    ∃ q : BitVec 32, (s.decPos.toNat ≤ s.decLen.toNat → q.toNat ≤ s.decLen.toNat) ∧
      ((∃ a : Sym, t = (s.setDec s.decActive q s.decLen).setResult (a.setWidth 32)) ∨
        ∃ e, (e = .truncatedStream ∨ e = .corruptStream) ∧ t = raise e (s.setDec s.decActive q s.decLen)) := by
  have hle := walk_decPos_le h
  rcases walk_cases (n := n) (p := p) he with ⟨a, q, hw⟩ | ⟨q, c, hc, hw⟩ | ⟨i, -, hw⟩ <;> rw [hw] at h <;> cases h
  · exact ⟨q, hle, .inl ⟨a, rfl⟩⟩
  · refine ⟨q, hle, .inr ?_⟩
    rcases hc with rfl | rfl
    · exact ⟨.truncatedStream, .inl rfl, (raise_of_noError (s := s.setDec s.decActive q s.decLen) .truncatedStream he).symm⟩
    · exact ⟨.corruptStream, .inr rfl, (raise_of_noError (s := s.setDec s.decActive q s.decLen) .corruptStream he).symm⟩

/-- No session is open. -/
abbrev NoSession (s : State) : Prop := s.encActive = false ∧ s.decActive = false

/-- The next states a command can answer from s, each with what it requires of s: a gated command ignored while ERR ≠ 0 (30_encoding.md R96), an
error raised with no other effect, or the command's own effect. -/
inductive Answer (s : State) : Instr → State → Prop
  | ignored {i : Instr} (hg : i.gateClass = .gated) (he : s.err ≠ 0#8) : Answer s i s
  | raised {i : Instr} (he : s.err = 0#8) (e : ErrCode) (hmem : errCode e ∈ possibleErrors i := by simp [possibleErrors, errCode]) :
      Answer s i (raise e s)
  | nop : Answer s .nop s
  | reset : Answer s .reset (resetBlock s)
  | clrErr : Answer s .clrErr (returnFromError s)
  | stop (he : s.err = 0#8) : Answer s .stop (closeSessions s)
  | freqClear (he : s.err = 0#8) : Answer s .freqClear (s.setFreq emptyFreq)
  | freqCount (he : s.err = 0#8) (a : Sym) (hmax : tableGet s.freq a ≠ 0xFFFFFFFF#32) :
      Answer s (.freqCount a) (s.setFreq (tableSet s.freq a (tableGet s.freq a + 1#32)))
  | freqSet (he : s.err = 0#8) (a : Sym) : Answer s (.freqSet a) (s.setFreq (tableSet s.freq a s.arg))
  | freqGet (a : Sym) : Answer s (.freqGet a) (s.setResult (tableGet s.freq a))
  | buildEmpty (he : s.err = 0#8) (hc : NoSession s) (hnil : freqAlphabet s.freq = []) :
      Answer s .build (raise .emptyAlphabet (clearTable s))
  | build (he : s.err = 0#8) (hc : NoSession s) (hne : freqAlphabet s.freq ≠ []) :
      Answer s .build (installCodes (freqAlphabet s.freq) (clearTable s))
  | tblClear (he : s.err = 0#8) (hc : NoSession s) : Answer s .tblClear (clearTable s)
  | tblSetLen (he : s.err = 0#8) (hc : NoSession s) (a : Sym) (n : BitVec 8) :
      Answer s (.tblSetLen a n) (invalidateTable (s.setTable (tableSet s.codeLen a n) s.codeBits))
  | tblSetWord (he : s.err = 0#8) (hc : NoSession s) (a : Sym) (w : BitVec 3) :
      Answer s (.tblSetWord a w)
        (invalidateTable (s.setTable s.codeLen (tableSet s.codeBits a (wordSet (tableGet s.codeBits a) w s.arg))))
  | commitEmpty (he : s.err = 0#8) (hc : NoSession s) (hnil : codeAlphabet s.codeLen = []) :
      Answer s .tblCommit (raise .emptyAlphabet (invalidateTable s))
  | commitClash (he : s.err = 0#8) (hc : NoSession s) (hclash : hasClash s = true) :
      Answer s .tblCommit (raise .badTable (invalidateTable s))
  | commit (he : s.err = 0#8) (hc : NoSession s) (hne : codeAlphabet s.codeLen ≠ []) (hfree : hasClash s = false) :
      Answer s .tblCommit ((validateTable (codeCount s) s).setResult (BitVec.ofNat 32 (codeCount s)))
  | tblGetLen (a : Sym) : Answer s (.tblGetLen a) (s.setResult ((tableGet s.codeLen a).setWidth 32))
  | tblGetWord (a : Sym) (w : BitVec 3) : Answer s (.tblGetWord a w) (s.setResult (wordGet (tableGet s.codeBits a) w))
  | encStart (he : s.err = 0#8) (hc : NoSession s) (hv : s.tableValid = true) : Answer s .encStart (s.setEnc true 0#32)
  | encSym (he : s.err = 0#8) (ha : s.encActive = true) (a : Sym) (hin : InTable s a)
      (hfit : s.encPos.toNat + (tableGet s.codeLen a).toNat ≤ s.params.pbufBits) :
      Answer s (.encSym a) ((s.setPbuf (s.pbuf.writeBits s.encPos.toNat (codeword s a))).setEnc s.encActive
        (s.encPos + (tableGet s.codeLen a).setWidth 32))
  | encFinish (he : s.err = 0#8) (ha : s.encActive = true) :
      Answer s .encFinish (((s.setResult s.encPos).setPbuf
        (s.pbuf.writeBits s.encPos.toNat (List.replicate (padCount s.encPos.toNat) false))).setEnc false s.encPos)
  | encPos : Answer s .encPos (s.setResult s.encPos)
  | decStart (he : s.err = 0#8) (hc : NoSession s) (hv : s.tableValid = true) (hfit : s.arg.toNat ≤ s.params.pbufBits) :
      Answer s .decStart (s.setDec true 0#32 s.arg)
  | decEnd (he : s.err = 0#8) (ha : s.decActive = true) (hend : s.decPos = s.decLen) : Answer s .decSym (s.setResult 0x00000100#32)
  | decSymbol (he : s.err = 0#8) (ha : s.decActive = true) (q : BitVec 32) (a : Sym)
      (hq : s.decPos.toNat ≤ s.decLen.toNat → q.toNat ≤ s.decLen.toNat) :
      Answer s .decSym ((s.setDec s.decActive q s.decLen).setResult (a.setWidth 32))
  | decError (he : s.err = 0#8) (ha : s.decActive = true) (q : BitVec 32) (e : ErrCode)
      (hq : s.decPos.toNat ≤ s.decLen.toNat → q.toNat ≤ s.decLen.toNat) (hstream : e = .truncatedStream ∨ e = .corruptStream) :
      Answer s .decSym (raise e (s.setDec s.decActive q s.decLen))
  | decPos : Answer s .decPos (s.setResult s.decPos)
  | pbufWr (he : s.err = 0#8) (hc : NoSession s) (k : BitVec 16) (v : Byte) (hk : k.toNat < s.params.pbufBytes) :
      Answer s (.pbufWr k v) (s.setPbuf (s.pbuf.writeByte k.toNat v))
  | readRange (k : BitVec 16) (hk : s.params.pbufBytes ≤ k.toNat) : Answer s (.pbufRd k) (raise .range s)
  | pbufRd (k : BitVec 16) (v : Byte) (hbyte : s.pbuf.byte? k.toNat = some v) : Answer s (.pbufRd k) (s.setResult (v.setWidth 32))

/-! ## The gate and the session rules -/

section
variable {s t : State} {i : Instr} {run : Out}

/-- The gate: it is enough to look at the command's meaning with ERR = 0 (30_encoding.md R96). -/
theorem Answer.of_gated (h : whenNoError s run = .next t)
    (hrun : s.err = 0#8 → run = .next t → Answer s i t)
    (hg : i.gateClass = .gated := by rfl) : Answer s i t := by
  rcases whenNoError_cases h with ⟨he, hskip⟩ | ⟨he, hnext⟩
  · cases hskip
    exact .ignored hg he
  · exact hrun he hnext.symm

/-- The rule of the commands that need no session: the gate, and SEQUENCE while one is open (R97). -/
theorem Answer.of_noSession (h : whenNoError s (whenNoSession s run) = .next t)
    (hrun : s.err = 0#8 → NoSession s → run = .next t → Answer s i t)
    (hg : i.gateClass = .gated := by rfl) (hseq : errCode .sequence ∈ possibleErrors i := by simp [possibleErrors, errCode]) :
    Answer s i t := by
  refine .of_gated h (fun he hs => ?_) hg
  rcases whenNoSession_cases hs with ⟨-, hraise⟩ | ⟨henc, hdec, hnext⟩
  · cases hraise
    exact .raised he .sequence hseq
  · exact hrun he ⟨henc, hdec⟩ hnext.symm

/-- The rule of ENC_SYM and ENC_FINISH: the gate, and SEQUENCE outside an encode session (R97). -/
theorem Answer.of_encoding (h : whenNoError s (whenEncoding s run) = .next t)
    (hrun : s.err = 0#8 → s.encActive = true → run = .next t → Answer s i t)
    (hg : i.gateClass = .gated := by rfl) (hseq : errCode .sequence ∈ possibleErrors i := by simp [possibleErrors, errCode]) :
    Answer s i t := by
  refine .of_gated h (fun he hs => ?_) hg
  rcases whenEncoding_cases hs with ⟨-, hraise⟩ | ⟨ha, hnext⟩
  · cases hraise
    exact .raised he .sequence hseq
  · exact hrun he ha hnext.symm

/-- The rule of DEC_SYM: the gate, and SEQUENCE outside a decode session (R97). -/
theorem Answer.of_decoding (h : whenNoError s (whenDecoding s run) = .next t)
    (hrun : s.err = 0#8 → s.decActive = true → run = .next t → Answer s i t)
    (hg : i.gateClass = .gated := by rfl) (hseq : errCode .sequence ∈ possibleErrors i := by simp [possibleErrors, errCode]) :
    Answer s i t := by
  refine .of_gated h (fun he hs => ?_) hg
  rcases whenDecoding_cases hs with ⟨-, hraise⟩ | ⟨ha, hnext⟩
  · cases hraise
    exact .raised he .sequence hseq
  · exact hrun he ha hnext.symm

end

/-! ## The commands with more than one effect -/

section
variable {s t : State}

theorem execFreqCount_answer {a : Sym} (h : execFreqCount a s = .next t) : Answer s (.freqCount a) t := by
  refine .of_gated h fun he h => ?_
  split at h <;> cases h
  · exact .raised he .overflow
  · exact .freqCount he a ‹_›

theorem execBuild_answer (h : execBuild s = .next t) : Answer s .build t := by
  refine .of_noSession h fun he hc h => ?_
  split at h <;> cases h
  · exact .buildEmpty he hc ‹_›
  case _ a rest hcons => exact hcons ▸ .build he hc (by simp [hcons])

theorem execTblCommit_answer (h : execTblCommit s = .next t) : Answer s .tblCommit t := by
  refine .of_noSession h fun he hc h => ?_
  split at h
  · cases h
    exact .commitEmpty he hc ‹_›
  case _ a rest hcons =>
    split at h <;> cases h
    · exact .commitClash he hc ‹_›
    · rw [← hcons]
      exact .commit he hc (by simp [hcons]) (by simpa using ‹¬ hasClash s = true›)

theorem execEncStart_answer (h : execEncStart s = .next t) : Answer s .encStart t := by
  refine .of_noSession h fun he hc h => ?_
  split at h <;> cases h
  · exact .encStart he hc ‹_›
  · exact .raised he .noTable

theorem execEncSym_answer {a : Sym} (h : execEncSym a s = .next t) : Answer s (.encSym a) t := by
  refine .of_encoding h fun he ha h => ?_
  split at h
  · cases h
    exact .raised he .unknownSymbol
  · split at h <;> cases h
    · exact .raised he .bufFull
    · exact .encSym he ha a ‹_› (by omega)

theorem execDecStart_answer (h : execDecStart s = .next t) : Answer s .decStart t := by
  refine .of_noSession h fun he hc h => ?_
  split at h
  · split at h <;> cases h
    · exact .raised he .range
    · exact .decStart he hc ‹_› (by omega)
  · cases h
    exact .raised he .noTable

theorem execDecSym_answer (h : execDecSym s = .next t) : Answer s .decSym t := by
  refine .of_decoding h fun he ha h => ?_
  split at h
  · cases h
    exact .decEnd he ha ‹_›
  · obtain ⟨q, hq, ⟨a, rfl⟩ | ⟨e, hstream, rfl⟩⟩ := walk_next_cases he h
    · exact .decSymbol he ha q a hq
    · exact .decError he ha q e hq hstream

theorem execPbufWr_answer {k : BitVec 16} {v : Byte} (h : execPbufWr k v s = .next t) : Answer s (.pbufWr k v) t := by
  refine .of_noSession h fun he hc h => ?_
  split at h <;> cases h
  · exact .raised he .range
  · exact .pbufWr he hc k v (by omega)

theorem execPbufRd_answer {k : BitVec 16} (h : execPbufRd k s = .next t) : Answer s (.pbufRd k) t := by
  unfold execPbufRd at h
  split at h
  · cases h
    exact .readRange k ‹_›
  · split at h <;> cases h
    exact .pbufRd k _ ‹_›

/-- Every next state of a command is one of its answers. -/
theorem exec_answer {i : Instr} (h : exec i s = .next t) : Answer s i t := by
  cases i with
  | nop => cases h; exact .nop
  | reset => cases h; exact .reset
  | clrErr => cases h; exact .clrErr
  | freqGet a => cases h; exact .freqGet a
  | tblGetLen a => cases h; exact .tblGetLen a
  | tblGetWord a w => cases h; exact .tblGetWord a w
  | encPos => cases h; exact .encPos
  | decPos => cases h; exact .decPos
  | stop => exact .of_gated h fun he h => by cases h; exact .stop he
  | freqClear => exact .of_gated h fun he h => by cases h; exact .freqClear he
  | freqSet a => exact .of_gated h fun he h => by cases h; exact .freqSet he a
  | tblClear => exact .of_noSession h fun he hc h => by cases h; exact .tblClear he hc
  | tblSetLen a n => exact .of_noSession h fun he hc h => by cases h; exact .tblSetLen he hc a n
  | tblSetWord a w => exact .of_noSession h fun he hc h => by cases h; exact .tblSetWord he hc a w
  | encFinish => exact .of_encoding h fun he ha h => by cases h; exact .encFinish he ha
  | freqCount a => exact execFreqCount_answer h
  | build => exact execBuild_answer h
  | tblCommit => exact execTblCommit_answer h
  | encStart => exact execEncStart_answer h
  | encSym a => exact execEncSym_answer h
  | decStart => exact execDecStart_answer h
  | decSym => exact execDecSym_answer h
  | pbufWr k v => exact execPbufWr_answer h
  | pbufRd k => exact execPbufRd_answer h

end

end Sys2Proof.Machine
end

section
/-! PROOFS of the statements of 10_state.md, part 5: who writes each element (O54), the first error (O55), and the invariant along a step
(O58), each from the answers of a command. -/

namespace Sys2Proof.Machine

/-! ## What raise leaves -/

section
variable (e : ErrCode) (s : State)

@[simp] theorem raise_params : (raise e s).params = s.params := by rw [raise_frame]
@[simp] theorem raise_arg : (raise e s).arg = s.arg := by rw [raise_frame]
@[simp] theorem raise_result : (raise e s).result = s.result := by rw [raise_frame]
@[simp] theorem raise_freq : (raise e s).freq = s.freq := by rw [raise_frame]
@[simp] theorem raise_codeLen : (raise e s).codeLen = s.codeLen := by rw [raise_frame]
@[simp] theorem raise_codeBits : (raise e s).codeBits = s.codeBits := by rw [raise_frame]
@[simp] theorem raise_tableValid : (raise e s).tableValid = s.tableValid := by rw [raise_frame]
@[simp] theorem raise_pbuf : (raise e s).pbuf = s.pbuf := by rw [raise_frame]
@[simp] theorem raise_pending : (raise e s).pending = s.pending := by rw [raise_frame]
@[simp] theorem raise_reads : (raise e s).reads = s.reads := by rw [raise_frame]

end

/-! ## Who writes each element -/

namespace Answer

variable {s t : State} {i : Instr} (h : Answer s i t)
include h

/-- Only RESET writes ARG (10_state.md R22, R121). -/
theorem arg_eq : t.arg = s.arg ∨ i = .reset := by
  cases h with
  | reset => exact .inr rfl
  | raised | buildEmpty | commitEmpty | commitClash | decError | readRange => exact .inl (raise_arg _ _)
  | _ => exact .inl rfl

/-- The writers of RESULT (R23). -/
theorem result_eq :
    t.result = s.result ∨ (∃ a, i = .freqGet a) ∨ i = .build ∨ i = .tblCommit ∨ (∃ a, i = .tblGetLen a) ∨ (∃ a w, i = .tblGetWord a w) ∨
      i = .encFinish ∨ i = .encPos ∨ i = .decSym ∨ i = .decPos ∨ (∃ k, i = .pbufRd k) ∨ i = .reset := by
  cases h with
  | freqGet | build | commit | tblGetLen | tblGetWord | encFinish | encPos | decEnd | decSymbol | decPos | pbufRd | reset => simp
  | raised | buildEmpty | commitEmpty | commitClash | decError | readRange => exact .inl (raise_result _ _)
  | _ => exact .inl rfl

/-- A command that raises an error leaves RESULT (R23). -/
theorem result_eq_of_err (hs : s.err = 0#8) (ht : t.err ≠ 0#8) : t.result = s.result := by
  cases h with
  | freqGet | build | commit | tblGetLen | tblGetWord | encFinish | encPos | decEnd | decSymbol | decPos | pbufRd => exact absurd hs ht
  | reset => exact absurd rfl ht
  | raised | buildEmpty | commitEmpty | commitClash | decError | readRange => exact raise_result _ _
  | _ => rfl

/-- The writers of FREQ (R26). -/
theorem freq_eq : t.freq = s.freq ∨ i = .freqClear ∨ (∃ a, i = .freqCount a) ∨ (∃ a, i = .freqSet a) ∨ i = .reset := by
  cases h with
  | freqClear | freqCount | freqSet | reset => simp
  | raised | buildEmpty | commitEmpty | commitClash | decError | readRange => exact .inl (raise_freq _ _)
  | _ => exact .inl rfl

/-- The writers of CODE_LEN (R27). -/
theorem codeLen_eq : t.codeLen = s.codeLen ∨ i = .build ∨ i = .tblClear ∨ (∃ a n, i = .tblSetLen a n) ∨ i = .reset := by
  cases h with
  | build | buildEmpty | tblClear | tblSetLen | reset => simp
  | raised | commitEmpty | commitClash | decError | readRange => exact .inl (raise_codeLen _ _)
  | _ => exact .inl rfl

/-- The writers of CODE_BITS (R28). -/
theorem codeBits_eq : t.codeBits = s.codeBits ∨ i = .build ∨ i = .tblClear ∨ (∃ a w, i = .tblSetWord a w) ∨ i = .reset := by
  cases h with
  | build | buildEmpty | tblClear | tblSetWord | reset => simp
  | raised | commitEmpty | commitClash | decError | readRange => exact .inl (raise_codeBits _ _)
  | _ => exact .inl rfl

/-- Only BUILD and TBL_COMMIT make a table valid (R29). -/
theorem of_tableValid (hs : s.tableValid = false) (ht : t.tableValid = true) : i = .build ∨ i = .tblCommit := by
  cases h with
  | build | buildEmpty => exact .inl rfl
  | commit | commitEmpty | commitClash => exact .inr rfl
  | reset | tblClear | tblSetLen | tblSetWord => cases ht
  | raised | readRange | decError => exact absurd ((raise_tableValid _ _).symm.trans ht) (by simp [hs])
  | _ => exact absurd (hs.symm.trans ht) (by decide)

/-- The writers of PBUF (20_memory.md R67). -/
theorem pbuf_eq : t.pbuf = s.pbuf ∨ (∃ k v, i = .pbufWr k v) ∨ (∃ a, i = .encSym a) ∨ i = .encFinish := by
  cases h with
  | pbufWr | encSym | encFinish => simp
  | raised | buildEmpty | commitEmpty | commitClash | decError | readRange => exact .inl (raise_pbuf _ _)
  | _ => exact .inl rfl

/-- No command writes the parameters or the host's own fields (logs 1, 2, 3, 5). -/
theorem hostFields_eq : t.params = s.params ∧ t.pending = s.pending ∧ t.reads = s.reads := by
  cases h with
  | raised | buildEmpty | commitEmpty | commitClash | decError | readRange =>
    exact ⟨raise_params _ _, raise_pending _ _, raise_reads _ _⟩
  | _ => exact ⟨rfl, rfl, rfl⟩

/-- Only CLR_ERR and RESET change ERR once it is not 0 (10_state.md R35). -/
theorem err_eq_of_err (he : s.err ≠ 0#8) (hclr : i ≠ .clrErr) (hreset : i ≠ .reset) : t.err = s.err := by
  cases h with
  | clrErr => exact absurd rfl hclr
  | reset => exact absurd rfl hreset
  | readRange => rw [raise_of_error _ he]
  | ignored | nop | freqGet | tblGetLen | tblGetWord | encPos | decPos | pbufRd => rfl
  | _ => exact absurd ‹s.err = 0#8› he

end Answer

/-- Settles O54, element by element. -/
theorem writersOfEachElement : Obligations.WritersOfEachElement := by
  intro i s t h
  have ha := exec_answer h
  exact ⟨ha.arg_eq.resolve_left, ha.result_eq.resolve_left, ha.result_eq_of_err, ha.freq_eq.resolve_left, ha.codeLen_eq.resolve_left,
    ha.codeBits_eq.resolve_left, ha.of_tableValid, ha.pbuf_eq.resolve_left, ha.hostFields_eq⟩

/-! ## The first error -/

/-- A CMD write raises ILLEGAL_CMD or is a command's answer (30_encoding.md R90). -/
theorem writeCmd_next_cases {w : Word} {s t : State} (h : writeCmd w s = .next t) :
    ((∀ i, decode w ≠ .ok i) ∧ t = raise .illegalCmd s) ∨ ∃ i, decode w = .ok i ∧ Answer s i t := by
  unfold writeCmd at h
  split at h
  case _ hbad =>
    cases h
    exact .inl ⟨by simp [hbad], rfl⟩
  case _ i hok => exact .inr ⟨i, hok, exec_answer h⟩

/-- Settles O55: a raise keeps ERR once it is not 0, and so does every command but CLR_ERR and RESET. -/
theorem firstErrorIsKept : Obligations.FirstErrorIsKept := by
  intro s t
  refine ⟨fun he e => ?_, ?_, fun he => ⟨fun e => raise_of_error e he, fun i hclr hreset h => ?_, fun w hclr hreset h => ?_⟩⟩
  · rw [raise_of_noError e he]
    exact errCode_ne_zero e
  · rintro (h | h) <;> cases h <;> rfl
  · exact (exec_answer h).err_eq_of_err he hclr hreset
  · rcases writeCmd_next_cases h with ⟨-, rfl⟩ | ⟨i, hdecode, ha⟩
    · rw [raise_of_error _ he]
    · have hne {j : Instr} (hj : decode w ≠ .ok j) : i ≠ j := fun e => hj (e ▸ hdecode)
      exact ha.err_eq_of_err he (hne hclr) (hne hreset)

/-! ## The invariant along a step -/

theorem pbufBits_lt (p : Params) : p.pbufBits < 2 ^ 32 := by
  have := p.pbufLast.isLt
  simp only [Params.pbufBits, Params.pbufBytes]
  omega

theorem prefixFree_of_not_hasClash {s : State} (h : hasClash s = false) : PrefixFree s := by
  intro a ha b hb hab hpre
  exact absurd (hasClash_iff.mpr ⟨a, b, ha, hb, hab, hpre⟩) (by simp [h])

theorem inv_encSym {s : State} (hs : Inv s) (he : s.err = 0#8) (ha : s.encActive = true) {a : Sym}
    (hfit : s.encPos.toNat + (tableGet s.codeLen a).toNat ≤ s.params.pbufBits) :
    Inv ((s.setPbuf (s.pbuf.writeBits s.encPos.toNat (codeword s a))).setEnc s.encActive
      (s.encPos + (tableGet s.codeLen a).setWidth 32)) := by
  have hpayload := Payload.wf_writeBits (codeword s a) hs.payloadForm (by rwa [length_codeword])
  have hbits := pbufBits_lt s.params
  have hpos : (s.encPos + (tableGet s.codeLen a).setWidth 32).toNat = s.encPos.toNat + (tableGet s.codeLen a).toNat := by
    rw [BitVec.toNat_add, BitVec.toNat_setWidth_of_le (by decide), Nat.mod_eq_of_lt (by omega)]
  exact inv_setEnc (inv_setPbuf hs hpayload) (hpos ▸ hfit) fun _ =>
    ⟨he, by simpa [ha] using hs.oneSession, hs.sessionHasTable (.inl ha)⟩

theorem inv_encFinish {s : State} (hs : Inv s) :
    Inv (((s.setResult s.encPos).setPbuf
      (s.pbuf.writeBits s.encPos.toNat (List.replicate (padCount s.encPos.toNat) false))).setEnc false s.encPos) := by
  have hfit : s.encPos.toNat + padCount s.encPos.toNat ≤ 8 * s.params.pbufBytes := by
    have := hs.encBound
    simp only [Params.pbufBits, padCount] at this ⊢
    omega
  have hpayload := Payload.wf_writeBits (List.replicate (padCount s.encPos.toNat) false) hs.payloadForm (by rwa [List.length_replicate])
  exact inv_setEnc (inv_setPbuf (inv_setResult hs s.encPos) hpayload) hs.encBound fun ha => absurd ha Bool.false_ne_true

/-- In an open decode session the decoder may move to any place up to DEC_LEN. -/
theorem inv_moveDec {s : State} (hs : Inv s) (he : s.err = 0#8) (ha : s.decActive = true) {q : BitVec 32}
    (hq : q.toNat ≤ s.decLen.toNat) : Inv (s.setDec s.decActive q s.decLen) :=
  inv_setDec hs hq hs.decBound.2 fun _ => ⟨he, by simpa [ha] using hs.oneSession, hs.sessionHasTable (.inr ha)⟩

/-- Every answer of a command keeps the invariant. -/
theorem Answer.inv {s t : State} {i : Instr} (h : Answer s i t) (hs : Inv s) : Inv t := by
  cases h with
  | ignored | nop => exact hs
  | raised he e => exact inv_raise hs e
  | readRange => exact inv_raise hs _
  | reset => exact inv_resetBlock hs.payloadForm
  | clrErr => exact inv_returnFromError hs
  | stop => exact inv_closeSessions hs
  | freqClear | freqCount | freqSet => exact inv_setFreq hs _
  | freqGet | tblGetLen | tblGetWord | encPos | decEnd | decPos | pbufRd => exact inv_setResult hs _
  | buildEmpty he hc => exact inv_raise (inv_editTable hs hc _ _) _
  | build he hc hne =>
    exact inv_installCodes hs hc (nodup_freqAlphabet _) (length_freqAlphabet_le _) (List.length_pos_iff.mpr hne)
  | tblClear he hc => exact inv_editTable hs hc _ _
  | tblSetLen he hc => exact inv_editTable hs hc _ _
  | tblSetWord he hc => exact inv_editTable hs hc _ _
  | commitEmpty he hc => exact inv_raise (inv_editTable hs hc _ _) _
  | commitClash he hc => exact inv_raise (inv_editTable hs hc _ _) _
  | commit he hc hne hfree =>
    exact inv_setResult (inv_validateTable hs (prefixFree_of_not_hasClash hfree) (List.length_pos_iff.mpr hne)) _
  | encStart he hc hv => exact inv_setEnc hs (Nat.zero_le _) fun _ => ⟨he, hc.2, hv⟩
  | encSym he ha a hin hfit => exact inv_encSym hs he ha hfit
  | encFinish => exact inv_encFinish hs
  | decStart he hc hv hfit => exact inv_setDec hs (Nat.zero_le _) hfit fun _ => ⟨he, hc.1, hv⟩
  | decSymbol he ha q a hq => exact inv_setResult (inv_moveDec hs he ha (hq hs.decBound.1)) _
  | decError he ha q e hq => exact inv_raise (inv_moveDec hs he ha (hq hs.decBound.1)) e
  | pbufWr he hc k v hk => exact inv_setPbuf hs (Payload.wf_writeByte hs.payloadForm hk v)

theorem inv_of_writeCmd {w : Word} {s t : State} (hs : Inv s) (h : writeCmd w s = .next t) : Inv t := by
  rcases writeCmd_next_cases h with ⟨-, rfl⟩ | ⟨i, -, ha⟩
  · exact inv_raise hs _
  · exact ha.inv hs

theorem inv_of_writeRegister {off : Nat} {v : Word} {s t : State} (hs : Inv s) (h : writeRegister off v s = .next t) : Inv t := by
  unfold writeRegister at h
  split at h
  · exact inv_of_writeCmd hs h
  · cases h
    exact inv_setArg hs v
  · cases h
    exact hs

/-- An access that answers a next state has passed the check and is what it does at its offset (20_memory.md R63). -/
theorem checkedAccess_next {width : AccessWidth} {addr : Nat} {s t : State} {run : Nat → Out}
    (h : checkedAccess width addr s run = .next t) : run (addr - s.params.base) = .next t := by
  unfold checkedAccess at h
  split_ifs at h
  exact h

theorem inv_of_hostEvent {e : HostEvent} {s t : State} (hs : Inv s) (h : hostEvent e s = .next t) : Inv t := by
  cases e with
  | write width addr v =>
    simp only [hostEvent] at h
    exact inv_of_writeRegister hs (checkedAccess_next h)
  | read width addr =>
    simp only [hostEvent] at h
    cases checkedAccess_next h
    exact inv_pushRead hs _
  | powerOnReset =>
    cases h
    exact inv_powerOn s

/-- Settles O58: the step does nothing, or takes an event, which keeps the invariant. -/
theorem stepKeepsInvariant : Obligations.StepKeepsInvariant := by
  intro s t hs h
  cases hpending : s.pending with
  | nil =>
    simp only [step, takeEvent, hpending] at h
    cases h
    exact hs
  | cons e rest => exact inv_of_hostEvent (inv_setPending hs rest) (step_of_pending_cons hpending ▸ h)

end Sys2Proof.Machine
end

section
/-! PROOFS of the statements of 20_memory.md: what an aligned 32-bit access of the window does (R61, R62; O7), and which accesses of the window are
refused (R63; O8). -/

namespace Sys2Proof.Machine

/-! ## The registers of the window -/

/-- The read column of the table of R61, and R62's 0 for every other offset. -/
theorem readRegister_eq (off : Nat) (s : State) :
    readRegister off s = if off = 0x04 then s.arg else if off = 0x08 then s.result else if off = 0x0C then status s else 0#32 := by
  unfold readRegister
  split
  · rfl
  · rfl
  · rfl
  case _ hArg hResult hStatus => rw [if_neg hArg, if_neg hResult, if_neg hStatus]

/-- Only CMD and ARG take a write (20_memory.md R61, R62). -/
theorem writeRegister_ignored {off : Nat} (hCmd : off ≠ 0x00) (hArg : off ≠ 0x04) (v : Word) (s : State) :
    writeRegister off v s = .next s := by
  unfold writeRegister
  split
  · exact absurd rfl hCmd
  · exact absurd rfl hArg
  · rfl

/-! ## The step of an access -/

section
variable {s : State} {rest : List HostEvent} {off : Nat} {width : AccessWidth} {v : Word}

theorem step_of_pending_read (hpending : s.pending = .read width (s.params.base + off) :: rest) :
    step s = checkedAccess width ((s.setPending rest).params.base + off) (s.setPending rest)
      fun o => .next ((s.setPending rest).pushRead (readRegister o s)) :=
  step_of_pending_cons hpending

theorem step_of_pending_write (hpending : s.pending = .write width (s.params.base + off) v :: rest) :
    step s = checkedAccess width ((s.setPending rest).params.base + off) (s.setPending rest)
      fun o => writeRegister o v (s.setPending rest) :=
  step_of_pending_cons hpending

end

/-- Settles O7: an aligned access passes the check, and what is left is the register's own read or write. -/
theorem registerWindowAccesses : Obligations.RegisterWindowAccesses := by
  intro s rest off hlt hal
  refine ⟨fun hread => ?_, fun v hwrite => ?_⟩
  · rw [step_of_pending_read hread, checkedAccess_word_aligned hlt hal, readRegister_eq]
    rfl
  · rw [step_of_pending_write hwrite, checkedAccess_word_aligned hlt hal]
    refine ⟨?_, ?_, fun hCmd hArg => writeRegister_ignored hCmd hArg v _⟩
    · rintro rfl
      rfl
    · rintro rfl
      rfl

/-! ## The refused accesses -/

/-- No command is refused: each answers a next state or faults at an unspecified payload bit (O57). -/
theorem exec_ne_refused (i : Instr) (s : State) (r : Refusal) : exec i s ≠ .refused r := by
  rcases onlyUnspecifiedBitsStop i s with ⟨t, h⟩ | ⟨-, n, -, h⟩ | ⟨k, -, -, h⟩ <;> simp [h]

theorem writeCmd_ne_refused (w : Word) (s : State) (r : Refusal) : writeCmd w s ≠ .refused r := by
  unfold writeCmd
  split
  · simp
  · exact exec_ne_refused _ s r

theorem writeRegister_ne_refused (off : Nat) (v : Word) (s : State) (r : Refusal) : writeRegister off v s ≠ .refused r := by
  unfold writeRegister
  split
  · exact writeCmd_ne_refused v s r
  · simp
  · simp

/-- Inside the window the check refuses exactly the narrow and the misaligned accesses (20_memory.md R63), when the access itself is never refused. -/
theorem checkedAccess_refused_iff {width : AccessWidth} {off : Nat} {s : State} {run : Nat → Out} (hlt : off < windowBytes)
    (hrun : ∀ r, run off ≠ .refused r) :
    (∃ r, checkedAccess width (s.params.base + off) s run = .refused r) ↔ (width ≠ .word ∨ off % 4 ≠ 0) := by
  by_cases hwidth : width = .word
  · subst hwidth
    by_cases hal : off % 4 = 0
    · simp [checkedAccess_word_aligned hlt hal, hrun, hal]
    · simp [checkedAccess, Nat.not_le.mpr hlt, hal]
  · simp [checkedAccess, Nat.not_le.mpr hlt, hwidth]

/-- Settles O8: the check refuses as R63 says, and neither the write nor the read of a register is refused. -/
theorem undefinedAccessesRefused : Obligations.UndefinedAccessesRefused := by
  intro s rest off width hlt
  refine ⟨fun v hwrite => ?_, fun hread => ?_⟩
  · rw [step_of_pending_write hwrite]
    exact checkedAccess_refused_iff hlt (writeRegister_ne_refused off v _)
  · rw [step_of_pending_read hread]
    exact checkedAccess_refused_iff hlt fun r => by simp

end Sys2Proof.Machine
end

section
/-! PROOFS of the statements of 30_encoding.md, part 1: a word is legal exactly when it is the encoding of a command (R91, R94, R98; O1, O2, O4). -/

namespace Sys2Proof

open Laws

/-! ## The fields of a word -/

/-- The OPC column of R94. -/
def opcodeOf : Instr → BitVec 8
  | .nop => 0x00#8
  | .reset => 0x01#8
  | .clrErr => 0x02#8
  | .stop => 0x03#8
  | .freqClear => 0x10#8
  | .freqCount _ => 0x11#8
  | .freqSet _ => 0x12#8
  | .freqGet _ => 0x13#8
  | .build => 0x18#8
  | .tblClear => 0x20#8
  | .tblSetLen _ _ => 0x21#8
  | .tblSetWord _ _ => 0x22#8
  | .tblCommit => 0x23#8
  | .tblGetLen _ => 0x24#8
  | .tblGetWord _ _ => 0x25#8
  | .encStart => 0x30#8
  | .encSym _ => 0x31#8
  | .encFinish => 0x32#8
  | .encPos => 0x33#8
  | .decStart => 0x40#8
  | .decSym => 0x41#8
  | .decPos => 0x42#8
  | .pbufWr _ _ => 0x50#8
  | .pbufRd _ => 0x51#8

/-- OPC in its place (R91). -/
def putOpc (c : BitVec 8) : Word := c.setWidth 32 <<< 24

theorem opcField_or (x y : Word) : opcField (x ||| y) = opcField x ||| opcField y := EncodingFields.extract_or x y 24 8

theorem opcField_putSym (a : Sym) : opcField (putSym a) = 0#8 :=
  BitVec.eq_of_getLsbD_eq fun i _ => by
    have hout : a.getLsbD (24 + i) = false := BitVec.getLsbD_of_ge a _ (by omega)
    simp [opcField, putSym, hout]

/-- A field at bit 8 of at most 16 bits ends below OPC. -/
theorem opcField_putAt8 {n : Nat} (hn : n ≤ 16) (x : BitVec n) : opcField (putAt8 x) = 0#8 :=
  BitVec.eq_of_getLsbD_eq fun i hi => by
    have hout : x.getLsbD (24 + i - 8) = false := BitVec.getLsbD_of_ge x _ (by omega)
    simp [opcField, putAt8, hout]

/-- The word of a command carries its opcode (R94). -/
theorem opcField_encode (i : Instr) : opcField (encode i) = opcodeOf i := by
  cases i with
  | freqCount | freqSet | freqGet | tblGetLen | encSym => rw [encode, opcField_or, opcField_putSym]; rfl
  | tblSetLen | tblSetWord | tblGetWord | pbufWr =>
    rw [encode, opcField_or, opcField_or, opcField_putSym, opcField_putAt8 (by decide)]; rfl
  | pbufRd => rw [encode, opcField_or, opcField_putAt8 (by decide)]; rfl
  | _ => rfl

/-! ## A word is put together from its fields -/

/-- The n bits at bit k of a word, in place. -/
theorem fieldMask_and (w : Word) (k n : Nat) : (BitVec.allOnes n).setWidth 32 <<< k &&& w = (w.extractLsb' k n).setWidth 32 <<< k :=
  BitVec.eq_of_getLsbD_eq fun i hi => by
    by_cases hk : i < k
    · simp [hk]
    · have hadd : k + (i - k) = i := by omega
      by_cases hn : i - k < n
      · simp [hi, hk, hn, hadd]
      · simp [hn]

theorem putOpc_opcField (w : Word) : putOpc (opcField w) = 0xFF000000#32 &&& w := (fieldMask_and w 24 8).symm

theorem putSym_symField (w : Word) : putSym (symField w) = 0x000000FF#32 &&& w :=
  calc putSym (symField w)
      = (symField w).setWidth 32 <<< 0 := (BitVec.shiftLeft_zero _).symm
    _ = 0x000000FF#32 &&& w := (fieldMask_and w 0 8).symm

theorem putAt8_lenField (w : Word) : putAt8 (lenField w) = 0x0000FF00#32 &&& w := (fieldMask_and w 8 8).symm

theorem putAt8_wordIndexField (w : Word) : putAt8 (wordIndexField w) = 0x00000700#32 &&& w := (fieldMask_and w 8 3).symm

theorem putAt8_idxField (w : Word) : putAt8 (idxField w) = 0x00FFFF00#32 &&& w := (fieldMask_and w 8 16).symm

section
variable {w : Word} {c : BitVec 8}

/-- With the bits of one mask all 0, the bits of the other are the whole word. -/
theorem mask_and_eq_self {m r : Word} (hr : w &&& r = 0#32) (hall : r ||| m = 0xFFFFFFFF#32) : m &&& w = w :=
  calc m &&& w
      = r &&& w ||| m &&& w := by rw [BitVec.and_comm r, hr, BitVec.zero_or]
    _ = (r ||| m) &&& w := (EncodingFields.and_or r m w).symm
    _ = w := by rw [hall]; exact BitVec.allOnes_and

theorem word_of_formatN (hopc : opcField w = c) (h : w &&& reservedMask .n = 0#32) : putOpc c = w := by
  rw [← hopc, putOpc_opcField]
  exact mask_and_eq_self h (by decide)

theorem word_of_formatS (hopc : opcField w = c) (h : w &&& reservedMask .s = 0#32) : putOpc c ||| putSym (symField w) = w := by
  rw [← hopc, putOpc_opcField, putSym_symField, ← EncodingFields.and_or]
  exact mask_and_eq_self h (by decide)

theorem word_of_formatSL (hopc : opcField w = c) (h : w &&& reservedMask .sl = 0#32) :
    putOpc c ||| putAt8 (lenField w) ||| putSym (symField w) = w := by
  rw [← hopc, putOpc_opcField, putAt8_lenField, putSym_symField, ← EncodingFields.and_or, ← EncodingFields.and_or]
  exact mask_and_eq_self h (by decide)

theorem word_of_formatSW (hopc : opcField w = c) (h : w &&& reservedMask .sw = 0#32) :
    putOpc c ||| putAt8 (wordIndexField w) ||| putSym (symField w) = w := by
  rw [← hopc, putOpc_opcField, putAt8_wordIndexField, putSym_symField, ← EncodingFields.and_or, ← EncodingFields.and_or]
  exact mask_and_eq_self h (by decide)

theorem word_of_formatBD (hopc : opcField w = c) (h : w &&& reservedMask .bd = 0#32) :
    putOpc c ||| putAt8 (idxField w) ||| putSym (dataField w) = w := by
  rw [← hopc, putOpc_opcField, putAt8_idxField, show dataField w = symField w from rfl, putSym_symField, ← EncodingFields.and_or,
    ← EncodingFields.and_or]
  exact mask_and_eq_self h (by decide)

theorem word_of_formatBI (hopc : opcField w = c) (h : w &&& reservedMask .bi = 0#32) : putOpc c ||| putAt8 (idxField w) = w := by
  rw [← hopc, putOpc_opcField, putAt8_idxField, ← EncodingFields.and_or]
  exact mask_and_eq_self h (by decide)

end

/-! ## The decoder -/

theorem acceptFormat_eq_ok_iff {f : Format} {w : Word} {i j : Instr} :
    acceptFormat f w i = .ok j ↔ w &&& reservedMask f = 0#32 ∧ i = j := by
  unfold acceptFormat
  split <;> simp_all

theorem acceptFormat_of_reserved {f : Format} {w : Word} {i : Instr} (h : w &&& reservedMask f = 0#32) : acceptFormat f w i = .ok i :=
  acceptFormat_eq_ok_iff.mpr ⟨h, rfl⟩

/-- What the laws say of each command's word: reserved bits, row and fields (Laws/PerInstr.lean). -/
theorem encodingFields (i : Instr) : EncodingFields.Statement i := by
  cases i
  exacts [EncodingFields.nop, EncodingFields.reset, EncodingFields.clrErr, EncodingFields.stop, EncodingFields.freqClear,
    EncodingFields.freqCount _, EncodingFields.freqSet _, EncodingFields.freqGet _, EncodingFields.build, EncodingFields.tblClear,
    EncodingFields.tblSetLen _ _, EncodingFields.tblSetWord _ _, EncodingFields.tblCommit, EncodingFields.tblGetLen _,
    EncodingFields.tblGetWord _ _, EncodingFields.encStart, EncodingFields.encSym _, EncodingFields.encFinish, EncodingFields.encPos,
    EncodingFields.decStart, EncodingFields.decSym, EncodingFields.decPos, EncodingFields.pbufWr _ _, EncodingFields.pbufRd _]

/-- Settles O1: the word carries the opcode and 0 in the reserved bits, and its fields read back as the operands. -/
theorem decodeEncodeAgree : Obligations.DecodeEncodeAgree := by
  intro i
  obtain ⟨hres, -, hfields⟩ := encodingFields i
  have hopc := opcField_encode i
  cases i with
  | freqCount | freqSet | freqGet | tblGetLen | encSym | pbufRd =>
    simp only [decode, hopc, opcodeOf, hfields]
    exact acceptFormat_of_reserved hres
  | tblSetLen | tblSetWord | tblGetWord | pbufWr =>
    obtain ⟨hfst, hsnd⟩ := hfields
    simp only [decode, hopc, opcodeOf, hfst, hsnd]
    exact acceptFormat_of_reserved hres
  | _ => rfl

/-- An accepted command is encoded as the word, when the word is put together from the command's opcode and fields. -/
theorem encode_of_acceptFormat {f : Format} {w word : Word} {i j : Instr} (h : acceptFormat f w i = .ok j)
    (hword : w &&& reservedMask f = 0#32 → word = w) (hi : encode i = word := by rfl) : encode j = w := by
  obtain ⟨hres, rfl⟩ := acceptFormat_eq_ok_iff.mp h
  exact hi.trans (hword hres)

/-- Settles O2, row by row of R94's table: the opcode, the fields and the reserved bits are the whole word. -/
theorem legalWordIsItsEncoding : Obligations.LegalWordIsItsEncoding := by
  intro w i h
  unfold decode at h
  split at h
  case h_1 | h_2 | h_3 | h_4 | h_5 | h_9 | h_10 | h_13 | h_16 | h_18 | h_19 | h_20 | h_21 | h_22 =>
    exact encode_of_acceptFormat h (word_of_formatN ‹_›)
  case h_6 | h_7 | h_8 | h_14 | h_17 => exact encode_of_acceptFormat h (word_of_formatS ‹_›)
  case h_11 => exact encode_of_acceptFormat h (word_of_formatSL ‹_›)
  case h_12 | h_15 => exact encode_of_acceptFormat h (word_of_formatSW ‹_›)
  case h_23 => exact encode_of_acceptFormat h (word_of_formatBD ‹_›)
  case h_24 => exact encode_of_acceptFormat h (word_of_formatBI ‹_›)
  case h_25 => cases h

/-- Settles O4: the legal words are the encodings of their commands, and the two illegal ones are refused by the decoder's own branches. -/
theorem sampleWordsDecode : Obligations.SampleWordsDecode :=
  ⟨decodeEncodeAgree .nop, decodeEncodeAgree (.freqCount 0x61#8), decodeEncodeAgree .build, decodeEncodeAgree (.tblSetLen 0x61#8 4#8),
    decodeEncodeAgree (.tblGetWord 0x61#8 1#3), decodeEncodeAgree (.encSym 0x66#8), decodeEncodeAgree .decSym,
    decodeEncodeAgree (.pbufWr 1#16 0xE0#8), decodeEncodeAgree (.pbufRd 2#16), rfl, rfl⟩

end Sys2Proof
end

section
/-! PROOFS of the statements of 30_encoding.md, part 2: the opcode table (R99; O3) and the illegal words (R95; O5). -/

namespace Sys2Proof

open Laws

/-! ## The legal words -/

/-- A word is legal exactly when it has the opcode of some command and 0 in every bit that the command's format reserves (R91, R94, R95). -/
theorem exists_decode_iff {w : Word} :
    (∃ i, decode w = .ok i) ↔ ∃ i, opcField w = opcodeOf i ∧ w &&& reservedMask (formatOf i) = 0#32 := by
  constructor
  · rintro ⟨i, h⟩
    obtain rfl := legalWordIsItsEncoding w i h
    exact ⟨i, opcField_encode i, (encodingFields i).1⟩
  · rintro ⟨i, hopc, hres⟩
    cases i <;> simp only [decode, hopc, opcodeOf] <;> exact ⟨_, acceptFormat_of_reserved hres⟩

/-! ## The rows of the opcode table -/

/-- The row of spec/opcode_table.json of a command's kind (R99): its mask is OPC and the bits its format reserves. -/
def rowOf (i : Instr) : OpcodeRow :=
  { mnemonic := mnemonicOf i, value := putOpc (opcodeOf i), mask := 0xFF000000#32 ||| reservedMask (formatOf i) }

/-- One command of each kind, in the order of R94. -/
def commandKinds : List Instr :=
  [.nop, .reset, .clrErr, .stop, .freqClear, .freqCount 0, .freqSet 0, .freqGet 0, .build, .tblClear, .tblSetLen 0 0, .tblSetWord 0 0,
    .tblCommit, .tblGetLen 0, .tblGetWord 0 0, .encStart, .encSym 0, .encFinish, .encPos, .decStart, .decSym, .decPos, .pbufWr 0 0, .pbufRd 0]

/-- The table of R99 holds the columns of R94. -/
theorem opcodeTable_eq : opcodeTable = commandKinds.map rowOf := by decide +kernel

theorem exists_rowOf {r : OpcodeRow} (hr : r ∈ opcodeTable) : ∃ i, rowOf i = r := by
  rw [opcodeTable_eq] at hr
  obtain ⟨i, -, hi⟩ := List.mem_map.mp hr
  exact ⟨i, hi⟩

theorem opcField_putOpc (c : BitVec 8) : opcField (putOpc c) = c :=
  BitVec.eq_of_getLsbD_eq fun i hi => by
    have hin : 24 + i < 32 := by omega
    simp [opcField, putOpc, hi, hin]

theorem opcField_and (x y : Word) : opcField (x &&& y) = opcField x &&& opcField y :=
  BitVec.eq_of_getLsbD_eq fun i hi => by simp [opcField, hi]

theorem opcField_rowMask (f : Format) : opcField (0xFF000000#32 ||| reservedMask f) = BitVec.allOnes 8 := by cases f <;> decide

theorem rowMask_and_reservedMask (f : Format) : (0xFF000000#32 ||| reservedMask f) &&& reservedMask f = reservedMask f := by
  cases f <;> decide

/-- No format reserves a bit of OPC. -/
theorem putOpc_and_reservedMask (c : BitVec 8) (f : Format) : putOpc c &&& reservedMask f = 0#32 := by
  have hdisjoint : 0xFF000000#32 &&& reservedMask f = 0#32 := by cases f <;> decide
  calc putOpc c &&& reservedMask f
      = putOpc (opcField (putOpc c)) &&& reservedMask f := by rw [opcField_putOpc]
    _ = putOpc c &&& (0xFF000000#32 &&& reservedMask f) := by rw [putOpc_opcField, BitVec.and_comm 0xFF000000#32, BitVec.and_assoc]
    _ = 0#32 := by rw [hdisjoint, BitVec.and_zero]

/-- A word selects a command's row exactly when it has the opcode and 0 in the reserved bits (R99). -/
theorem selects_rowOf_iff {w : Word} {i : Instr} :
    w &&& (rowOf i).mask = (rowOf i).value ↔ opcField w = opcodeOf i ∧ w &&& reservedMask (formatOf i) = 0#32 := by
  constructor
  · intro h
    constructor
    · calc opcField w
          = opcField (w &&& (rowOf i).mask) := by rw [opcField_and, rowOf, opcField_rowMask, BitVec.and_allOnes]
        _ = opcodeOf i := by rw [h]; exact opcField_putOpc _
    · calc w &&& reservedMask (formatOf i)
          = w &&& (rowOf i).mask &&& reservedMask (formatOf i) := by rw [BitVec.and_assoc, rowOf, rowMask_and_reservedMask]
        _ = 0#32 := by rw [h]; exact putOpc_and_reservedMask _ _
  · rintro ⟨hopc, hres⟩
    calc w &&& (rowOf i).mask
        = 0xFF000000#32 &&& w ||| reservedMask (formatOf i) &&& w := by rw [BitVec.and_comm, rowOf, EncodingFields.and_or]
      _ = (rowOf i).value := by
        rw [← putOpc_opcField, BitVec.and_comm (reservedMask _), hres, BitVec.or_zero, hopc]
        rfl

/-- No two rows have one opcode. -/
theorem nodup_opcodes : (opcodeTable.map fun r => opcField r.value).Nodup := by decide +kernel

/-- At most one row matches any word (R99): a row that the word selects has the word's opcode. -/
theorem row_unique {w : Word} {r r' : OpcodeRow} (hr : r ∈ opcodeTable) (hr' : r' ∈ opcodeTable) (h : w &&& r.mask = r.value)
    (h' : w &&& r'.mask = r'.value) : r = r' := by
  refine List.inj_on_of_nodup_map nodup_opcodes hr hr' ?_
  obtain ⟨i, rfl⟩ := exists_rowOf hr
  obtain ⟨j, rfl⟩ := exists_rowOf hr'
  calc opcField (rowOf i).value
      = opcField w := (opcField_putOpc _).trans (selects_rowOf_iff.mp h).1.symm
    _ = opcField (rowOf j).value := (selects_rowOf_iff.mp h').1.trans (opcField_putOpc _).symm

/-- Settles O3: a row is selected by the opcode and the reserved bits of its command, and the decoded command's own row is the one. -/
theorem opcodeTableDecides : Obligations.OpcodeTableDecides := by
  refine fun w => ⟨⟨?_, ?_⟩, fun r hr r' hr' => row_unique hr hr', fun i h r hr hsel => ?_⟩
  · rintro ⟨i, h⟩
    obtain rfl := legalWordIsItsEncoding w i h
    obtain ⟨-, ⟨r, hr, -, hsel⟩, -⟩ := encodingFields i
    exact ⟨r, hr, hsel⟩
  · rintro ⟨r, hr, hsel⟩
    obtain ⟨i, rfl⟩ := exists_rowOf hr
    exact exists_decode_iff.mpr ⟨i, selects_rowOf_iff.mp hsel⟩
  · obtain rfl := legalWordIsItsEncoding w i h
    obtain ⟨-, ⟨r', hr', hname, hsel'⟩, -⟩ := encodingFields i
    rw [row_unique hr hr' hsel hsel', hname]

/-! ## The illegal words -/

theorem opcField_toNat (w : Word) : (w >>> 24).toNat = (opcField w).toNat := by
  have hlt : w.toNat >>> 24 < 2 ^ 8 := by rw [Nat.shiftRight_eq_div_pow]; omega
  rw [opcField, BitVec.extractLsb'_toNat, BitVec.toNat_ushiftRight, Nat.mod_eq_of_lt hlt]

theorem not_unassignedOpc_opcodeOf (i : Instr) : ¬ unassignedOpc (opcodeOf i).toNat := by
  cases i <;> simp [opcodeOf]

/-- R95's list of the unassigned opcodes is complete. -/
theorem opcode_assigned : ∀ c : BitVec 8, ¬ unassignedOpc c.toNat → c ∈ commandKinds.map opcodeOf := by decide +kernel

/-- R95's table of the reserved bits agrees with the formats of R94. -/
theorem reservedBitSet_iff (i : Instr) (w : Word) :
    reservedBitSet (opcodeOf i).toNat w ↔ w &&& reservedMask (formatOf i) ≠ 0#32 := by
  cases i <;> simp [reservedBitSet, opcodeOf, formatOf, reservedMask]

theorem illegalByR95_iff {w : Word} : IllegalByR95 w ↔ ¬ ∃ i, decode w = .ok i := by
  rw [IllegalByR95, opcField_toNat, exists_decode_iff]
  constructor
  · rintro h ⟨i, hopc, hres⟩
    rw [hopc] at h
    rcases h with hfree | hset
    · exact not_unassignedOpc_opcodeOf i hfree
    · exact (reservedBitSet_iff i w).mp hset hres
  · intro hno
    by_contra h
    obtain ⟨hassigned, hclear⟩ := not_or.mp h
    obtain ⟨i, -, hopc⟩ := List.mem_map.mp (opcode_assigned _ hassigned)
    rw [← hopc, reservedBitSet_iff, not_not] at hclear
    exact hno ⟨i, hopc.symm, hclear⟩

/-- The CMD write of an illegal word raises ILLEGAL_CMD (R90). -/
theorem writeCmd_of_illegal {w : Word} (h : ¬ ∃ i, decode w = .ok i) (s : Machine.State) :
    Machine.writeCmd w s = .next (Machine.raise .illegalCmd s) := by
  unfold Machine.writeCmd
  split
  · rfl
  · exact absurd ⟨_, ‹_›⟩ h

/-- Settles O5: the words that do not decode, and `raise` of ILLEGAL_CMD. -/
theorem illegalWordsRaiseIllegalCmd : Obligations.IllegalWordsRaiseIllegalCmd := by
  refine fun w => ⟨illegalByR95_iff, fun h s => ⟨fun he => ?_, fun he => ?_⟩⟩
  · rw [writeCmd_of_illegal (illegalByR95_iff.mp h), Machine.raise_of_noError _ he]
    rfl
  · rw [writeCmd_of_illegal (illegalByR95_iff.mp h), Machine.raise_of_error _ he]

end Sys2Proof
end

section
/-! PROOFS of the statements of 30_encoding.md, part 3: the gate (R96; O13), the session needs (R97; O14) and what an open session freezes (R97,
10_state.md R38; O15). -/

namespace Sys2Proof.Machine

/-! ## The gate -/

theorem exec_of_gated {i : Instr} {s : State} (hg : i.gateClass = .gated) (he : s.err ≠ 0#8) : exec i s = .next s := by
  cases i with
  | nop | reset | clrErr | freqGet | tblGetLen | tblGetWord | encPos | decPos | pbufRd => cases hg
  | _ => exact whenNoError_of_error he

/-- The ungated commands are the nine that R96 lists. -/
theorem gateClass_eq_ungated_iff (i : Instr) :
    i.gateClass = .ungated ↔
      i = .nop ∨ i = .reset ∨ i = .clrErr ∨ (∃ a, i = .freqGet a) ∨ (∃ a, i = .tblGetLen a) ∨ (∃ a w, i = .tblGetWord a w) ∨
        i = .encPos ∨ i = .decPos ∨ ∃ k, i = .pbufRd k := by
  cases i <;> simp [Instr.gateClass]

/-- PBUF_RD changes RESULT alone, or raises RANGE (46_payload_buffer.md R271). -/
theorem execPbufRd_next_cases {k : BitVec 16} {s t : State} (h : execPbufRd k s = .next t) :
    t = { s with result := t.result } ∨ (s.err = 0#8 ∧ s.params.pbufBytes ≤ k.toNat ∧ t = raised 8#8 s) := by
  unfold execPbufRd at h
  split at h
  · cases h
    by_cases he : s.err = 0#8
    · exact .inr ⟨he, ‹_›, raise_of_noError .range he⟩
    · exact .inl (by rw [raise_of_error _ he])
  · split at h <;> cases h
    exact .inl rfl

/-- Settles O13: the gate of each gated command, and the effect of each ungated one. -/
theorem gateClasses : Obligations.GateClasses := by
  refine ⟨fun i s => exec_of_gated, gateClass_eq_ungated_iff, fun s => ⟨rfl, rfl, rfl, fun i hquery => ?_⟩,
    fun s t k => execPbufRd_next_cases⟩
  rcases hquery with ⟨a, rfl⟩ | ⟨a, rfl⟩ | ⟨a, w, rfl⟩ | rfl | rfl
  · exact ⟨tableGet s.freq a, fun _ => rfl⟩
  · exact ⟨(tableGet s.codeLen a).setWidth 32, fun _ => rfl⟩
  · exact ⟨wordGet (tableGet s.codeBits a) w, fun _ => rfl⟩
  · exact ⟨s.encPos, fun _ => rfl⟩
  · exact ⟨s.decPos, fun _ => rfl⟩

/-! ## The session needs -/

section
variable {s : State} {i : Instr}

/-- A command that needs no session open is behind the gate and that check (R96, R97). -/
theorem exec_of_needs_closed (h : sessionNeed i = .closed) (s : State) : ∃ run, exec i s = whenNoError s (whenNoSession s run) := by
  cases i with
  | build | tblClear | tblSetLen | tblSetWord | tblCommit | pbufWr | encStart | decStart => exact ⟨_, rfl⟩
  | _ => cases h

theorem exec_of_needs_encoding (h : sessionNeed i = .encoding) (s : State) : ∃ run, exec i s = whenNoError s (whenEncoding s run) := by
  cases i with
  | encSym | encFinish => exact ⟨_, rfl⟩
  | _ => cases h

theorem exec_of_needs_decoding (h : sessionNeed i = .decoding) (s : State) : ∃ run, exec i s = whenNoError s (whenDecoding s run) := by
  cases i with
  | decSym => exact ⟨_, rfl⟩
  | _ => cases h

theorem exec_of_need_unmet (he : s.err = 0#8) (h : ¬ sessionMet s (sessionNeed i)) : exec i s = .next (raise .sequence s) := by
  cases hneed : sessionNeed i with
  | nothing => simp [hneed, sessionMet] at h
  | closed =>
    obtain ⟨run, hrun⟩ := exec_of_needs_closed hneed s
    rw [hneed] at h
    have hopen : s.encActive = true ∨ s.decActive = true := by simpa [sessionMet, or_iff_not_imp_left] using h
    rw [hrun, whenNoError_of_noError he, whenNoSession_open hopen]
  | encoding =>
    obtain ⟨run, hrun⟩ := exec_of_needs_encoding hneed s
    rw [hneed] at h
    simp [hrun, he, whenEncoding, show s.encActive ≠ true from h]
  | decoding =>
    obtain ⟨run, hrun⟩ := exec_of_needs_decoding hneed s
    rw [hneed] at h
    simp [hrun, he, whenDecoding, show s.decActive ≠ true from h]

end

/-- No next state of an outcome has ERR = SEQUENCE. -/
def NoSequence (o : Out) : Prop := ∀ t, o = .next t → t.err ≠ 11#8

section
variable {s : State} (he : s.err = 0#8)
include he

theorem noSequence_next : NoSequence (.next s) := by
  rintro t ⟨⟩
  simp [he]

theorem noSequence_raise {e : ErrCode} (hne : e ≠ .sequence) : NoSequence (.next (raise e s)) := by
  rintro t ⟨⟩
  rw [raise_of_noError e he]
  cases e <;> simp_all [errCode]

theorem noSequence_of_gated {run : Out} (h : NoSequence run) : NoSequence (whenNoError s run) := by
  rwa [whenNoError_of_noError he]

theorem noSequence_of_closed {run : Out} (hc : NoSession s) (h : NoSequence run) :
    NoSequence (whenNoError s (whenNoSession s run)) :=
  noSequence_of_gated he (by rwa [whenNoSession_closed hc.1 hc.2])

theorem noSequence_of_encoding {run : Out} (ha : s.encActive = true) (h : NoSequence run) :
    NoSequence (whenNoError s (whenEncoding s run)) :=
  noSequence_of_gated he (by rwa [whenEncoding, if_pos ha])

theorem noSequence_of_decoding {run : Out} (ha : s.decActive = true) (h : NoSequence run) :
    NoSequence (whenNoError s (whenDecoding s run)) :=
  noSequence_of_gated he (by rwa [whenDecoding, if_pos ha])

theorem walk_noSequence (n : Nat) (p : List Bool) : NoSequence (walk n p s) := by
  rcases walk_cases (n := n) (p := p) he with ⟨a, q, hw⟩ | ⟨q, c, hc, hw⟩ | ⟨i, -, hw⟩ <;> rw [hw]
  · exact noSequence_next he
  · rintro t ⟨⟩
    rcases hc with rfl | rfl <;> simp
  · rintro t ⟨⟩

theorem execPbufRd_noSequence (k : BitVec 16) : NoSequence (execPbufRd k s) := by
  intro t h
  rcases execPbufRd_next_cases h with hresult | ⟨-, -, rfl⟩
  · rw [hresult]
    simp [he]
  · simp [raised]

/-- A command whose need is met never raises SEQUENCE: past its checks only its own errors are left (60_exceptions.md R282). -/
theorem exec_noSequence {i : Instr} (hmet : sessionMet s (sessionNeed i)) : NoSequence (exec i s) := by
  have herror {r : State} (hr : r.err = 0#8) {e : ErrCode} (hne : e ≠ .sequence := by decide) : NoSequence (.next (raise e r)) :=
    noSequence_raise hr hne
  cases i with
  | nop | freqGet | tblGetLen | tblGetWord | encPos | decPos => exact noSequence_next he
  | reset | clrErr => exact noSequence_next rfl
  | pbufRd k => exact execPbufRd_noSequence he k
  | stop | freqClear | freqSet => exact noSequence_of_gated he (noSequence_next he)
  | freqCount =>
    refine noSequence_of_gated he ?_
    split
    · exact herror he
    · exact noSequence_next he
  | tblClear | tblSetLen | tblSetWord => exact noSequence_of_closed he hmet (noSequence_next he)
  | build =>
    refine noSequence_of_closed he hmet ?_
    split
    · exact herror (r := clearTable s) he
    · exact noSequence_next he
  | tblCommit =>
    refine noSequence_of_closed he hmet ?_
    split
    · exact herror (r := invalidateTable s) he
    · split
      · exact herror (r := invalidateTable s) he
      · exact noSequence_next he
  | encStart =>
    refine noSequence_of_closed he hmet ?_
    split
    · exact noSequence_next he
    · exact herror he
  | decStart =>
    refine noSequence_of_closed he hmet ?_
    split
    · split
      · exact herror he
      · exact noSequence_next he
    · exact herror he
  | pbufWr =>
    refine noSequence_of_closed he hmet ?_
    split
    · exact herror he
    · exact noSequence_next he
  | encSym =>
    refine noSequence_of_encoding he hmet ?_
    split
    · exact herror he
    · split
      · exact herror he
      · exact noSequence_next he
  | encFinish => exact noSequence_of_encoding he hmet (noSequence_next he)
  | decSym =>
    refine noSequence_of_decoding he hmet ?_
    split
    · exact noSequence_next he
    · exact walk_noSequence he _ _

end

/-- Settles O14: the need is checked right behind the gate, and past it no command raises SEQUENCE. -/
theorem sessionNeedsCheckedFirst : Obligations.SessionNeedsCheckedFirst := by
  intro i s he
  refine ⟨fun hunmet => ?_, fun hmet => exec_noSequence he hmet⟩
  rw [exec_of_need_unmet he hunmet, raise_of_noError _ he]
  rfl

/-! ## What an open session freezes -/

@[simp] theorem raise_alphaSize (e : ErrCode) (s : State) : (raise e s).alphaSize = s.alphaSize := by rw [raise_frame]
@[simp] theorem raise_degen (e : ErrCode) (s : State) : (raise e s).degen = s.degen := by rw [raise_frame]

theorem not_noSession_of_open {s : State} (hopen : s.encActive = true ∨ s.decActive = true) : ¬ NoSession s := by
  rintro ⟨henc, hdec⟩
  simp [henc, hdec] at hopen

namespace Answer

variable {s t : State} {i : Instr} (h : Answer s i t) (hopen : s.encActive = true ∨ s.decActive = true)
include h hopen

/-- The commands that write the code table or its flags need no session open, but for RESET (R97). -/
theorem table_eq_of_open (hreset : i ≠ .reset) :
    t.codeLen = s.codeLen ∧ t.codeBits = s.codeBits ∧ t.tableValid = s.tableValid ∧ t.alphaSize = s.alphaSize ∧ t.degen = s.degen := by
  cases h with
  | reset => exact absurd rfl hreset
  | raised | readRange | decError =>
    exact ⟨raise_codeLen _ _, raise_codeBits _ _, raise_tableValid _ _, raise_alphaSize _ _, raise_degen _ _⟩
  | build _ hc | buildEmpty _ hc | tblClear _ hc | tblSetLen _ hc | tblSetWord _ hc | commit _ hc | commitEmpty _ hc
    | commitClash _ hc => exact absurd hc (not_noSession_of_open hopen)
  | _ => exact ⟨rfl, rfl, rfl, rfl, rfl⟩

/-- Of the writers of the payload PBUF_WR needs no session open (R97). -/
theorem pbuf_eq_of_open (hsym : ∀ a, i ≠ .encSym a) (hfinish : i ≠ .encFinish) : t.pbuf = s.pbuf := by
  rcases h.pbuf_eq with heq | ⟨k, v, rfl⟩ | ⟨a, rfl⟩ | rfl
  · exact heq
  · cases h with
    | ignored => rfl
    | raised => exact raise_pbuf _ _
    | pbufWr _ hc => exact absurd hc (not_noSession_of_open hopen)
  · exact absurd rfl (hsym a)
  · exact absurd rfl hfinish

end Answer

/-- Settles O15, from the answers of a command in an open session. -/
theorem sessionFreezesTable : Obligations.SessionFreezesTable := fun _ _ _ hopen h =>
  ⟨(exec_answer h).table_eq_of_open hopen, (exec_answer h).pbuf_eq_of_open hopen⟩

end Sys2Proof.Machine
end

section
/-! PROOFS of the statements of 30_encoding.md, part 4: the accesses of LOADCODE (R101; O39), run one by one. -/

namespace Sys2Proof.Machine

/-! ## Runs of the host's accesses -/

/-- A run takes one step and goes on from the state it leaves. -/
theorem run_succ_of_step {M : Host.Core} {s t : M.State} (h : M.step s = .next t) (n : Nat) : M.run (n + 1) s = M.run n t := by
  rw [Host.Core.run, h]

/-- The same on the machine's own State, which `core.State` unfolds to. -/
theorem run_succ {s t : State} (h : step s = .next t) (n : Nat) : core.run (n + 1) s = core.run n t :=
  run_succ_of_step (M := core) h n

/-- The step of a command's CMD write is the command (30_encoding.md R90). -/
theorem step_of_pending_cmdWrite {s : State} {i : Instr} {rest : List HostEvent} (h : s.pending = cmdWrite s.params i :: rest) :
    step s = exec i (s.setPending rest) :=
  stepRunsDecodedCommand s (encode i) i rest h (decodeEncodeAgree i)

/-- The step of an ARG write (20_memory.md R61). -/
theorem step_of_pending_argWrite {s : State} {v : Word} {rest : List HostEvent} (h : s.pending = argWrite s.params v.toNat :: rest) :
    step s = .next ((s.setPending rest).setArg v) := by
  rw [argWrite, BitVec.ofNat_toNat, BitVec.setWidth_eq] at h
  obtain ⟨-, harg, -⟩ := (registerWindowAccesses s rest 0x04 (by decide) rfl).2 v h
  exact harg rfl

/-! ## The words of a codeword -/

/-- What TBL_SET_LEN does (43_code_table.md R192). -/
def lengthSet (a : Sym) (n : BitVec 8) (s : State) : State := invalidateTable (s.setTable (tableSet s.codeLen a n) s.codeBits)

/-- The accesses that load word w of a symbol's codeword (30_encoding.md R101). -/
def loadWord (p : Params) (a : Sym) (bits : List Bool) (w : Nat) : List HostEvent :=
  [argWrite p (packWord bits w).toNat, cmdWrite p (.tblSetWord a (BitVec.ofNat 3 w))]

/-- The accesses that load every word the bits reach into (R101). -/
def loadWords (p : Params) (a : Sym) (bits : List Bool) : List HostEvent :=
  (List.range ((bits.length + 31) / 32)).flatMap (loadWord p a bits)

/-- What the accesses of one word do (R101, 43_code_table.md R193). -/
def wordLoaded (a : Sym) (bits : List Bool) (s : State) (w : Nat) : State :=
  invalidateTable ((s.setArg (packWord bits w)).setTable s.codeLen
    (tableSet s.codeBits a (wordSet (tableGet s.codeBits a) (BitVec.ofNat 3 w) (packWord bits w))))

section
variable {s : State} (he : s.err = 0#8) (hc : NoSession s)
include he hc

/-- With ERR = 0 and no session open a command of the code table does its own effect (30_encoding.md R96, R97). -/
theorem whenNoError_whenNoSession_idle (run : Out) : whenNoError s (whenNoSession s run) = run :=
  (whenNoError_of_noError he).trans (whenNoSession_closed hc.1 hc.2)

theorem step_tblSetLen {a : Sym} {n : BitVec 8} {rest : List HostEvent} (h : s.pending = cmdWrite s.params (.tblSetLen a n) :: rest) :
    step s = .next (lengthSet a n (s.setPending rest)) :=
  (step_of_pending_cmdWrite h).trans (whenNoError_whenNoSession_idle (s := s.setPending rest) he hc _)

theorem step_tblSetWord {a : Sym} {w : BitVec 3} {rest : List HostEvent} (h : s.pending = cmdWrite s.params (.tblSetWord a w) :: rest) :
    step s = .next (invalidateTable ((s.setPending rest).setTable s.codeLen
      (tableSet s.codeBits a (wordSet (tableGet s.codeBits a) w s.arg)))) :=
  (step_of_pending_cmdWrite h).trans (whenNoError_whenNoSession_idle (s := s.setPending rest) he hc _)

variable {a : Sym} {bits : List Bool} {rest : List HostEvent}

theorem run_loadWord {w : Nat} (h : s.pending = loadWord s.params a bits w ++ rest) (n : Nat) :
    core.run (n + 2) s = core.run n (wordLoaded a bits (s.setPending rest) w) := by
  refine (run_succ (step_of_pending_argWrite h) (n + 1)).trans (run_succ (step_tblSetWord ?_ ?_ rfl) n)
  exacts [he, hc]

theorem run_loadWords {ws : List Nat} (h : s.pending = ws.flatMap (loadWord s.params a bits) ++ rest) :
    core.run (ws.flatMap (loadWord s.params a bits)).length s = .next (ws.foldl (wordLoaded a bits) (s.setPending rest)) := by
  induction ws generalizing s with
  | nil =>
    have hrest : s = s.setPending rest := by rw [← show s.pending = rest from h]; rfl
    exact congrArg Host.Outcome.next hrest
  | cons w ws ih =>
    rw [List.flatMap_cons, List.append_assoc] at h
    exact (run_loadWord he hc h _).trans
      (ih (s := wordLoaded a bits (s.setPending (ws.flatMap (loadWord s.params a bits) ++ rest)) w) he hc rfl)

end

section
variable {s : State} {a : Sym} {bits : List Bool} {ws : List Nat}

/-- Loading words changes ARG and the stored bits alone, once the flags are clear. -/
theorem wordsLoaded_frame (hflags : invalidateTable s = s) :
    ws.foldl (wordLoaded a bits) s =
      { invalidateTable s with
        arg := (ws.foldl (wordLoaded a bits) s).arg
        codeBits := (ws.foldl (wordLoaded a bits) s).codeBits } := by
  induction ws generalizing s with
  | nil => exact hflags.symm
  | cons w ws ih => exact ih rfl

/-- The entries of the other symbols stay. -/
theorem tableGet_wordsLoaded_other {b : Sym} (hb : b ≠ a) :
    tableGet (ws.foldl (wordLoaded a bits) s).codeBits b = tableGet s.codeBits b := by
  induction ws generalizing s with
  | nil => rfl
  | cons w ws ih =>
    rw [List.foldl_cons, ih]
    simp [wordLoaded, invalidateTable, hb]

/-- Each word loaded is that word of the bits, and the others stay. -/
theorem wordGet_wordsLoaded (hws : ∀ w ∈ ws, w < 8) (u : BitVec 3) :
    wordGet (tableGet (ws.foldl (wordLoaded a bits) s).codeBits a) u =
      if u.toNat ∈ ws then packWord bits u.toNat else wordGet (tableGet s.codeBits a) u := by
  induction ws generalizing s with
  | nil => simp
  | cons w ws ih =>
    have hu : u = BitVec.ofNat 3 w ↔ u.toNat = w := by
      rw [← BitVec.toNat_inj, BitVec.toNat_ofNat, Nat.mod_eq_of_lt (hws w List.mem_cons_self)]
    rw [List.foldl_cons, ih fun x hx => hws x (List.mem_cons_of_mem w hx)]
    by_cases hw : u.toNat = w <;> simp [wordLoaded, invalidateTable, hu, hw]

end

/-! ## The codeword -/

/-- A stored bit is a bit of its word (10_state.md R28). -/
theorem storedBit_eq_wordGet (v : Vector Word 8) {j : Nat} (hj : j < 256) :
    storedBit v j = (wordGet v (BitVec.ofNat 3 (j / 32))).getLsbD (31 - j % 32) := by
  have hw : j / 32 < 8 := by omega
  simp [storedBit, wordGet, hw, Nat.mod_eq_of_lt hw]

theorem wordGet_packCode (c : List Bool) (u : BitVec 3) : wordGet (packCode c) u = packWord c u.toNat := by
  simp [wordGet, packCode]

/-- An entry whose words are those of a bit sequence, as far as it goes, stores the sequence (R28). -/
theorem storedBits_of_words {v : Vector Word 8} {bits : List Bool} (hlen : bits.length < 256)
    (hwords : ∀ u : BitVec 3, 32 * u.toNat < bits.length → wordGet v u = packWord bits u.toNat) : storedBits v bits.length = bits :=
  calc storedBits v bits.length
      = storedBits (packCode bits) bits.length := List.map_congr_left fun j hj => by
        have hlt := List.mem_range.mp hj
        have hword : 32 * (BitVec.ofNat 3 (j / 32)).toNat < bits.length := by rw [BitVec.toNat_ofNat]; omega
        rw [storedBit_eq_wordGet _ (by omega), storedBit_eq_wordGet _ (by omega), wordGet_packCode, hwords _ hword]
    _ = bits := storedBits_packCode bits (by omega)

/-- LOADCODE is the length and then the words that hold the bits (30_encoding.md R101). -/
theorem assembleLine_loadCode (p : Params) {o : Operand} {bits : List Bool} (ho : o.value < 256) (hlen : bits.length < 256) :
    assembleLine p (.loadCode o bits) =
      .ok (cmdWrite p (.tblSetLen (operandSym o) (BitVec.ofNat 8 bits.length)) :: loadWords p (operandSym o) bits) := by
  have hok : (Line.loadCode o bits).error = none := by simp [Line.error, firstError, checkSym, checkLen, ho, hlen]
  rw [assembleLine, hok]
  rfl

/-- The state that the accesses of LOADCODE lead to: the length set, then the words loaded one by one. -/
def codeLoaded (s : State) (a : Sym) (bits : List Bool) : State :=
  (List.range ((bits.length + 31) / 32)).foldl (wordLoaded a bits) (lengthSet a (BitVec.ofNat 8 bits.length) s)

theorem codeLoaded_frame (s : State) (a : Sym) (bits : List Bool) :
    codeLoaded s a bits =
      { invalidateTable s with
        arg := (codeLoaded s a bits).arg
        codeLen := tableSet s.codeLen a (BitVec.ofNat 8 bits.length)
        codeBits := (codeLoaded s a bits).codeBits } :=
  wordsLoaded_frame rfl

theorem codeLen_codeLoaded (s : State) (a : Sym) (bits : List Bool) :
    (codeLoaded s a bits).codeLen = tableSet s.codeLen a (BitVec.ofNat 8 bits.length) :=
  congrArg State.codeLen (codeLoaded_frame s a bits)

theorem run_loadCode {s : State} (he : s.err = 0#8) (hc : NoSession s) {a : Sym} {bits : List Bool} {rest : List HostEvent}
    (h : s.pending = cmdWrite s.params (.tblSetLen a (BitVec.ofNat 8 bits.length)) :: (loadWords s.params a bits ++ rest)) :
    core.run ((loadWords s.params a bits).length + 1) s = .next (codeLoaded (s.setPending rest) a bits) :=
  (run_succ (step_tblSetLen he hc h) _).trans
    (run_loadWords (s := lengthSet a (BitVec.ofNat 8 bits.length) (s.setPending (loadWords s.params a bits ++ rest))) he hc rfl)

theorem codeword_codeLoaded (s : State) (a : Sym) {bits : List Bool} (hlen : bits.length < 256) :
    codeword (codeLoaded s a bits) a = bits := by
  have hn : (tableGet (codeLoaded s a bits).codeLen a).toNat = bits.length := by
    rw [codeLen_codeLoaded]
    simpa using hlen
  rw [codeword, hn]
  refine storedBits_of_words hlen fun u hu => ?_
  have hmem : u.toNat ∈ List.range ((bits.length + 31) / 32) := List.mem_range.mpr (by omega)
  rw [codeLoaded, wordGet_wordsLoaded (fun w hw => by have := List.mem_range.mp hw; omega), if_pos hmem]

/-- Settles O39: the first access sets the length, and each pair after it loads one word of the bits. -/
theorem loadCodePseudoLoadsCodeword : Obligations.LoadCodePseudoLoadsCodeword := by
  intro s o bits rest he henc hdec ho hlen
  have hc : NoSession s := ⟨henc, hdec⟩
  refine ⟨_, codeLoaded (s.setPending rest) (operandSym o) bits, assembleLine_loadCode s.params ho hlen, ?_,
    (codeLoaded_frame _ _ _).trans ?_, codeword_codeLoaded _ _ hlen, fun b hb => ⟨?_, ?_⟩⟩
  · refine run_loadCode ?_ ?_ ?_
    exacts [he, hc, rfl]
  · rw [codeLen_codeLoaded]
    rfl
  · rw [codeLen_codeLoaded]
    exact (tableGet_tableSet _ _ _ _).trans (if_neg hb)
  · exact tableGet_wordsLoaded_other hb

end Sys2Proof.Machine
end

section
/-! PROOFS of the statements of 40_control.md: NOP (R120; O16), RESET (R121; O17), CLR_ERR (R122; O18) and STOP (R123; O19). -/

namespace Sys2Proof

/-! ## The words -/

/-- Every command's rule has this encoding clause: the word of R94's table, by the two directions of the round trip (30_encoding.md R98). -/
theorem wordOf_encode (i : Instr) : WordOf i (encode i) := by
  intro v
  constructor
  · intro h
    exact (legalWordIsItsEncoding v i h).symm
  · rintro rfl
    exact decodeEncodeAgree i

/-- NOP's opcode with any bit set below it is illegal: format N reserves all 24 of them (R91, R95). -/
theorem illegalByR95_of_nop_opcode {w : Word} (hopc : (w >>> 24).toNat = 0) (hw : w ≠ 0#32) : IllegalByR95 w := by
  have hfield : opcField w = 0#8 := BitVec.eq_of_toNat_eq ((opcField_toNat w).symm.trans hopc)
  have hset : w &&& reservedMask .n ≠ 0#32 := fun hres => hw (word_of_formatN hfield hres).symm
  exact .inr (.inl ⟨by simp [hopc], hset⟩)

end Sys2Proof

namespace Sys2Proof.Machine

/-! ## The commands -/

/-- Settles O16: a word of NOP's opcode that is not 0 is one of R95's illegal words. -/
theorem nopCommand : Obligations.NopCommand := by
  refine ⟨wordOf_encode .nop, fun w hopc hw s he => ?_, fun s => rfl⟩
  obtain ⟨-, hillegal⟩ := illegalWordsRaiseIllegalCmd w
  obtain ⟨hraises, -⟩ := hillegal (illegalByR95_of_nop_opcode hopc hw) s
  exact hraises he

/-- Settles O17: the state is the RESET command's, whose tables are the empty ones. -/
theorem resetCommand : Obligations.ResetCommand := by
  refine ⟨wordOf_encode .reset, fun s => ⟨resetBlock s, rfl, rfl, fun a => ⟨?_, ?_, ?_⟩, status_resetBlock s⟩⟩
  · exact tableGet_emptyFreq a
  · exact tableGet_emptyLens a
  · exact tableGet_emptyBits a

/-- Settles O18: the command is the return from an error, which writes ERR and no other field. -/
theorem clrErrCommand : Obligations.ClrErrCommand :=
  ⟨wordOf_encode .clrErr, fun s => congrArg Host.Outcome.next (returnFromError_eq s)⟩

/-- DEC_DONE is 0 with no session open (10_state.md R34). -/
theorem status_closeSessions_decDone (s : State) : (status (closeSessions s)).getLsbD 12 = false :=
  calc (status (closeSessions s)).getLsbD 12
      = decDone (closeSessions s) := getLsbD_status _ (by decide)
    _ = false := by rw [decDone, closeSessions_eq, Bool.false_and]

/-- Settles O19: past the gate STOP closes both sessions, and the gate ignores it while ERR ≠ 0. -/
theorem stopCommand : Obligations.StopCommand := by
  refine ⟨wordOf_encode .stop, fun s => ⟨fun he => ?_, fun he => ?_⟩⟩
  · exact ⟨closeSessions s, whenNoError_of_noError he, closeSessions_eq s, status_closeSessions_decDone s⟩
  · exact exec_of_gated rfl he

end Sys2Proof.Machine
end

section
/-! PROOFS of the statements of 41_frequency.md: FREQ_CLEAR (R141; O20), FREQ_COUNT (R142; O21), FREQ_SET (R143; O22), FREQ_GET (R144; O23) and the
counting pass (R145, R146; O24). -/

namespace Sys2Proof.Machine

/-! ## One count -/

/-- FREQ with one more occurrence of a symbol counted (R142). -/
def countSymbol (f : Vector Word 256) (a : Sym) : Vector Word 256 := tableSet f a (tableGet f a + 1#32)

theorem tableGet_countSymbol_other {f : Vector Word 256} {a b : Sym} (h : b ≠ a) : tableGet (countSymbol f a) b = tableGet f b := by
  rw [countSymbol, tableGet_tableSet, if_neg h]

theorem tableGet_countSymbol_same (f : Vector Word 256) (a : Sym) : tableGet (countSymbol f a) a = tableGet f a + 1#32 := by
  rw [countSymbol, tableGet_tableSet, if_pos rfl]

/-- Below 0xFFFFFFFF the count goes up by exactly one: the addition does not wrap (R142). -/
theorem toNat_tableGet_countSymbol_same {f : Vector Word 256} {a : Sym} (hmax : tableGet f a ≠ 0xFFFFFFFF#32) :
    (tableGet (countSymbol f a) a).toNat = (tableGet f a).toNat + 1 := by
  rw [tableGet_countSymbol_same]
  bv_omega

theorem freqAlphabet_eq_nil {f : Vector Word 256} (h : ∀ a : Sym, tableGet f a = 0#32) : freqAlphabet f = [] :=
  List.eq_nil_iff_forall_not_mem.mpr fun a ha => mem_freqAlphabet.mp ha (h a)

/-! ## The commands with ERR = 0 -/

section
variable {s : State} (he : s.err = 0#8)
include he

theorem exec_freqClear : exec .freqClear s = .next (s.setFreq emptyFreq) := whenNoError_of_noError he

theorem exec_freqSet (a : Sym) : exec (.freqSet a) s = .next (s.setFreq (tableSet s.freq a s.arg)) := whenNoError_of_noError he

theorem exec_freqCount {a : Sym} (hmax : tableGet s.freq a ≠ 0xFFFFFFFF#32) :
    exec (.freqCount a) s = .next (s.setFreq (countSymbol s.freq a)) :=
  (whenNoError_of_noError he).trans (if_neg hmax)

theorem exec_freqCount_overflow {a : Sym} (hmax : tableGet s.freq a = 0xFFFFFFFF#32) :
    exec (.freqCount a) s = .next (raise .overflow s) :=
  (whenNoError_of_noError he).trans (if_pos hmax)

/-- BUILD of an empty alphabet, with no session open (42_tree_builder.md R169). -/
theorem exec_build_emptyAlphabet (hc : NoSession s) (hnil : freqAlphabet s.freq = []) :
    exec .build s = .next (raise .emptyAlphabet (clearTable s)) := by
  refine (whenNoError_whenNoSession_idle he hc _).trans ?_
  rw [hnil]

end

/-- Settles O20: past the gate every count is 0, so a BUILD finds no symbol. -/
theorem freqClearCommand : Obligations.FreqClearCommand := by
  refine ⟨wordOf_encode .freqClear, fun s => ⟨exec_of_gated rfl, fun he => ?_⟩⟩
  refine ⟨s.setFreq emptyFreq, exec_freqClear he, rfl, tableGet_emptyFreq, fun henc hdec => ?_⟩
  have hbuild := exec_build_emptyAlphabet (s := s.setFreq emptyFreq) he ⟨henc, hdec⟩ (freqAlphabet_eq_nil tableGet_emptyFreq)
  exact ⟨_, hbuild, by rw [raise_of_noError .emptyAlphabet (by exact he)]; rfl⟩

/-- Settles O21: past the gate the largest count raises OVERFLOW, and every other one goes up by one. -/
theorem freqCountCommand : Obligations.FreqCountCommand := by
  refine fun a => ⟨wordOf_encode (.freqCount a), fun s => ⟨exec_of_gated rfl, fun he hmax => ?_, fun he hmax => ?_⟩⟩
  · rw [exec_freqCount_overflow he hmax, raise_of_noError .overflow he]
    rfl
  · exact ⟨_, exec_freqCount he hmax, rfl, toNat_tableGet_countSymbol_same hmax, fun b => tableGet_countSymbol_other⟩

/-- Settles O22: past the gate one entry is written, and an entry of 0 is no symbol of the alphabet. -/
theorem freqSetCommand : Obligations.FreqSetCommand := by
  refine fun a => ⟨wordOf_encode (.freqSet a), fun s => ⟨exec_of_gated rfl, fun he => ?_⟩⟩
  have hset : tableGet (tableSet s.freq a s.arg) a = s.arg := by rw [tableGet_tableSet, if_pos rfl]
  refine ⟨_, exec_freqSet he a, rfl, hset, fun b hb => ?_, fun harg hmem => ?_⟩
  · exact (tableGet_tableSet s.freq a b s.arg).trans (if_neg hb)
  · exact mem_freqAlphabet.mp hmem (hset.trans harg)

/-- Settles O23: the command has no gate, and writes RESULT and no other field. -/
theorem freqGetCommand : Obligations.FreqGetCommand := fun a => ⟨wordOf_encode (.freqGet a), fun _ => rfl⟩

/-! ## The counting pass -/

/-- FREQ with the symbols of a stream counted in order. -/
def countSymbols (f : Vector Word 256) (text : List Sym) : Vector Word 256 := text.foldl countSymbol f

/-- Each count goes up by the number of its symbol's occurrences, modulo 2^32. -/
theorem tableGet_countSymbols (text : List Sym) (f : Vector Word 256) (a : Sym) :
    tableGet (countSymbols f text) a = tableGet f a + BitVec.ofNat 32 (text.count a) := by
  induction text generalizing f with
  | nil => simp [countSymbols]
  | cons b rest ih =>
    have hrest : tableGet (countSymbols f (b :: rest)) a = tableGet (countSymbol f b) a + BitVec.ofNat 32 (rest.count a) :=
      ih (countSymbol f b)
    by_cases hab : a = b
    · subst hab
      rw [hrest, tableGet_countSymbol_same, List.count_cons_self, BitVec.ofNat_add, BitVec.add_assoc,
        BitVec.add_comm (1#32)]
    · rw [hrest, tableGet_countSymbol_other hab, List.count_cons_of_ne (Ne.symm hab)]

/-- Any order of a stream counts the same (R146). -/
theorem countSymbols_perm {text other : List Sym} (h : other.Perm text) (f : Vector Word 256) :
    countSymbols f other = countSymbols f text :=
  table_ext fun a => by rw [tableGet_countSymbols, tableGet_countSymbols, h.count_eq]

/-- R145's bound from any counts: no count passes 2^32 - 1 while the stream is counted. -/
def CountsFit (f : Vector Word 256) (text : List Sym) : Prop := ∀ a : Sym, (tableGet f a).toNat + text.count a < 2 ^ 32

theorem countsFit_emptyFreq {text : List Sym} (h : ∀ a, text.count a < 2 ^ 32) : CountsFit emptyFreq text := by
  intro a
  rw [tableGet_emptyFreq, BitVec.toNat_zero, Nat.zero_add]
  exact h a

section
variable {f : Vector Word 256} {a : Sym} {rest : List Sym} (h : CountsFit f (a :: rest))
include h

/-- The first symbol of a stream within the bound does not overflow. -/
theorem CountsFit.head_ne_max : tableGet f a ≠ 0xFFFFFFFF#32 := by
  intro hmax
  have ha := h a
  rw [hmax, List.count_cons_self, BitVec.toNat_ofNat] at ha
  omega

/-- What is left of the stream is within the bound once its first symbol is counted. -/
theorem CountsFit.tail : CountsFit (countSymbol f a) rest := by
  intro b
  have hb := h b
  by_cases hba : b = a
  · subst hba
    rw [List.count_cons_self] at hb
    rw [toNat_tableGet_countSymbol_same h.head_ne_max]
    omega
  · rw [List.count_cons_of_ne (Ne.symm hba)] at hb
    rwa [tableGet_countSymbol_other hba]

end

/-- A list of commands runs its first and goes on from the state that leaves. -/
theorem runCommands_cons_of_exec {i : Instr} {s t : State} (h : exec i s = .next t) (rest : List Instr) :
    runCommands (i :: rest) s = runCommands rest t := by
  rw [runCommands, h]

/-- One FREQ_COUNT a symbol counts a stream within the bound, and changes FREQ alone. -/
theorem runCommands_freqCount {text : List Sym} {s : State} (he : s.err = 0#8) (hfit : CountsFit s.freq text) :
    runCommands (text.map .freqCount) s = .next (s.setFreq (countSymbols s.freq text)) := by
  induction text generalizing s with
  | nil => rfl
  | cons a rest ih =>
    calc runCommands ((a :: rest).map .freqCount) s
        = runCommands (rest.map .freqCount) (s.setFreq (countSymbol s.freq a)) :=
          runCommands_cons_of_exec (exec_freqCount he hfit.head_ne_max) _
      _ = .next (s.setFreq (countSymbols s.freq (a :: rest))) := ih (s := s.setFreq (countSymbol s.freq a)) he hfit.tail

/-- The counting pass: FREQ_CLEAR, then one FREQ_COUNT a symbol (R145). -/
theorem runCommands_countingPass {text : List Sym} {s : State} (he : s.err = 0#8) (hbound : ∀ a, text.count a < 2 ^ 32) :
    runCommands (.freqClear :: text.map .freqCount) s = .next (s.setFreq (countSymbols emptyFreq text)) :=
  (runCommands_cons_of_exec (exec_freqClear he) _).trans
    (runCommands_freqCount (s := s.setFreq emptyFreq) he (countsFit_emptyFreq hbound))

/-- Settles O24: the pass counts the stream from the empty table, where the bound keeps each count from wrapping, and the counts do not depend on
the order. -/
theorem countingPassCountsOccurrences : Obligations.CountingPassCountsOccurrences := by
  intro s text he hbound
  refine ⟨_, runCommands_countingPass he hbound, rfl, fun a => ?_, fun other hperm => ?_⟩
  · calc (tableGet (countSymbols emptyFreq text) a).toNat
        = (BitVec.ofNat 32 (text.count a)).toNat := by rw [tableGet_countSymbols, tableGet_emptyFreq, BitVec.zero_add]
      _ = text.count a := (BitVec.toNat_ofNat _ _).trans (Nat.mod_eq_of_lt (hbound a))
  · have hother : ∀ a, other.count a < 2 ^ 32 := fun a => hperm.count_eq a ▸ hbound a
    rw [runCommands_countingPass he hother, countSymbols_perm hperm]

end Sys2Proof.Machine
end

section
/-! PROOFS of the statements of 42_tree_builder.md, part 1: what BUILD refuses (R160, R169; O25) and what it depends on (R171; O30). -/

namespace Sys2Proof.Machine

section
variable {s : State} (he : s.err = 0#8) (hc : NoSession s)
include he hc

/-- BUILD of an alphabet that is not empty, with no session open (R160). -/
theorem exec_build_counted (hne : freqAlphabet s.freq ≠ []) :
    exec .build s = .next (installCodes (freqAlphabet s.freq) (clearTable s)) := by
  refine (whenNoError_whenNoSession_idle he hc _).trans ?_
  split
  · contradiction
  case _ hcons => rw [hcons]

/-- With no valid table no encode session opens (44_encoder.md R220). -/
theorem exec_encStart_noTable (hv : s.tableValid = false) : exec .encStart s = .next (raised 6#8 s) := by
  refine (whenNoError_whenNoSession_idle he hc _).trans ?_
  rw [hv, raise_of_noError .noTable he]
  rfl

/-- With no valid table no decode session opens (45_decoder.md R240). -/
theorem exec_decStart_noTable (hv : s.tableValid = false) : exec .decStart s = .next (raised 6#8 s) := by
  refine (whenNoError_whenNoSession_idle he hc _).trans ?_
  rw [hv, raise_of_noError .noTable he]
  rfl

end

/-- Settles O25: the error is raised on the cleared table, which CLR_ERR leaves not valid. -/
theorem buildRefusals : Obligations.BuildRefusals := by
  refine ⟨wordOf_encode .build, fun s => ⟨exec_of_gated rfl, fun he hopen => ?_, fun he henc hdec hzero => ?_⟩⟩
  · obtain ⟨hseq, -⟩ := sessionNeedsCheckedFirst .build s he
    exact hseq fun ⟨henc, hdec⟩ => by simp [henc, hdec] at hopen
  · have hbuild := exec_build_emptyAlphabet he ⟨henc, hdec⟩ (freqAlphabet_eq_nil hzero)
    rw [raise_of_noError .emptyAlphabet (s := clearTable s) he] at hbuild
    refine ⟨_, hbuild, ?_, fun a => ⟨tableGet_emptyLens a, tableGet_emptyBits a⟩, _, rfl,
      exec_encStart_noTable rfl ⟨rfl, rfl⟩ rfl, exec_decStart_noTable rfl ⟨rfl, rfl⟩ rfl⟩
    simp [clearTable_eq, errCode, henc, hdec]

/-- A BUILD that leaves ERR = 0 ran past its checks and found a symbol. -/
theorem eq_installCodes_of_exec_build {s t : State} (h : exec .build s = .next t) (ht : t.err = 0#8) :
    t = installCodes (freqAlphabet s.freq) (clearTable s) := by
  cases exec_answer h with
  | ignored _ he => exact absurd ht he
  | raised he e =>
    rw [raise_of_noError e he] at ht
    exact absurd ht (errCode_ne_zero e)
  | buildEmpty he =>
    rw [raise_of_noError .emptyAlphabet (s := clearTable s) he] at ht
    exact (errCode_ne_zero .emptyAlphabet ht).elim
  | build => rfl

/-- Settles O30: the codes, the flags and RESULT that BUILD installs are computed from FREQ alone. -/
theorem buildDependsOnFreqOnly : Obligations.BuildDependsOnFreqOnly := by
  intro s s' t t' hfreq h h' ht ht'
  rw [eq_installCodes_of_exec_build h ht, eq_installCodes_of_exec_build h' ht', installCodes_eq, installCodes_eq, hfreq]
  exact ⟨rfl, rfl, rfl, rfl, rfl, rfl⟩

end Sys2Proof.Machine
end

section
/-! PROOFS of the statements of 42_tree_builder.md, part 2: popmin takes the least key (R164; O28), what the merge loop keeps of the queue (R166), and
the weights of the tree (R170; O29). -/

namespace Sys2Proof.Machine

/-! ## The key order -/

/-- The key of an entry (R162): pairs in lexicographic order. -/
def entryKey (x : Entry) : ℕ ×ₗ ℕ := toLex ((treeWeight x.node).toNat, x.seq)

theorem entryKey_lt_iff {x y : Entry} :
    entryKey x < entryKey y ↔
      treeWeight x.node < treeWeight y.node ∨ (treeWeight x.node = treeWeight y.node ∧ x.seq < y.seq) := by
  simp [entryKey, Prod.Lex.toLex_lt_toLex, BitVec.lt_def, BitVec.toNat_inj]

theorem keyLt_iff {x y : Entry} : keyLt x y = true ↔ entryKey x < entryKey y := by
  simp [keyLt, entryKey_lt_iff]

theorem treeWeight_le_of_entryKey_le {x y : Entry} (h : entryKey x ≤ entryKey y) : treeWeight x.node ≤ treeWeight y.node := by
  by_contra hlt
  exact absurd (entryKey_lt_iff.mpr (.inl (BitVec.not_le.mp hlt))) (not_lt.mpr h)

/-- No entry that popmin leaves has a lesser key than the one it takes (R164). -/
theorem popMin_least {e : Entry} {rest : List Entry} {x : Entry} (hx : x ∈ (popMin e rest).2) :
    entryKey (popMin e rest).1 ≤ entryKey x := by
  induction rest generalizing e x with
  | nil => simp [popMin] at hx
  | cons f rest ih =>
    simp only [popMin, keyLt_iff] at hx ⊢
    split at hx
    case isTrue hlt =>
      have hle : entryKey (popMin f rest).1 ≤ entryKey x := by
        rcases List.mem_cons.mp ((popMin_perm f rest).mem_iff.mpr hx) with rfl | hx
        · exact le_rfl
        · exact ih hx
      rw [if_pos hlt]
      exact hlt.le.trans hle
    case isFalse hge =>
      rw [if_neg hge]
      rcases List.mem_cons.mp hx with rfl | hx
      · exact not_lt.mp hge
      · exact ih hx

/-- Settles O28: keys are a linear order, and entries of distinct sequence numbers have distinct keys. -/
theorem popminTakesLeastKey : Obligations.PopminTakesLeastKey := by
  refine ⟨fun x y => keyLt_iff.trans entryKey_lt_iff, fun e rest m others hpop => ?_⟩
  have hperm : (m :: others).Perm (e :: rest) := by simpa [hpop] using popMin_perm e rest
  have hleast : ∀ x ∈ others, entryKey m ≤ entryKey x := fun x hx => by
    simpa [hpop] using popMin_least (e := e) (rest := rest) (by simpa [hpop] using hx)
  refine ⟨hperm, fun x hx => ⟨?_, treeWeight_le_of_entryKey_le (hleast x hx)⟩, fun hnodup x hx => ?_⟩
  · rw [← Bool.not_eq_true, keyLt_iff]
    exact not_lt.mpr (hleast x hx)
  · have hseq : m.seq ∉ others.map Entry.seq := by
      have := (hperm.map Entry.seq).nodup_iff.mpr hnodup
      exact (List.nodup_cons.mp this).1
    have hkey : entryKey m ≠ entryKey x := fun h => hseq (List.mem_map.mpr ⟨x, hx, (congrArg (fun k => (ofLex k).2) h).symm⟩)
    exact keyLt_iff.mpr (lt_of_le_of_ne (hleast x hx) hkey)

/-! ## The merge loop -/

/-- A predicate of the queue's trees that does not depend on their order and is kept when two trees of least weight are merged (R165). -/
structure MergeInvariant (P : List Tree → Prop) : Prop where
  perm : ∀ {ts us : List Tree}, ts.Perm us → P ts → P us
  merge : ∀ {l r : Tree} {ts : List Tree}, (∀ t ∈ r :: ts, treeWeight l ≤ treeWeight t) → (∀ t ∈ ts, treeWeight r ≤ treeWeight t) →
    P (l :: r :: ts) → P (.internal (treeWeight l + treeWeight r) l r :: ts)

section
variable {P : List Tree → Prop} (hP : MergeInvariant P)
include hP

/-- Two pops and the push of their merge keep an invariant (R165). -/
theorem MergeInvariant.holds_after_pops {q : Nat} {e x f : Entry} {rest others : List Entry} (hpop : popMin e rest = (x, f :: others))
    (h : P ((e :: rest).map Entry.node)) :
    P ((mergeEntries q x (popMin f others).1 :: (popMin f others).2).map Entry.node) := by
  have hperm : (x :: f :: others).Perm (e :: rest) := by simpa [hpop] using popMin_perm e rest
  have hperm2 := popMin_perm f others
  refine hP.merge (r := (popMin f others).1.node) ?_ ?_ (hP.perm (((hperm2.cons x).trans hperm).map Entry.node).symm h)
  · rw [← List.map_cons, List.forall_mem_map]
    intro z hz
    have hmem : z ∈ (popMin e rest).2 := by simpa [hpop] using hperm2.mem_iff.mp hz
    simpa [hpop] using treeWeight_le_of_entryKey_le (popMin_least hmem)
  · rw [List.forall_mem_map]
    exact fun z hz => treeWeight_le_of_entryKey_le (popMin_least hz)

/-- What the merge step keeps holds of the root, once the loop's bound is at least the number of merges (R166). -/
theorem MergeInvariant.holds_mergeAll {n q : Nat} {e : Entry} {rest : List Entry} (hn : rest.length ≤ n)
    (h : P ((e :: rest).map Entry.node)) : P [mergeAll n q e rest] := by
  induction n generalizing q e rest with
  | zero =>
    obtain rfl : rest = [] := List.length_eq_zero_iff.mp (Nat.le_zero.mp hn)
    exact h
  | succ n ih =>
    have hlen := (popMin_perm e rest).length_eq
    unfold mergeAll
    split
    case _ x hpop =>
      have hperm : [x].Perm (e :: rest) := by simpa [hpop] using popMin_perm e rest
      exact hP.perm (hperm.map Entry.node).symm h
    case _ x f others hpop =>
      have hlen2 := (popMin_perm f others).length_eq
      simp only [hpop, List.length_cons] at hlen hlen2
      exact ih (by omega) (hP.holds_after_pops hpop h)

end

/-- The leaf of a symbol, its weight the count zero-extended (R161, R170). -/
def countLeaf (f : Vector Word 256) (a : Sym) : Tree := .leaf a ((tableGet f a).setWidth 40)

theorem node_leafEntry (f : Vector Word 256) (a : Sym) (q : Nat) : (leafEntry f a q).node = countLeaf f a := rfl

theorem map_node_seedFrom (f : Vector Word 256) (q : Nat) (l : List Sym) : (seedFrom f q l).map Entry.node = l.map (countLeaf f) := by
  induction l generalizing q with
  | nil => rfl
  | cons a l ih => simp [seedFrom, ih, node_leafEntry]

@[simp] theorem toNat_treeWeight_countLeaf (f : Vector Word 256) (a : Sym) : (treeWeight (countLeaf f a)).toNat = (tableGet f a).toNat := by
  have := (tableGet f a).isLt
  rw [countLeaf, treeWeight, BitVec.toNat_setWidth]
  omega

/-- What holds of the leaves of an alphabet, and is kept by the merge step, holds of BUILD's tree (R160). -/
theorem MergeInvariant.holds_huffmanTree {P : List Tree → Prop} (hP : MergeInvariant P) {f : Vector Word 256} {a : Sym} {rest : List Sym}
    (h : P ((a :: rest).map (countLeaf f))) : P [huffmanTree f a rest] := by
  refine hP.holds_mergeAll (by simp) ?_
  rwa [List.map_cons, map_node_seedFrom]

/-! ## The weights -/

@[simp] theorem treeWeight_internal (w : Weight) (l r : Tree) : treeWeight (.internal w l r) = w := rfl

/-- Every weight in the queue's trees is exact, and the weights of the trees sum up to a total (R170). -/
def ExactQueue (f : Vector Word 256) (total : Nat) (ts : List Tree) : Prop :=
  (∀ t ∈ ts, WeightsExact f t) ∧ (ts.map fun t => (treeWeight t).toNat).sum = total

/-- A merge within an exact queue of a total below 2^40 does not wrap (R170). -/
theorem ExactQueue.toNat_add {f : Vector Word 256} {total : Nat} {l r : Tree} {ts : List Tree} (h : ExactQueue f total (l :: r :: ts))
    (htotal : total < 2 ^ 40) : (treeWeight l + treeWeight r).toNat = (treeWeight l).toNat + (treeWeight r).toNat := by
  obtain ⟨-, hsum⟩ := h
  simp only [List.map_cons, List.sum_cons] at hsum
  exact BitVec.toNat_add_of_lt (by omega)

theorem mergeInvariant_exactQueue (f : Vector Word 256) {total : Nat} (htotal : total < 2 ^ 40) : MergeInvariant (ExactQueue f total) where
  perm {ts us} hperm h := by
    obtain ⟨hexact, hsum⟩ := h
    exact ⟨fun t ht => hexact t (hperm.mem_iff.mpr ht), (hperm.map _).sum_eq.symm.trans hsum⟩
  merge {l r ts} _ _ h := by
    have hadd := h.toNat_add htotal
    obtain ⟨hexact, hsum⟩ := h
    simp only [List.forall_mem_cons] at hexact
    obtain ⟨hl, hr, hts⟩ := hexact
    refine ⟨List.forall_mem_cons.mpr ⟨⟨hadd, hl, hr⟩, hts⟩, ?_⟩
    simpa [hadd, Nat.add_assoc] using hsum

/-- The sum of all the counts of an alphabet. -/
def totalCount (f : Vector Word 256) (alphabet : List Sym) : Nat := (alphabet.map fun a => (tableGet f a).toNat).sum

theorem exactQueue_countLeaf (f : Vector Word 256) (alphabet : List Sym) :
    ExactQueue f (totalCount f alphabet) (alphabet.map (countLeaf f)) := by
  refine ⟨fun t ht => ?_, by simp [totalCount, Function.comp_def]⟩
  obtain ⟨a, -, rfl⟩ := List.mem_map.mp ht
  exact toNat_treeWeight_countLeaf f a

/-- 256 counts of 32 bits sum up to less than 2^40 (R170). -/
theorem totalCount_lt (f : Vector Word 256) : totalCount f (freqAlphabet f) < 2 ^ 40 := by
  have hle : totalCount f (freqAlphabet f) ≤ (freqAlphabet f).length * (2 ^ 32 - 1) := by
    refine (List.sum_le_card_nsmul _ (2 ^ 32 - 1) fun n hn => ?_).trans_eq (by simp)
    obtain ⟨a, -, rfl⟩ := List.mem_map.mp hn
    have := (tableGet f a).isLt
    omega
  have := length_freqAlphabet_le f
  omega

/-- BUILD's tree is an exact queue of one tree. -/
theorem exactQueue_huffmanTree {f : Vector Word 256} {a : Sym} {rest : List Sym} (h : freqAlphabet f = a :: rest) :
    ExactQueue f (totalCount f (a :: rest)) [huffmanTree f a rest] :=
  (mergeInvariant_exactQueue f (h ▸ totalCount_lt f)).holds_huffmanTree (exactQueue_countLeaf f _)

/-- Settles O29: the merge loop keeps the queue exact, its total below 2^40. -/
theorem buildWeightsNeverOverflow : Obligations.BuildWeightsNeverOverflow := by
  intro f a rest h
  obtain ⟨hexact, hsum⟩ := exactQueue_huffmanTree h
  exact ⟨hexact _ (List.mem_singleton_self _), by simpa [totalCount] using hsum⟩

end Sys2Proof.Machine
end

section
/-! PROOFS of the statements of 42_tree_builder.md, part 3: the table BUILD installs holds the paths of its tree (R167; O27), a complete code
in which no codeword begins with another (R160, R168, R173; O26). -/

namespace Sys2Proof.Machine

/-! ## Completeness -/

/-- The Kraft sum of codeword lengths up to n, scaled by 2^n (R173). -/
def kraftSum (n : Nat) (lens : List Nat) : Nat := (lens.map fun k => 2 ^ (n - k)).sum

@[simp] theorem kraftSum_cons (n k : Nat) (lens : List Nat) : kraftSum n (k :: lens) = 2 ^ (n - k) + kraftSum n lens := by
  simp [kraftSum]

theorem kraftSum_append (n : Nat) (lens lens' : List Nat) : kraftSum n (lens ++ lens') = kraftSum n lens + kraftSum n lens' := by
  simp [kraftSum]

theorem kraftSum_perm {n : Nat} {lens lens' : List Nat} (h : lens.Perm lens') : kraftSum n lens = kraftSum n lens' := (h.map _).sum_eq

/-- One bit before each codeword halves the Kraft sum. -/
theorem kraftSum_map_succ (n : Nat) (lens : List Nat) : kraftSum (n + 1) (lens.map (· + 1)) = kraftSum n lens := by
  simp [kraftSum, Function.comp_def]

/-- The lengths of a tree's paths, from left to right. -/
def pathLengths (t : Tree) : List Nat := (treePaths t).map fun x => x.2.length

theorem pathLengths_internal (w : Weight) (l r : Tree) :
    pathLengths (.internal w l r) = (pathLengths l).map (· + 1) ++ (pathLengths r).map (· + 1) := by
  simp [pathLengths, treePaths, Function.comp_def]

/-- The paths of a tree fill the Kraft sum: below each edge they fill half of it (R173). -/
theorem kraftSum_pathLengths {t : Tree} {n : Nat} (h : ∀ k ∈ pathLengths t, k ≤ n) : kraftSum n (pathLengths t) = 2 ^ n := by
  induction t generalizing n with
  | leaf => simp [pathLengths, treePaths, kraftSum]
  | internal w l r ihl ihr =>
    simp only [pathLengths_internal, List.forall_mem_append, List.forall_mem_map] at h ⊢
    obtain ⟨hl, hr⟩ := h
    obtain ⟨x, hx⟩ : ∃ x, x ∈ pathLengths l :=
      List.exists_mem_of_length_pos (Nat.lt_of_lt_of_eq (treePaths_length_pos l) (List.length_map _).symm)
    obtain ⟨m, rfl⟩ : ∃ m, n = m + 1 := Nat.exists_eq_add_of_le' ((Nat.le_add_left 1 x).trans (hl x hx))
    have hleft := ihl fun k hk => Nat.le_of_succ_le_succ (hl k hk)
    have hright := ihr fun k hk => Nat.le_of_succ_le_succ (hr k hk)
    rw [kraftSum_append, kraftSum_map_succ, kraftSum_map_succ, hleft, hright, pow_succ, Nat.mul_two]

/-! ## The stored bits -/

/-- Past the end of a packed sequence every stored bit is 0 (10_state.md R28). -/
theorem storedBit_packCode_past {c : List Bool} {j : Nat} (h : c.length ≤ j) : storedBit (packCode c) j = false := by
  by_cases hj : j < 256
  · rw [storedBit_packCode c j hj, List.getD_eq_default _ _ h]
  · have hnone : (packCode c)[j / 32]? = none := Vector.getElem?_eq_none (by omega)
    rw [storedBit, hnone]

/-- An entry of all 0 words stores no bit. -/
theorem storedBit_zero (j : Nat) : storedBit (Vector.replicate 8 0#32) j = false := by
  unfold storedBit
  split
  case _ hw =>
    obtain ⟨-, rfl⟩ := Vector.getElem?_eq_some_iff.mp hw
    simp
  · rfl

/-! ## The table of an alphabet -/

section
variable {s : State} {l : List Sym} (hnd : l.Nodup) (hle : l.length ≤ 256)
include hnd hle

/-- The length written for a symbol of the alphabet is that of its codeword. -/
theorem writeTable_codeLen {a : Sym} {c : List Bool} (h : (a, c) ∈ buildCodes s.freq l) :
    (tableGet (writeTable s l).codeLen a).toNat = c.length := by
  obtain ⟨-, hc⟩ := writeTable_codeword hnd hle h
  rw [← length_codeword, hc]

/-- The length written for a symbol of the alphabet is at least 1 and below the number of symbols, or 1 for a single symbol (R168, R173). -/
theorem writeTable_codeLen_bounds {a : Sym} (ha : a ∈ l) :
    1 ≤ (tableGet (writeTable s l).codeLen a).toNat ∧ (tableGet (writeTable s l).codeLen a).toNat ≤ max 1 (l.length - 1) := by
  obtain ⟨⟨b, c⟩, hx, rfl⟩ := List.mem_map.mp ((buildCodes_syms s.freq l).mem_iff.mpr ha)
  rw [writeTable_codeLen hnd hle hx]
  exact buildCodes_length hx

/-- The written table has a codeword for the symbols of the alphabet and for no other (R161). -/
theorem writeTable_inTable_iff_mem {a : Sym} : InTable (writeTable s l) a ↔ a ∈ l :=
  calc InTable (writeTable s l) a
      ↔ ∃ c, (a, c) ∈ buildCodes s.freq l := writeTable_inTable_iff hnd hle
    _ ↔ a ∈ (buildCodes s.freq l).map Prod.fst := by simp
    _ ↔ a ∈ l := (buildCodes_syms s.freq l).mem_iff

/-- Stored bits past a codeword's length are 0 (R167). -/
theorem writeTable_storedBit_past {a : Sym} {j : Nat} (h : (tableGet (writeTable s l).codeLen a).toNat ≤ j) :
    storedBit (tableGet (writeTable s l).codeBits a) j = false := by
  by_cases hin : ∃ c, (a, c) ∈ buildCodes s.freq l
  · obtain ⟨c, hc⟩ := hin
    have hbits : tableGet (writeTable s l).codeBits a = packCode c := tableGet_writeCodes (nodup_buildCodes_syms hnd s.freq) hc _
    rw [hbits]
    exact storedBit_packCode_past (writeTable_codeLen hnd hle hc ▸ h)
  · have hbits : tableGet (writeTable s l).codeBits a = tableGet emptyBits a :=
      tableGet_writeCodes_other (by rintro ⟨b, c⟩ hx rfl; exact hin ⟨c, hx⟩) _
    rw [hbits, tableGet_emptyBits, storedBit_zero]

/-- A sum over the symbols of the alphabet and their codewords in the written table is one over BUILD's codes. -/
theorem sum_writeTable (g : Sym → List Bool → Nat) :
    (l.map fun a => g a (codeword (writeTable s l) a)).sum = ((buildCodes s.freq l).map fun x => g x.1 x.2).sum := by
  rw [← ((buildCodes_syms s.freq l).map _).sum_eq, List.map_map]
  refine congrArg List.sum (List.map_congr_left fun x hx => ?_)
  obtain ⟨-, hc⟩ := writeTable_codeword hnd hle hx
  exact congrArg (g x.1) hc

/-- The written lengths of two symbols or more fill the Kraft sum (R173). -/
theorem kraftSum_writeTable (hn : 2 ≤ l.length) :
    (l.map fun a => 2 ^ (255 - (tableGet (writeTable s l).codeLen a).toNat)).sum = 2 ^ 255 := by
  match l, hn with
  | a :: b :: rest, _ =>
    have hlens : ∀ k ∈ pathLengths (huffmanTree s.freq a (b :: rest)), k ≤ 255 := by
      simp only [pathLengths, List.forall_mem_map]
      intro x hx
      obtain ⟨-, hmax⟩ := buildCodes_length (l := a :: b :: rest) hx
      simp only [List.length_cons] at hle hmax
      omega
    have hsum := sum_writeTable (s := s) hnd hle fun _ c => 2 ^ (255 - c.length)
    simp only [length_codeword] at hsum
    rw [hsum, ← kraftSum_pathLengths hlens, kraftSum, pathLengths, List.map_map]
    rfl

end

/-! ## The settled statements -/

/-- Settles O27: the tree's paths are BUILD's codes, and the written table holds them. -/
theorem buildCodewordsAreTreePaths : Obligations.BuildCodewordsAreTreePaths := by
  intro s a b rest he henc hdec hcons
  have hnd := nodup_freqAlphabet s.freq
  have hle := length_freqAlphabet_le s.freq
  have hbuild := exec_build_counted he ⟨henc, hdec⟩ (by simp [hcons])
  rw [hcons] at hnd hle hbuild
  refine ⟨buildCodes_syms s.freq (a :: b :: rest), _, hbuild, fun x hx => ⟨?_, ?_, fun j hj => ?_⟩⟩
  · exact (writeTable_codeword (s := s) hnd hle hx).2
  · exact writeTable_codeLen (s := s) hnd hle hx
  · exact writeTable_storedBit_past (s := s) hnd hle ((writeTable_codeLen (s := s) hnd hle hx).trans_le hj)

/-- Settles O26: the state BUILD installs holds the table of the alphabet counted. -/
theorem buildGivesCompletePrefixCode : Obligations.BuildGivesCompletePrefixCode := by
  intro s he henc hdec hne
  have hnd := nodup_freqAlphabet s.freq
  have hle := length_freqAlphabet_le s.freq
  refine ⟨_, exec_build_counted he ⟨henc, hdec⟩ hne, rfl, fun a => ?_, writeTable_prefixFree (s := s) hnd hle, fun a j hbit => ?_,
    fun hone a ha => ?_, fun htwo => ⟨fun a ha => ?_, kraftSum_writeTable (s := s) hnd hle htwo⟩⟩
  · exact (writeTable_inTable_iff_mem (s := s) hnd hle).trans mem_freqAlphabet
  · by_contra hj
    exact Bool.false_ne_true ((writeTable_storedBit_past (s := s) hnd hle (not_lt.mp hj)).symm.trans hbit)
  · obtain ⟨b, hb⟩ := List.length_eq_one_iff.mp hone
    obtain rfl : a = b := by simpa [hb] using ha
    exact (writeTable_codeword (s := s) (c := [false]) hnd hle (by simp [hb, buildCodes])).2
  · obtain ⟨hmin, hmax⟩ := writeTable_codeLen_bounds (s := s) hnd hle ha
    exact ⟨hmin, hmax.trans_eq (max_eq_right (by omega))⟩

end Sys2Proof.Machine
end

section
/-! PROOFS of the statements of 42_tree_builder.md, part 4: the code BUILD makes is optimal (R174; O32). Any code in which no codeword begins with
another gives lengths for the leaves within the Kraft sum. Each merge keeps such lengths for the trees of the queue at no more cost: the two trees of
least weight may take the two greatest lengths, and their parent one bit less. -/

namespace Sys2Proof.Machine

/-! ## Kraft's inequality -/

/-- A code of nonempty codewords, none of which begins with another, is uniquely decodable. -/
theorem uniquelyDecodable_of_prefixFree {α : Type} {S : Set (List α)} (hnil : [] ∉ S) (h : ∀ u ∈ S, ∀ v ∈ S, u <+: v → u = v) :
    InformationTheory.UniquelyDecodable S := by
  intro us vs hus hvs heq
  induction us generalizing vs with
  | nil =>
    cases vs with
    | nil => rfl
    | cons v vs =>
      obtain ⟨rfl, -⟩ := List.append_eq_nil_iff.mp heq.symm
      exact absurd (hvs [] (by simp)) hnil
  | cons u us ih =>
    have hu := hus u (by simp)
    cases vs with
    | nil =>
      obtain ⟨rfl, -⟩ := List.append_eq_nil_iff.mp heq
      exact absurd hu hnil
    | cons v vs =>
      have hv := hvs v (by simp)
      simp only [List.flatten_cons] at heq
      have huv : u = v := by
        rcases List.prefix_or_prefix_of_prefix (List.prefix_append u us.flatten) (heq ▸ List.prefix_append v vs.flatten) with hp | hp
        · exact h u hu v hv hp
        · exact (h v hv u hu hp).symm
      subst huv
      rw [ih vs (fun w hw => hus w (by simp [hw])) (fun w hw => hvs w (by simp [hw])) (List.append_cancel_left heq)]

/-- Lengths up to n within the Kraft sum (R173). -/
def FitsKraft (n : Nat) (lens : List Nat) : Prop := (∀ k ∈ lens, k ≤ n) ∧ kraftSum n lens ≤ 2 ^ n

theorem FitsKraft.perm {n : Nat} {lens lens' : List Nat} (hperm : lens.Perm lens') (h : FitsKraft n lens) : FitsKraft n lens' := by
  obtain ⟨hle, hsum⟩ := h
  exact ⟨fun k hk => hle k (hperm.mem_iff.mpr hk), kraftSum_perm hperm ▸ hsum⟩

/-- Kraft's inequality over the natural numbers, scaled by 2^n. -/
theorem sum_two_pow_le_of_prefixFree {S : Finset (List Bool)} (hnil : [] ∉ S) (h : ∀ u ∈ S, ∀ v ∈ S, u <+: v → u = v) {n : Nat}
    (hn : ∀ c ∈ S, c.length ≤ n) : ∑ c ∈ S, 2 ^ (n - c.length) ≤ 2 ^ n := by
  have hkraft : ∑ c ∈ S, (1 / 2 : ℝ) ^ c.length ≤ 1 := by
    simpa using InformationTheory.kraft_mcmillan_inequality (uniquelyDecodable_of_prefixFree (S := (S : Set (List Bool))) hnil h)
  have hscale : ((∑ c ∈ S, 2 ^ (n - c.length) : ℕ) : ℝ) = 2 ^ n * ∑ c ∈ S, (1 / 2 : ℝ) ^ c.length := by
    push_cast
    rw [Finset.mul_sum]
    refine Finset.sum_congr rfl fun c hc => ?_
    rw [pow_sub₀ _ two_ne_zero (hn c hc), one_div, inv_pow]
  have hle : ((∑ c ∈ S, 2 ^ (n - c.length) : ℕ) : ℝ) ≤ 2 ^ n := hscale.trans_le (mul_le_of_le_one_right (by positivity) hkraft)
  exact_mod_cast hle

/-- The codewords of two symbols or more, none of which begins with another, have lengths within the Kraft sum. -/
theorem exists_fitsKraft {alphabet : List Sym} (hnd : alphabet.Nodup) (hn : 2 ≤ alphabet.length) {code : Sym → List Bool}
    (hfree : ∀ a ∈ alphabet, ∀ b ∈ alphabet, a ≠ b → ¬ code a <+: code b) :
    ∃ n, FitsKraft n (alphabet.map fun a => (code a).length) := by
  have heq : ∀ a ∈ alphabet, ∀ b ∈ alphabet, code a <+: code b → a = b := fun a ha b hb hp => by
    by_contra hne
    exact hfree a ha b hb hne hp
  have hinj : Set.InjOn code (alphabet.toFinset : Set Sym) := fun a ha b hb hab =>
    heq a (by simpa using ha) b (by simpa using hb) (hab ▸ List.prefix_rfl)
  have hnil : [] ∉ alphabet.toFinset.image code := by
    simp only [Finset.mem_image, List.mem_toFinset, not_exists, not_and]
    intro a ha hempty
    have hall : alphabet = List.replicate alphabet.length a :=
      List.eq_replicate_of_mem fun b hb => (heq a ha b hb (hempty ▸ List.nil_prefix)).symm
    have hone : alphabet.length ≤ 1 := List.nodup_replicate.mp (hall ▸ hnd)
    omega
  obtain ⟨n, hlens⟩ : ∃ n, ∀ a ∈ alphabet, (code a).length ≤ n :=
    ⟨alphabet.toFinset.sup fun a => (code a).length, fun a ha =>
      Finset.le_sup (f := fun a => (code a).length) (List.mem_toFinset.mpr ha)⟩
  have hsum := sum_two_pow_le_of_prefixFree hnil
    (by simpa [Finset.forall_mem_image] using fun a ha b hb hp => congrArg code (heq a ha b hb hp)) (n := n)
    (by simpa [Finset.forall_mem_image] using hlens)
  rw [Finset.sum_image hinj, List.sum_toFinset _ hnd] at hsum
  exact ⟨n, List.forall_mem_map.mpr hlens, by simpa [kraftSum, Function.comp_def] using hsum⟩

/-! ## Merging two lengths -/

/-- The two greatest lengths within the Kraft sum may be replaced by one, a bit less than the second of them: the terms of all but the first are
multiples of the second's term, as is 2^n, so there is room for that term once more. -/
theorem FitsKraft.merge {n m k : Nat} {lens : List Nat} (h : FitsKraft n (m :: k :: lens)) (hmax : ∀ j ∈ lens, j ≤ k) :
    1 ≤ k ∧ FitsKraft n ((k - 1) :: lens) := by
  obtain ⟨hle, hsum⟩ := h
  simp only [List.forall_mem_cons] at hle
  obtain ⟨-, hkn, hlens⟩ := hle
  rw [kraftSum_cons] at hsum
  have hm : 0 < 2 ^ (n - m) := Nat.two_pow_pos _
  have hdvd : 2 ^ (n - k) ∣ kraftSum n (k :: lens) := by
    refine List.dvd_sum fun j hj => ?_
    obtain ⟨i, hi, rfl⟩ := List.mem_map.mp hj
    refine pow_dvd_pow 2 (Nat.sub_le_sub_left ?_ n)
    rcases List.mem_cons.mp hi with rfl | hi
    · exact le_rfl
    · exact hmax i hi
  have hmod : kraftSum n (k :: lens) ≡ 2 ^ n [MOD 2 ^ (n - k)] :=
    (Nat.modEq_zero_iff_dvd.mpr hdvd).trans (Nat.modEq_zero_iff_dvd.mpr (pow_dvd_pow 2 (Nat.sub_le n k))).symm
  have hroom : kraftSum n (k :: lens) + 2 ^ (n - k) ≤ 2 ^ n := hmod.add_le_of_lt (by omega)
  rw [kraftSum_cons] at hroom
  have hpos : 1 ≤ k := by
    by_contra hk
    obtain rfl : k = 0 := by omega
    simp only [Nat.sub_zero] at hroom
    omega
  refine ⟨hpos, List.forall_mem_cons.mpr ⟨by omega, hlens⟩, ?_⟩
  have hdouble : 2 ^ (n - (k - 1)) = 2 ^ (n - k) + 2 ^ (n - k) := by
    rw [show n - (k - 1) = n - k + 1 by omega, pow_succ, Nat.mul_two]
  rw [kraftSum_cons, hdouble]
  omega

/-! ## Exchanging lengths -/

section
variable {α : Type}

/-- Pairs whose first components are a nonempty list. -/
theorem exists_cons_of_map_fst {ps : List (α × Nat)} {x : α} {xs : List α} (h : ps.map Prod.fst = x :: xs) :
    ∃ k qs, ps = (x, k) :: qs ∧ qs.map Prod.fst = xs := by
  obtain ⟨⟨y, k⟩, qs, hps, hy, hqs⟩ := List.map_eq_cons_iff.mp h
  exact ⟨k, qs, hy ▸ hps, hqs⟩

/-- The cost of lengths given to things of a weight: the sum of weight times length. -/
def pairedCost (weight : α → Nat) (ps : List (α × Nat)) : Nat := (ps.map fun p => weight p.1 * p.2).sum

@[simp] theorem pairedCost_cons (weight : α → Nat) (x : α) (k : Nat) (ps : List (α × Nat)) :
    pairedCost weight ((x, k) :: ps) = weight x * k + pairedCost weight ps := by simp [pairedCost]

/-- A thing of least weight may take the greatest length at no more cost, the lengths only changing places. -/
theorem exists_longest_at_least {weight : α → Nat} {x : α} {ps : List (α × Nat)} (hx : ∀ z ∈ ps.map Prod.fst, weight x ≤ weight z)
    (k : Nat) :
    ∃ m qs, qs.map Prod.fst = ps.map Prod.fst ∧ (m :: qs.map Prod.snd).Perm (k :: ps.map Prod.snd) ∧ (∀ q ∈ qs, q.2 ≤ m) ∧
      weight x * m + pairedCost weight qs ≤ weight x * k + pairedCost weight ps := by
  induction ps with
  | nil => exact ⟨k, [], rfl, .refl _, by simp, le_rfl⟩
  | cons p ps ih =>
    obtain ⟨y, j⟩ := p
    obtain ⟨hy, hps⟩ := List.forall_mem_cons.mp hx
    obtain ⟨m, qs, hfst, hsnd, hmax, hcost⟩ := ih hps
    have hswap : (m :: j :: qs.map Prod.snd).Perm (k :: j :: ps.map Prod.snd) :=
      (List.Perm.swap _ _ _).trans ((hsnd.cons j).trans (List.Perm.swap _ _ _))
    by_cases hj : j ≤ m
    · refine ⟨m, (y, j) :: qs, by simp [hfst], hswap, List.forall_mem_cons.mpr ⟨hj, hmax⟩, ?_⟩
      simp only [pairedCost_cons]
      omega
    · refine ⟨j, (y, m) :: qs, by simp [hfst], (List.Perm.swap _ _ _).trans hswap,
        List.forall_mem_cons.mpr ⟨by omega, fun q hq => (hmax q hq).trans (by omega)⟩, ?_⟩
      have hexchange : weight x * j + weight y * m ≤ weight x * m + weight y * j := by
        obtain ⟨d, rfl⟩ := Nat.exists_eq_add_of_le (show m ≤ j by omega)
        have hd : weight x * d ≤ weight y * d := Nat.mul_le_mul_right d hy
        simp only [Nat.mul_add]
        omega
      simp only [pairedCost_cons]
      omega

/-- Two things of least weight may take the two greatest lengths at no more cost. -/
theorem exists_two_longest_at_least {weight : α → Nat} {x y : α} {ps : List (α × Nat)}
    (hx : ∀ z ∈ y :: ps.map Prod.fst, weight x ≤ weight z) (hy : ∀ z ∈ ps.map Prod.fst, weight y ≤ weight z) (i j : Nat) :
    ∃ m k qs, qs.map Prod.fst = ps.map Prod.fst ∧ (m :: k :: qs.map Prod.snd).Perm (i :: j :: ps.map Prod.snd) ∧ k ≤ m ∧
      (∀ q ∈ qs, q.2 ≤ k) ∧
      weight x * m + (weight y * k + pairedCost weight qs) ≤ weight x * i + (weight y * j + pairedCost weight ps) := by
  obtain ⟨m, _, hqs, hsnd, hmax, hcost⟩ := exists_longest_at_least (ps := (y, j) :: ps) hx i
  obtain ⟨j', qs, rfl, hfst⟩ := exists_cons_of_map_fst (x := y) hqs
  obtain ⟨k, rs, hfst', hsnd', hmax', hcost'⟩ := exists_longest_at_least (weight := weight) (x := y) (ps := qs) (by rwa [hfst]) j'
  refine ⟨m, k, rs, hfst'.trans hfst, (hsnd'.cons m).trans hsnd, ?_, hmax', ?_⟩
  · have hk : k ∈ ((y, j') :: qs).map Prod.snd := hsnd'.mem_iff.mp (by simp)
    obtain ⟨q, hq, rfl⟩ := List.mem_map.mp hk
    exact hmax q hq
  · simp only [pairedCost_cons] at hcost hcost'
    omega

/-- Pairs follow a permutation of their first components. -/
theorem exists_pairs_of_perm {ps : List (α × Nat)} {xs : List α} (h : (ps.map Prod.fst).Perm xs) :
    ∃ qs : List (α × Nat), qs.map Prod.fst = xs ∧ ps.Perm qs := by
  obtain ⟨qs, hqs, hperm⟩ := (congrFun₂ (List.eq_map_comp_perm (Prod.fst : α × Nat → α)) xs ps).mpr h.symm
  exact ⟨qs, hqs.symm, hperm.symm⟩

end

/-! ## The cost of a tree -/

/-- The cost of a tree: the sum of the weights of its internal nodes. -/
def treeCost : Tree → Nat
  | .leaf _ _ => 0
  | .internal w l r => w.toNat + (treeCost l + treeCost r)

/-- With exact weights, giving each leaf its path costs the sum of the internal weights, and k bits more for each path cost k times the root's
weight. -/
theorem sum_treePaths {f : Vector Word 256} {t : Tree} (h : WeightsExact f t) (k : Nat) :
    ((treePaths t).map fun x => (tableGet f x.1).toNat * (x.2.length + k)).sum = treeCost t + (treeWeight t).toNat * k := by
  induction t generalizing k with
  | leaf a w =>
    have hw : w.toNat = (tableGet f a).toNat := h
    simp [treePaths, treeCost, treeWeight, hw]
  | internal w l r ihl ihr =>
    obtain ⟨hw, hl, hr⟩ := h
    have hleft := ihl hl (k + 1)
    have hright := ihr hr (k + 1)
    simp only [treePaths, List.map_append, List.map_map, List.sum_append, Function.comp_def, List.length_cons, Nat.add_right_comm _ 1 k,
      Nat.add_assoc _ k 1, treeCost, treeWeight_internal, hw] at hleft hright ⊢
    rw [hleft, hright]
    ring

/-! ## The cost of the queue -/

/-- The weight of a tree as a number. -/
abbrev natWeight (t : Tree) : Nat := (treeWeight t).toNat

/-- Some lengths within the Kraft sum, one for each tree of the queue, cost no more than a bound together with the trees' own costs. -/
def Affords (n bound : Nat) (ts : List Tree) : Prop :=
  ∃ ps : List (Tree × Nat), ps.map Prod.fst = ts ∧ FitsKraft n (ps.map Prod.snd) ∧
    pairedCost natWeight ps + (ts.map treeCost).sum ≤ bound

theorem Affords.perm {n bound : Nat} {ts us : List Tree} (hperm : ts.Perm us) (h : Affords n bound ts) : Affords n bound us := by
  obtain ⟨ps, rfl, hfits, hcost⟩ := h
  obtain ⟨qs, rfl, hqs⟩ := exists_pairs_of_perm hperm
  refine ⟨qs, rfl, hfits.perm (hqs.map _), ?_⟩
  have hpaired : pairedCost natWeight ps = pairedCost natWeight qs := (hqs.map _).sum_eq
  have htrees := (hperm.map treeCost).sum_eq
  omega

/-- The merge of two trees of least weight is as affordable: they may take the two greatest lengths (R165). -/
theorem Affords.merge {n bound : Nat} {l r : Tree} {ts : List Tree} (hl : ∀ t ∈ r :: ts, treeWeight l ≤ treeWeight t)
    (hr : ∀ t ∈ ts, treeWeight r ≤ treeWeight t) (hadd : (treeWeight l + treeWeight r).toNat = natWeight l + natWeight r)
    (h : Affords n bound (l :: r :: ts)) : Affords n bound (.internal (treeWeight l + treeWeight r) l r :: ts) := by
  obtain ⟨_, hpairs, hfits, hcost⟩ := h
  obtain ⟨i, _, rfl, hpairs'⟩ := exists_cons_of_map_fst hpairs
  obtain ⟨j, ps, rfl, rfl⟩ := exists_cons_of_map_fst hpairs'
  obtain ⟨m, k, qs, hqs, hperm, hkm, hmax, hless⟩ := exists_two_longest_at_least (weight := natWeight) hl hr i j
  obtain ⟨hpos, hfits⟩ := (hfits.perm hperm.symm).merge (List.forall_mem_map.mpr hmax)
  refine ⟨(.internal (treeWeight l + treeWeight r) l r, k - 1) :: qs, by simp [hqs], hfits, ?_⟩
  have hweight : natWeight (.internal (treeWeight l + treeWeight r) l r) = natWeight l + natWeight r := hadd
  have hparent : (natWeight l + natWeight r) * (k - 1) + (natWeight l + natWeight r) ≤ natWeight l * m + natWeight r * k := by
    calc (natWeight l + natWeight r) * (k - 1) + (natWeight l + natWeight r)
        = natWeight l * k + natWeight r * k := by rw [← Nat.mul_succ, Nat.succ_eq_add_one, Nat.sub_add_cancel hpos, Nat.add_mul]
      _ ≤ natWeight l * m + natWeight r * k := Nat.add_le_add_right (Nat.mul_le_mul_left _ hkm) _
  simp only [pairedCost_cons, List.map_cons, List.sum_cons, treeCost, hweight, hadd] at hcost ⊢
  omega

/-- The merge step keeps the queue exact and affordable. -/
theorem mergeInvariant_affords (f : Vector Word 256) {total : Nat} (htotal : total < 2 ^ 40) (n bound : Nat) :
    MergeInvariant fun ts => ExactQueue f total ts ∧ Affords n bound ts where
  perm hperm := And.imp ((mergeInvariant_exactQueue f htotal).perm hperm) (Affords.perm hperm)
  merge hl hr h := by
    obtain ⟨hexact, haff⟩ := h
    exact ⟨(mergeInvariant_exactQueue f htotal).merge hl hr hexact, haff.merge hl hr (hexact.toNat_add htotal)⟩

/-- A code's lengths are affordable for the leaves of its alphabet, within the code's own cost. -/
theorem affords_countLeaf {f : Vector Word 256} {n : Nat} {alphabet : List Sym} {code : Sym → List Bool}
    (h : FitsKraft n (alphabet.map fun a => (code a).length)) :
    Affords n (codeCost f alphabet code) (alphabet.map (countLeaf f)) := by
  refine ⟨alphabet.map fun a => (countLeaf f a, (code a).length), by simp, by simpa [Function.comp_def] using h, ?_⟩
  have hleaf : ∀ a, treeCost (countLeaf f a) = 0 := fun _ => rfl
  simp [pairedCost, codeCost, Function.comp_def, hleaf]

/-- BUILD's tree costs no more than any code of its alphabet in which no codeword begins with another (R174). -/
theorem treeCost_huffmanTree_le {f : Vector Word 256} {a b : Sym} {rest : List Sym} (h : freqAlphabet f = a :: b :: rest)
    {code : Sym → List Bool} (hfree : ∀ c ∈ a :: b :: rest, ∀ d ∈ a :: b :: rest, c ≠ d → ¬ code c <+: code d) :
    treeCost (huffmanTree f a (b :: rest)) ≤ codeCost f (a :: b :: rest) code := by
  obtain ⟨n, hfits⟩ := exists_fitsKraft (h ▸ nodup_freqAlphabet f) (by simp) hfree
  obtain ⟨-, ps, -, -, hcost⟩ := (mergeInvariant_affords f (h ▸ totalCount_lt f) n _).holds_huffmanTree
    ⟨exactQueue_countLeaf f (a :: b :: rest), affords_countLeaf (f := f) hfits⟩
  simp only [List.map_cons, List.map_nil, List.sum_singleton] at hcost
  omega

/-- After a BUILD of two symbols or more the table costs what its tree does. -/
theorem codeCost_writeTable {s : State} {a b : Sym} {rest : List Sym} (h : freqAlphabet s.freq = a :: b :: rest) :
    codeCost s.freq (a :: b :: rest) (codeword (writeTable s (a :: b :: rest))) = treeCost (huffmanTree s.freq a (b :: rest)) := by
  have hnd := nodup_freqAlphabet s.freq
  have hle := length_freqAlphabet_le s.freq
  rw [h] at hnd hle
  obtain ⟨hexact, -⟩ := exactQueue_huffmanTree h
  exact (sum_writeTable hnd hle fun c p => (tableGet s.freq c).toNat * p.length).trans
    (sum_treePaths (hexact _ (List.mem_singleton_self _)) 0)

/-- Settles O32: for two symbols or more by the queue's affordable lengths, for one by its codeword 0. -/
theorem buildIsOptimal : Obligations.BuildIsOptimal := by
  intro s t he henc hdec hbuild
  refine ⟨fun code hn hfree => ?_, fun a ha => ?_⟩
  · match hcons : freqAlphabet s.freq, hn with
    | a :: b :: rest, _ =>
      rw [exec_build_counted he ⟨henc, hdec⟩ (by simp [hcons]), hcons] at hbuild
      cases hbuild
      rw [hcons] at hfree
      exact (codeCost_writeTable hcons).trans_le (treeCost_huffmanTree_le hcons hfree)
  · rw [exec_build_counted he ⟨henc, hdec⟩ (by simp [ha]), ha] at hbuild
    cases hbuild
    have hword : codeword (writeTable s [a]) a = [false] := (writeTable_codeword (by simp) (by simp) (by simp [buildCodes])).2
    calc codeCost s.freq [a] (codeword (writeTable s [a]))
        = (tableGet s.freq a).toNat * (codeword (writeTable s [a]) a).length := by simp [codeCost]
      _ = (tableGet s.freq a).toNat := by simp [hword]

end Sys2Proof.Machine
end

section
/-! PROOFS of the statements of 43_code_table.md, part 1: the commands that read and edit the code table: TBL_CLEAR (R191; O33), TBL_SET_LEN (R192;
O34), TBL_SET_WORD (R193; O35), TBL_COMMIT (R194; O36), TBL_GET_LEN (R195; O37) and TBL_GET_WORD (R196; O38). -/

namespace Sys2Proof.Machine

/-! ## The checks before the effect -/

/-- A command that needs no session raises SEQUENCE while one is open (30_encoding.md R97). -/
theorem exec_of_session_open {i : Instr} (hneed : sessionNeed i = .closed) {s : State} (he : s.err = 0#8)
    (hopen : s.encActive = true ∨ s.decActive = true) : exec i s = .next (raised 11#8 s) := by
  obtain ⟨hseq, -⟩ := sessionNeedsCheckedFirst i s he
  refine hseq ?_
  rw [hneed]
  exact not_noSession_of_open hopen

/-! ## The commands with ERR = 0 and no session -/

/-- What TBL_SET_WORD does (43_code_table.md R193). -/
def wordStored (a : Sym) (w : BitVec 3) (s : State) : State :=
  invalidateTable (s.setTable s.codeLen (tableSet s.codeBits a (wordSet (tableGet s.codeBits a) w s.arg)))

/-- What TBL_COMMIT does to a table that passes validation (R194). -/
def tableCommitted (s : State) : State := (validateTable (codeCount s) s).setResult (BitVec.ofNat 32 (codeCount s))

theorem codeAlphabet_eq_nil_iff {s : State} : codeAlphabet s.codeLen = [] ↔ ∀ a, ¬ InTable s a := by
  simp only [List.eq_nil_iff_forall_not_mem, mem_codeAlphabet]

theorem hasClash_eq_true_iff_not_prefixFree {s : State} : hasClash s = true ↔ ¬ PrefixFree s := by
  constructor
  · intro h hfree
    obtain ⟨a, b, ha, hb, hab, hp⟩ := hasClash_iff.mp h
    exact hfree a ha b hb hab hp
  · intro h
    by_contra hno
    exact h (prefixFree_of_not_hasClash (Bool.eq_false_iff.mpr hno))

section
variable {s : State} (he : s.err = 0#8) (hc : NoSession s)
include he hc

theorem exec_tblClear : exec .tblClear s = .next (clearTable s) := whenNoError_whenNoSession_idle he hc _

theorem exec_tblSetLen (a : Sym) (len : BitVec 8) : exec (.tblSetLen a len) s = .next (lengthSet a len s) :=
  whenNoError_whenNoSession_idle he hc _

theorem exec_tblSetWord (a : Sym) (w : BitVec 3) : exec (.tblSetWord a w) s = .next (wordStored a w s) :=
  whenNoError_whenNoSession_idle he hc _

/-- TBL_COMMIT of an empty table (R194). -/
theorem exec_tblCommit_empty (hempty : ∀ a, ¬ InTable s a) : exec .tblCommit s = .next (raised 1#8 (invalidateTable s)) := by
  refine (whenNoError_whenNoSession_idle he hc _).trans ?_
  rw [codeAlphabet_eq_nil_iff.mpr hempty, raise_of_noError .emptyAlphabet (s := invalidateTable s) he]
  rfl

/-- TBL_COMMIT of a table that is not empty turns on the clash of two codewords alone (R194). -/
theorem exec_tblCommit_loaded (hsome : ∃ a, InTable s a) :
    exec .tblCommit s = if hasClash s then .next (raise .badTable (invalidateTable s)) else .next (tableCommitted s) := by
  refine (whenNoError_whenNoSession_idle he hc _).trans ?_
  rw [tableCommitted, codeCount]
  split
  case _ hnil =>
    obtain ⟨a, ha⟩ := hsome
    exact absurd ha (codeAlphabet_eq_nil_iff.mp hnil a)
  case _ hcons => rw [hcons]

/-- TBL_COMMIT of a table in which a codeword is another one or a prefix of another one (R194). -/
theorem exec_tblCommit_clash (hclash : ¬ PrefixFree s) : exec .tblCommit s = .next (raised 5#8 (invalidateTable s)) := by
  have hsome : ∃ a, InTable s a := by
    by_contra hempty
    exact hclash fun a ha => absurd ⟨a, ha⟩ hempty
  rw [exec_tblCommit_loaded he hc hsome, if_pos (hasClash_eq_true_iff_not_prefixFree.mpr hclash),
    raise_of_noError .badTable (s := invalidateTable s) he]
  rfl

/-- TBL_COMMIT of a table whose codewords are prefix-free (R194). -/
theorem exec_tblCommit_valid (hsome : ∃ a, InTable s a) (hfree : PrefixFree s) : exec .tblCommit s = .next (tableCommitted s) := by
  rw [exec_tblCommit_loaded he hc hsome, if_neg fun hclash => hasClash_eq_true_iff_not_prefixFree.mp hclash hfree]

end

/-! ## What the edits leave -/

theorem codeCount_le (s : State) : codeCount s ≤ 256 := length_codeAlphabet_le s.codeLen

/-- The codeword after TBL_SET_LEN is the first stored bits of the entry, which stay (R192). -/
theorem codeword_lengthSet (a : Sym) (len : BitVec 8) (s : State) :
    codeword (lengthSet a len s) a = (List.range len.toNat).map (storedBit (tableGet s.codeBits a)) := by
  have hlen : tableGet (lengthSet a len s).codeLen a = len := (tableGet_tableSet _ _ _ _).trans (if_pos rfl)
  rw [codeword, hlen]
  rfl

theorem wordGet_wordStored (a b : Sym) (w u : BitVec 3) (s : State) :
    wordGet (tableGet (wordStored a w s).codeBits b) u = if b = a ∧ u = w then s.arg else wordGet (tableGet s.codeBits b) u := by
  have hbits : (wordStored a w s).codeBits = tableSet s.codeBits a (wordSet (tableGet s.codeBits a) w s.arg) := rfl
  rw [hbits, tableGet_tableSet]
  by_cases hb : b = a
  · simp [hb]
  · simp [hb]

theorem wordGet_wordStored_same (a : Sym) (w : BitVec 3) (s : State) : wordGet (tableGet (wordStored a w s).codeBits a) w = s.arg :=
  (wordGet_wordStored a a w w s).trans (if_pos ⟨rfl, rfl⟩)

/-- Stored bit 32·w + j of an entry is bit 31 - j of its word w: the earliest bit stands in bit 31 (10_state.md R28). -/
theorem storedBit_word (v : Vector Word 8) (w : BitVec 3) {j : Nat} (hj : j < 32) :
    storedBit v (32 * w.toNat + j) = (wordGet v w).getLsbD (31 - j) := by
  have hw := w.isLt
  have hdiv : (32 * w.toNat + j) / 32 = w.toNat := by omega
  have hmod : (32 * w.toNat + j) % 32 = j := by omega
  rw [storedBit_eq_wordGet v (by omega), hdiv, hmod, BitVec.ofNat_toNat, BitVec.setWidth_eq]

/-! ## The settled statements -/

/-- Settles O33: past the checks the table is the empty one, which a TBL_COMMIT refuses. -/
theorem tblClearCommand : Obligations.TblClearCommand := by
  refine ⟨wordOf_encode .tblClear, fun s => ⟨exec_of_gated rfl, exec_of_session_open rfl, fun he henc hdec => ?_⟩⟩
  refine ⟨_, exec_tblClear he ⟨henc, hdec⟩, rfl, fun a => ⟨tableGet_emptyLens a, tableGet_emptyBits a⟩, ?_⟩
  exact exec_tblCommit_empty (s := clearTable s) he ⟨henc, hdec⟩ fun a ha => ha (tableGet_emptyLens a)

/-- Settles O34: past the checks one length is written, and the stored bits stay. -/
theorem tblSetLenCommand : Obligations.TblSetLenCommand := by
  refine fun a len => ⟨wordOf_encode (.tblSetLen a len), fun s => ⟨exec_of_gated rfl, exec_of_session_open rfl, fun he henc hdec => ?_⟩⟩
  refine ⟨_, exec_tblSetLen he ⟨henc, hdec⟩ a len, rfl, ?_, fun b hb => ?_, codeword_lengthSet a len s⟩
  · exact (tableGet_tableSet _ _ _ _).trans (if_pos rfl)
  · exact (tableGet_tableSet _ _ _ _).trans (if_neg hb)

/-- Settles O35: past the checks one word is written, whose bits are the stored bits of its place. -/
theorem tblSetWordCommand : Obligations.TblSetWordCommand := by
  refine fun a w => ⟨wordOf_encode (.tblSetWord a w), fun s => ⟨exec_of_gated rfl, exec_of_session_open rfl, fun he henc hdec => ?_⟩⟩
  refine ⟨_, exec_tblSetWord he ⟨henc, hdec⟩ a w, rfl, wordGet_wordStored_same a w s, fun j hj => ?_, fun b u hne => ?_⟩
  · rw [storedBit_word _ w hj, wordGet_wordStored_same]
  · exact (wordGet_wordStored a b w u s).trans (if_neg (not_and_or.mpr hne))

/-- Settles O36: past the checks the table is empty, or it has a clash, or it becomes valid with its count, which is at most 256. -/
theorem tblCommitCommand : Obligations.TblCommitCommand := by
  refine ⟨wordOf_encode .tblCommit, fun s => ⟨exec_of_gated rfl, exec_of_session_open rfl, fun he henc hdec => ?_⟩⟩
  have hc : NoSession s := ⟨henc, hdec⟩
  have hcount := codeCount_le s
  refine ⟨exec_tblCommit_empty he hc, exec_tblCommit_clash he hc, fun hsome hfree => ?_⟩
  refine ⟨tableCommitted s, exec_tblCommit_valid he hc hsome hfree, rfl, ?_, ?_⟩
  · exact (BitVec.toNat_ofNat _ _).trans (Nat.mod_eq_of_lt (by omega))
  · exact (BitVec.toNat_ofNat _ _).trans (Nat.mod_eq_of_lt (by omega))

/-- Settles O37: the command has no gate, and writes RESULT and no other field. -/
theorem tblGetLenCommand : Obligations.TblGetLenCommand := fun a => ⟨wordOf_encode (.tblGetLen a), fun _ => rfl⟩

/-- Settles O38: the command has no gate and writes RESULT alone, and the word that TBL_SET_WORD stored is ARG. -/
theorem tblGetWordCommand : Obligations.TblGetWordCommand := by
  refine fun a w => ⟨wordOf_encode (.tblGetWord a w), fun s => ⟨rfl, fun he henc hdec => ?_⟩⟩
  exact ⟨_, exec_tblSetWord he ⟨henc, hdec⟩ a w,
    congrArg (fun v => Host.Outcome.next ((wordStored a w s).setResult v)) (wordGet_wordStored_same a w s)⟩

end Sys2Proof.Machine
end

section
/-! PROOFS of the statements of 43_code_table.md, part 2: in the decode tree of a table BUILD made of two symbols or more, every inner node has both
edges (R206, 45_decoder.md R245; O31). -/

namespace Sys2Proof.Machine

/-! ## The paths through an inner node -/

/-- The paths of a tree that is no leaf: an edge, then a path of the child below it (42_tree_builder.md R167). -/
theorem mem_treePaths_internal {w : Weight} {l r : Tree} {x : Sym × List Bool} :
    x ∈ treePaths (.internal w l r) ↔ ∃ b, ∃ y ∈ treePaths (cond b r l), x = (y.1, b :: y.2) := by
  simp [treePaths, eq_comm]

theorem exists_mem_treePaths (t : Tree) : ∃ x, x ∈ treePaths t := List.exists_mem_of_length_pos (treePaths_length_pos t)

/-- Where a path of a tree goes on, a path goes on along either edge: a node that is no leaf has two children (42_tree_builder.md R166). -/
theorem exists_path_along_edge {t : Tree} {x : Sym × List Bool} (hx : x ∈ treePaths t) {p : List Bool} (hp : p <+: x.2) (hne : p ≠ x.2)
    (b : Bool) : ∃ y ∈ treePaths t, p ++ [b] <+: y.2 := by
  induction t generalizing x p with
  | leaf a w =>
    obtain rfl := List.mem_singleton.mp hx
    exact absurd (List.prefix_nil.mp hp) hne
  | internal w l r ihl ihr =>
    obtain ⟨d, z, hz, rfl⟩ := mem_treePaths_internal.mp hx
    cases p with
    | nil =>
      obtain ⟨y, hy⟩ := exists_mem_treePaths (cond b r l)
      exact ⟨_, mem_treePaths_internal.mpr ⟨b, y, hy, rfl⟩, by simp⟩
    | cons e p =>
      obtain ⟨rfl, htail⟩ := List.cons_prefix_cons.mp hp
      have hshort : p ≠ z.2 := fun h => hne (congrArg (e :: ·) h)
      have hbelow : ∃ y ∈ treePaths (cond e r l), p ++ [b] <+: y.2 := by
        cases e with
        | false => exact ihl hz htail hshort
        | true => exact ihr hz htail hshort
      obtain ⟨y, hy, hpy⟩ := hbelow
      exact ⟨_, mem_treePaths_internal.mpr ⟨e, y, hy, rfl⟩, List.cons_prefix_cons.mpr ⟨rfl, hpy⟩⟩

/-! ## The table BUILD makes -/

/-- In the written table of two symbols or more every inner node has both edges (43_code_table.md R206). -/
theorem writeTable_bothEdges {s : State} {l : List Sym} (hnd : l.Nodup) (hle : l.length ≤ 256) (hn : 2 ≤ l.length) {p : List Bool}
    (hp : InnerNode (writeTable s l) p) (b : Bool) : ∃ c, InTable (writeTable s l) c ∧ p ++ [b] <+: codeword (writeTable s l) c := by
  match l, hn with
  | a₁ :: a₂ :: rest, _ =>
    obtain ⟨d, hin, hpre, hne⟩ := hp
    obtain ⟨path, hd⟩ := (writeTable_inTable_iff hnd hle).mp hin
    obtain ⟨-, hword⟩ := writeTable_codeword hnd hle hd
    rw [hword] at hpre hne
    obtain ⟨⟨c, path'⟩, hy, hedge⟩ := exists_path_along_edge (t := huffmanTree s.freq a₁ (a₂ :: rest)) hd hpre hne b
    obtain ⟨hin', hword'⟩ := writeTable_codeword (s := s) hnd hle hy
    exact ⟨c, hin', hword' ▸ hedge⟩

/-- Settles O31: the state BUILD leaves holds the table of the alphabet counted, whose codewords are the paths of a tree. -/
theorem builtTreesHaveBothEdges : Obligations.BuiltTreesHaveBothEdges := by
  intro s t he henc hdec hn hbuild p hp b
  have hne : freqAlphabet s.freq ≠ [] := List.ne_nil_of_length_pos (by omega)
  rw [exec_build_counted he ⟨henc, hdec⟩ hne] at hbuild
  cases hbuild
  exact writeTable_bothEdges (s := s) (nodup_freqAlphabet s.freq) (length_freqAlphabet_le s.freq) hn hp b

end Sys2Proof.Machine
end

section
/-! PROOFS of the statements of 44_encoder.md: ENC_START (R220; O40), ENC_SYM (R221; O41), ENC_FINISH (R222; O42), ENC_POS (R223; O43) and the payload
an encode session writes (R224, R225; O44). -/

namespace Sys2Proof.Machine

/-! ## Bit sequences written to the payload -/

namespace Payload

variable (p : Payload)

/-- A sequence written at its place reads back. -/
theorem holdsBits_writeBits (i : Nat) (bits : List Bool) : HoldsBits (p.writeBits i bits) i bits := by
  intro j hj
  rw [bit_writeBits, if_pos (by omega), Nat.add_sub_cancel_left]

theorem bit_writeBits_outside {bits : List Bool} {i j : Nat} (h : j < i ∨ i + bits.length ≤ j) :
    (p.writeBits i bits).bit? j = p.bit? j := by
  rw [bit_writeBits, if_neg (by omega)]

theorem byte_writeBit_other {i k : Nat} (h : k ≠ i / 8) (b : Bool) : (p.writeBit i b).byte? k = p.byte? k := by
  simp [byte?, writeBit, h]

/-- A byte none of whose bits a sequence covers is as before. -/
theorem byte_writeBits_outside {bits : List Bool} {i k : Nat} (h : 8 * k + 8 ≤ i ∨ i + bits.length ≤ 8 * k) :
    (p.writeBits i bits).byte? k = p.byte? k := by
  induction bits generalizing p i with
  | nil => rfl
  | cons b bits ih =>
    rw [List.length_cons] at h
    calc ((p.writeBit i b).writeBits (i + 1) bits).byte? k
        = (p.writeBit i b).byte? k := ih (p.writeBit i b) (by omega)
      _ = p.byte? k := p.byte_writeBit_other (by omega) b

/-- Two sequences written one after the other are one sequence. -/
theorem writeBits_append (i : Nat) (bits more : List Bool) :
    p.writeBits i (bits ++ more) = (p.writeBits i bits).writeBits (i + bits.length) more := by
  induction bits generalizing p i with
  | nil => rfl
  | cons b bits ih =>
    rw [List.length_cons, Nat.add_comm bits.length, ← Nat.add_assoc]
    exact ih (p.writeBit i b) (i + 1)

end Payload

/-! ## The padding -/

/-- The payload padded with zero bits from bit n to the next byte boundary (R222). -/
def padded (p : Payload) (n : Nat) : Payload := p.writeBits n (List.replicate (padCount n) false)

/-- The padding ends at the first byte boundary at or past its start. -/
theorem add_padCount (n : Nat) : n + padCount n = 8 * ((n + 7) / 8) := by
  unfold padCount
  omega

section
variable (p : Payload) {n : Nat}

theorem bit_padded_padding {i : Nat} (hn : n ≤ i) (hi : i < 8 * ((n + 7) / 8)) : (padded p n).bit? i = some false := by
  have hend := add_padCount n
  have hread := p.holdsBits_writeBits n (List.replicate (padCount n) false) (i - n) (by rw [List.length_replicate]; omega)
  rwa [Nat.add_sub_cancel' hn, List.getElem?_replicate_of_lt (by omega)] at hread

theorem bit_padded_outside {i : Nat} (h : i < n ∨ 8 * ((n + 7) / 8) ≤ i) : (padded p n).bit? i = p.bit? i :=
  p.bit_writeBits_outside (by rwa [List.length_replicate, add_padCount])

theorem byte_padded_outside {k : Nat} (h : 8 * k + 8 ≤ n ∨ n ≤ 8 * k) : (padded p n).byte? k = p.byte? k :=
  p.byte_writeBits_outside (by rw [List.length_replicate, add_padCount]; omega)

end

/-! ## The commands with ERR = 0 -/

/-- ENC_SYM and ENC_FINISH raise SEQUENCE outside an encode session (30_encoding.md R97). -/
theorem exec_of_not_encoding {i : Instr} (hneed : sessionNeed i = .encoding) {s : State} (he : s.err = 0#8) (hoff : s.encActive = false) :
    exec i s = .next (raised 11#8 s) := by
  obtain ⟨hseq, -⟩ := sessionNeedsCheckedFirst i s he
  refine hseq ?_
  rw [hneed]
  exact ne_true_of_eq_false hoff

theorem exec_encStart {s : State} (he : s.err = 0#8) (hc : NoSession s) (hv : s.tableValid = true) :
    exec .encStart s = .next (s.setEnc true 0#32) :=
  (whenNoError_whenNoSession_idle he hc _).trans (if_pos hv)

/-- A bit sequence written at ENC_POS, and ENC_POS moved past it (R221). -/
def appendBits (bits : List Bool) (s : State) : State :=
  (s.setPbuf (s.pbuf.writeBits s.encPos.toNat bits)).setEnc s.encActive (s.encPos + BitVec.ofNat 32 bits.length)

theorem appendBits_nil (s : State) : appendBits [] s = s := by
  have hpos : s.encPos + BitVec.ofNat 32 0 = s.encPos := BitVec.add_zero s.encPos
  exact congrArg (s.setEnc s.encActive) hpos

/-- ENC_POS moves by the length of the sequence: inside the buffer the addition does not wrap. -/
theorem toNat_encPos_appendBits {bits : List Bool} {s : State} (hfit : s.encPos.toNat + bits.length ≤ s.params.pbufBits) :
    (appendBits bits s).encPos.toNat = s.encPos.toNat + bits.length := by
  have hbits := pbufBits_lt s.params
  calc (s.encPos + BitVec.ofNat 32 bits.length).toNat
      = (s.encPos.toNat + bits.length) % 2 ^ 32 := by simp
    _ = s.encPos.toNat + bits.length := Nat.mod_eq_of_lt (by omega)

/-- Two sequences appended one after the other are one sequence. -/
theorem appendBits_append {bits : List Bool} {s : State} (hfit : s.encPos.toNat + bits.length ≤ s.params.pbufBits) (more : List Bool) :
    appendBits (bits ++ more) s = appendBits more (appendBits bits s) := by
  have hpbuf : (appendBits (bits ++ more) s).pbuf = (appendBits more (appendBits bits s)).pbuf := by
    change _ = (s.pbuf.writeBits s.encPos.toNat bits).writeBits (appendBits bits s).encPos.toNat more
    rw [toNat_encPos_appendBits hfit]
    exact s.pbuf.writeBits_append _ bits more
  have hpos : (appendBits (bits ++ more) s).encPos = (appendBits more (appendBits bits s)).encPos := by
    simp [appendBits, BitVec.ofNat_add, BitVec.add_assoc]
  calc appendBits (bits ++ more) s
      = { s with pbuf := (appendBits (bits ++ more) s).pbuf, encPos := (appendBits (bits ++ more) s).encPos } := rfl
    _ = appendBits more (appendBits bits s) := by rw [hpbuf, hpos]; rfl

/-- The state an encode session leaves (R222). -/
def sessionFinished (s : State) : State :=
  { s with result := s.encPos, encActive := false, pbuf := padded s.pbuf s.encPos.toNat }

section
variable {s : State} (he : s.err = 0#8) (hon : s.encActive = true)
include he hon

theorem whenNoError_whenEncoding_open (run : Out) : whenNoError s (whenEncoding s run) = run :=
  (whenNoError_of_noError he).trans (if_pos hon)

theorem exec_encFinish : exec .encFinish s = .next (sessionFinished s) := whenNoError_whenEncoding_open he hon _

theorem exec_encSym_unknown {a : Sym} (hout : tableGet s.codeLen a = 0#8) : exec (.encSym a) s = .next (raised 2#8 s) := by
  refine (whenNoError_whenEncoding_open he hon _).trans ?_
  rw [if_pos hout, raise_of_noError .unknownSymbol he]
  rfl

theorem exec_encSym_bufFull {a : Sym} (hin : InTable s a) (hfull : s.params.pbufBits < s.encPos.toNat + (tableGet s.codeLen a).toNat) :
    exec (.encSym a) s = .next (raised 9#8 s) := by
  refine (whenNoError_whenEncoding_open he hon _).trans ?_
  rw [if_neg hin, if_pos hfull, raise_of_noError .bufFull he]
  rfl

theorem exec_encSym {a : Sym} (hin : InTable s a) (hfit : s.encPos.toNat + (codeword s a).length ≤ s.params.pbufBits) :
    exec (.encSym a) s = .next (appendBits (codeword s a) s) := by
  rw [length_codeword] at hfit
  refine (whenNoError_whenEncoding_open he hon _).trans ?_
  rw [if_neg hin, if_neg (Nat.not_lt.mpr hfit), appendBits, length_codeword, BitVec.ofNat_toNat]

end

/-! ## A session over a symbol sequence -/

/-- One ENC_SYM a symbol appends the codewords in stream order (R224). -/
theorem runCommands_encSym {text : List Sym} {s : State} (he : s.err = 0#8) (hon : s.encActive = true) (hin : ∀ a ∈ text, InTable s a)
    (hfit : s.encPos.toNat + (encodedBits s text).length ≤ s.params.pbufBits) (rest : List Instr) :
    runCommands (text.map .encSym ++ rest) s = runCommands rest (appendBits (encodedBits s text) s) := by
  induction text generalizing s with
  | nil => exact congrArg (runCommands rest) (appendBits_nil s).symm
  | cons a text ih =>
    have hbits : encodedBits s (a :: text) = codeword s a ++ encodedBits s text := rfl
    rw [hbits, List.length_append] at hfit
    have hfirst : s.encPos.toNat + (codeword s a).length ≤ s.params.pbufBits := by omega
    have hothers : (appendBits (codeword s a) s).encPos.toNat + (encodedBits s text).length ≤ s.params.pbufBits := by
      rw [toNat_encPos_appendBits hfirst]
      omega
    calc runCommands ((a :: text).map .encSym ++ rest) s
        = runCommands (text.map .encSym ++ rest) (appendBits (codeword s a) s) :=
          runCommands_cons_of_exec (exec_encSym he hon (hin a List.mem_cons_self) hfirst) _
      _ = runCommands rest (appendBits (encodedBits s text) (appendBits (codeword s a) s)) :=
          ih (s := appendBits (codeword s a) s) he hon (fun b hb => hin b (List.mem_cons_of_mem a hb)) hothers
      _ = runCommands rest (appendBits (encodedBits s (a :: text)) s) := by rw [hbits, appendBits_append hfirst]

/-- The whole session: the bits of the sequence appended from payload bit 0, then finished (R224, R225). -/
theorem runCommands_encodeSession {text : List Sym} {s : State} (he : s.err = 0#8) (hc : NoSession s) (hv : s.tableValid = true)
    (hin : ∀ a ∈ text, InTable s a) (hfit : (encodedBits s text).length ≤ s.params.pbufBits) :
    runCommands (.encStart :: (text.map .encSym ++ [.encFinish])) s =
      .next (sessionFinished (appendBits (encodedBits s text) (s.setEnc true 0#32))) := by
  have hfit0 : (s.setEnc true 0#32).encPos.toNat + (encodedBits s text).length ≤ s.params.pbufBits := by simpa using hfit
  calc runCommands (.encStart :: (text.map .encSym ++ [.encFinish])) s
      = runCommands (text.map .encSym ++ [.encFinish]) (s.setEnc true 0#32) := runCommands_cons_of_exec (exec_encStart he hc hv) _
    _ = runCommands [.encFinish] (appendBits (encodedBits s text) (s.setEnc true 0#32)) :=
        runCommands_encSym (s := s.setEnc true 0#32) he rfl hin hfit0 _
    _ = .next (sessionFinished (appendBits (encodedBits s text) (s.setEnc true 0#32))) :=
        runCommands_cons_of_exec (exec_encFinish (s := appendBits (encodedBits s text) (s.setEnc true 0#32)) he rfl) []

theorem length_encodedBits (s : State) (text : List Sym) :
    (encodedBits s text).length = (text.map fun a => (tableGet s.codeLen a).toNat).sum := by
  simp [encodedBits, List.length_flatMap]

/-! ## The settled statements -/

/-- Settles O41: the checks in order, and past them the codeword is appended. -/
theorem encSymCommand : Obligations.EncSymCommand := by
  refine fun a => ⟨wordOf_encode (.encSym a), fun s => ⟨exec_of_gated rfl, exec_of_not_encoding rfl,
    fun he hon => exec_encSym_unknown he hon, fun he hon => exec_encSym_bufFull he hon, fun he hon hin hfit => ?_⟩⟩
  rw [← length_codeword] at hfit
  have hpos := toNat_encPos_appendBits hfit
  refine ⟨_, exec_encSym he hon hin hfit, rfl, ?_, s.pbuf.holdsBits_writeBits _ _, fun i hi => ?_, fun k hk => ?_⟩
  · rw [hpos, length_codeword]
  · exact s.pbuf.bit_writeBits_outside (hpos ▸ hi)
  · exact s.pbuf.byte_writeBits_outside (hpos ▸ hk)

/-- Settles O42: past the checks the payload is padded from ENC_POS on. -/
theorem encFinishCommand : Obligations.EncFinishCommand := by
  refine ⟨wordOf_encode .encFinish, fun s => ⟨exec_of_gated rfl, exec_of_not_encoding rfl, fun he hon => ?_⟩⟩
  exact ⟨sessionFinished s, exec_encFinish he hon, rfl, fun i => bit_padded_padding s.pbuf, fun i => bit_padded_outside s.pbuf,
    fun k => byte_padded_outside s.pbuf⟩

/-- Settles O44: the bits of the sequence stand from payload bit 0, and the padding after them leaves them as they are. -/
theorem encodeWritesConcatenation : Obligations.EncodeWritesConcatenation := by
  intro s text _ he henc hdec hv hin hfit
  have hrun := runCommands_encodeSession he ⟨henc, hdec⟩ hv hin hfit
  generalize hbits : encodedBits s text = bits at hfit hrun ⊢
  have hlen : bits.length = (text.map fun a => (tableGet s.codeLen a).toNat).sum := hbits ▸ length_encodedBits s text
  have hpos : (appendBits bits (s.setEnc true 0#32)).encPos.toNat = bits.length := by
    rw [toNat_encPos_appendBits (by simpa using hfit)]
    simp
  have hpbuf : (sessionFinished (appendBits bits (s.setEnc true 0#32))).pbuf = padded (s.pbuf.writeBits 0 bits) bits.length :=
    congrArg (padded (s.pbuf.writeBits 0 bits)) hpos
  refine ⟨_, hrun, ?_, hpos.trans hlen, rfl, hpos, ?_⟩
  · simp [sessionFinished, appendBits, State.setEnc, State.setPbuf, henc]
  rw [hpbuf]
  refine ⟨fun j hj => ?_, fun i => bit_padded_padding _, fun i hi => ?_⟩
  · rw [bit_padded_outside _ (.inl (by omega))]
    exact s.pbuf.holdsBits_writeBits 0 bits j hj
  · rw [bit_padded_outside _ (.inr hi), s.pbuf.bit_writeBits_outside (.inr (by omega))]

/-- Settles O40: past the checks the session is open at payload bit 0. -/
theorem encStartCommand : Obligations.EncStartCommand := by
  refine ⟨wordOf_encode .encStart, fun s => ⟨exec_of_gated rfl, exec_of_session_open rfl, fun he henc hdec => ?_, fun he henc hdec => ?_⟩⟩
  · exact exec_encStart_noTable he ⟨henc, hdec⟩
  · exact exec_encStart he ⟨henc, hdec⟩

/-- An ENC_SYM that ends with ERR ≠ 0 leaves ENC_POS (R221). -/
theorem encPos_of_encSym_error {a : Sym} {s t : State} (h : exec (.encSym a) s = .next t) (ht : t.err ≠ 0#8) : t.encPos = s.encPos := by
  cases exec_answer h with
  | ignored => rfl
  | raised he e => rw [raise_frame]
  | encSym he => exact absurd he ht

/-- Settles O43: the command has no gate and writes RESULT alone; ENC_FINISH and a raised error leave ENC_POS. -/
theorem encPosCommand : Obligations.EncPosCommand := by
  refine ⟨wordOf_encode .encPos, fun s => ⟨rfl, fun he hon => ⟨sessionFinished s, exec_encFinish he hon, rfl, rfl⟩, fun a t h ht => ?_⟩⟩
  rw [← encPos_of_encSym_error h ht]
  rfl

end Sys2Proof.Machine
end

section
/-! PROOFS of the statements of 45_decoder.md: DEC_START (R240; O45), DEC_SYM (R241, R248, R243; O46 to O49), DEC_POS (R242; O50) and the round trip
(R244; O51). -/

namespace Sys2Proof.Machine

/-! ## Bits that stand in the payload -/

/-- A sequence stands at its place exactly when its two parts stand one after the other. -/
theorem holdsBits_append_iff {p : Payload} {i : Nat} {bits more : List Bool} :
    HoldsBits p i (bits ++ more) ↔ HoldsBits p i bits ∧ HoldsBits p (i + bits.length) more := by
  constructor
  · refine fun h => ⟨fun j hj => ?_, fun j hj => ?_⟩
    · rw [h j (by rw [List.length_append]; omega), List.getElem?_append_left hj]
    · rw [Nat.add_assoc, h (bits.length + j) (by rw [List.length_append]; omega), List.getElem?_append_right (by omega), Nat.add_sub_cancel_left]
  · rintro ⟨hbits, hmore⟩ j hj
    rw [List.length_append] at hj
    by_cases hlt : j < bits.length
    · rw [hbits j hlt, List.getElem?_append_left hlt]
    · rw [List.getElem?_append_right (by omega), ← hmore (j - bits.length) (by omega)]
      congr 1
      omega

theorem holdsBits_singleton_iff {p : Payload} {i : Nat} {b : Bool} : HoldsBits p i [b] ↔ p.bit? i = some b := by
  simp [HoldsBits]

/-! ## The decoder's place -/

/-- DEC_POS moved past n bits. -/
def consumed (n : Nat) (s : State) : State := s.setDec s.decActive (s.decPos + BitVec.ofNat 32 n) s.decLen

@[simp] theorem consumed_zero (s : State) : consumed 0 s = s :=
  congrArg (fun q => s.setDec s.decActive q s.decLen) (BitVec.add_zero s.decPos)

@[simp] theorem consumed_consumed (n m : Nat) (s : State) : consumed m (consumed n s) = consumed (n + m) s := by
  simp [consumed, State.setDec, BitVec.ofNat_add, BitVec.add_assoc]

/-- Up to DEC_LEN the addition does not wrap. -/
theorem toNat_decPos_consumed {n : Nat} {s : State} (h : s.decPos.toNat + n ≤ s.decLen.toNat) :
    (consumed n s).decPos.toNat = s.decPos.toNat + n := by
  have hlen := s.decLen.isLt
  calc (s.decPos + BitVec.ofNat 32 n).toNat
      = (s.decPos.toNat + n) % 2 ^ 32 := by simp
    _ = s.decPos.toNat + n := Nat.mod_eq_of_lt (by omega)

theorem decPos_ne_decLen_of_lt {s : State} (h : s.decPos.toNat < s.decLen.toNat) : s.decPos ≠ s.decLen :=
  fun heq => h.ne (congrArg BitVec.toNat heq)

/-- The next meaningful payload bits are those of a sequence. -/
structure BitsAhead (s : State) (bits : List Bool) : Prop where
  holds : HoldsBits s.pbuf s.decPos.toNat bits
  fits : s.decPos.toNat + bits.length ≤ s.decLen.toNat

namespace BitsAhead

variable {s : State} {bits more : List Bool}

theorem left (h : BitsAhead s (bits ++ more)) : BitsAhead s bits where
  holds := (holdsBits_append_iff.mp h.holds).1
  fits := by
    have hfits := h.fits
    rw [List.length_append] at hfits
    omega

/-- Past its first part the rest of a sequence lies ahead. -/
theorem right (h : BitsAhead s (bits ++ more)) : BitsAhead (consumed bits.length s) more := by
  have hpos := toNat_decPos_consumed h.left.fits
  have hfits := h.fits
  rw [List.length_append, ← Nat.add_assoc, ← hpos] at hfits
  obtain ⟨-, hmore⟩ := holdsBits_append_iff.mp h.holds
  rw [← hpos] at hmore
  exact ⟨hmore, hfits⟩

theorem concat (h : BitsAhead s bits) {b : Bool} (hlt : s.decPos.toNat + bits.length < s.decLen.toNat)
    (hbit : s.pbuf.bit? (s.decPos.toNat + bits.length) = some b) : BitsAhead s (bits ++ [b]) where
  holds := holdsBits_append_iff.mpr ⟨h.holds, holdsBits_singleton_iff.mpr hbit⟩
  fits := by
    rw [List.length_append, List.length_singleton]
    omega

theorem decPos_ne_decLen (h : BitsAhead s bits) (hne : bits ≠ []) : s.decPos ≠ s.decLen :=
  decPos_ne_decLen_of_lt ((Nat.lt_add_of_pos_right (List.length_pos_iff.mpr hne)).trans_le h.fits)

theorem setResult (h : BitsAhead s bits) (r : Word) : BitsAhead (s.setResult r) bits := ⟨h.holds, h.fits⟩

end BitsAhead

/-! ## The nodes of the decode tree -/

/-- A node on the way to an inner node is an inner node (43_code_table.md R205). -/
theorem innerNode_of_append {s : State} {p q : List Bool} (h : InnerNode s (p ++ q)) : InnerNode s p := by
  obtain ⟨a, ha, hpre, hne⟩ := h
  have hp : p <+: codeword s a := (List.prefix_append p q).trans hpre
  refine ⟨a, ha, hp, fun heq => hne (hpre.eq_of_length_le ?_)⟩
  rw [← heq, List.length_append]
  omega

/-- No codeword is longer than 255 bits, so an inner node is less deep (45_decoder.md R247). -/
theorem length_lt_of_innerNode {s : State} {p : List Bool} (h : InnerNode s p) : p.length < maxCodeLen := by
  by_contra hlong
  have hbelow := hasNodeBelow_iff.mpr h
  rw [hasNodeBelow_long (Nat.not_lt.mp hlong)] at hbelow
  exact Bool.false_ne_true hbelow

section
variable {s : State} {p : List Bool} (hno : ¬ ∃ c : Sym, InTable s c ∧ p <+: codeword s c)
include hno

theorem leafAt_of_no_codeword : leafAt s p = none := by
  by_contra hsome
  obtain ⟨c, hleaf⟩ := Option.ne_none_iff_exists'.mp hsome
  obtain ⟨hin, hcode⟩ := leafAt_some hleaf
  exact hno ⟨c, hin, hcode ▸ List.prefix_rfl⟩

theorem hasNodeBelow_of_no_codeword : hasNodeBelow s p = false := by
  by_contra hnode
  obtain ⟨c, hin, hpre, -⟩ := hasNodeBelow_iff.mp (Bool.of_not_eq_false hnode)
  exact hno ⟨c, hin, hpre⟩

end

section
variable {s : State} (hfree : PrefixFree s)
include hfree

/-- In a prefix-free table an inner node is no leaf. -/
theorem leafAt_of_innerNode {p : List Bool} (h : InnerNode s p) : leafAt s p = none := by
  obtain ⟨a, ha, hpre, hne⟩ := h
  cases hleaf : leafAt s p with
  | none => rfl
  | some c =>
    obtain ⟨hc, rfl⟩ := leafAt_some hleaf
    exact absurd hpre (hfree c hc a ha fun hca => hne (hca ▸ rfl))

/-- In a prefix-free table the leaf at a codeword is its symbol (R205). -/
theorem leafAt_codeword {a : Sym} (ha : InTable s a) : leafAt s (codeword s a) = some a := by
  cases hleaf : leafAt s (codeword s a) with
  | none => exact absurd rfl (leafAt_none hleaf a ha)
  | some c =>
    obtain ⟨hc, hcode⟩ := leafAt_some hleaf
    by_contra hne
    exact hfree c hc a ha (fun hca => hne (hca ▸ rfl)) (hcode ▸ List.prefix_rfl)

end

/-! ## One round of the walk -/

section
variable {s : State} {p : List Bool} {b : Bool} (hahead : BitsAhead s [b]) (n : Nat)

theorem walk_truncated (hend : s.decPos = s.decLen) : walk (n + 1) p s = .next (raise .truncatedStream s) := if_pos hend

theorem walk_unspecified (hne : s.decPos ≠ s.decLen) (hnone : s.pbuf.bit? s.decPos.toNat = none) :
    walk (n + 1) p s = .fault (.unspecifiedBit s.decPos.toNat) := by
  rw [walk_succ, if_neg hne, hnone]

include hahead

/-- A round that reads a bit goes by the leaf and the nodes below at the place it comes to. -/
theorem walk_read : walk (n + 1) p s =
    match leafAt s (p ++ [b]) with
    | some a => .next ((consumed 1 s).setResult (a.setWidth 32))
    | none => if hasNodeBelow s (p ++ [b]) then walk n (p ++ [b]) (consumed 1 s) else .next (raise .corruptStream (consumed 1 s)) := by
  rw [walk_succ, if_neg (hahead.decPos_ne_decLen (List.cons_ne_nil b [])), holdsBits_singleton_iff.mp hahead.holds]
  rfl

theorem walk_leaf {a : Sym} (hleaf : leafAt s (p ++ [b]) = some a) :
    walk (n + 1) p s = .next ((consumed 1 s).setResult (a.setWidth 32)) := by
  rw [walk_read hahead, hleaf]

theorem walk_inner (hleaf : leafAt s (p ++ [b]) = none) (hbelow : hasNodeBelow s (p ++ [b]) = true) :
    walk (n + 1) p s = walk n (p ++ [b]) (consumed 1 s) := by
  rw [walk_read hahead, hleaf]
  exact if_pos hbelow

theorem walk_noEdge (hleaf : leafAt s (p ++ [b]) = none) (hbelow : hasNodeBelow s (p ++ [b]) = false) :
    walk (n + 1) p s = .next (raise .corruptStream (consumed 1 s)) := by
  rw [walk_read hahead, hleaf]
  exact if_neg (ne_true_of_eq_false hbelow)

end

/-! ## DEC_SYM with ERR = 0 -/

/-- DEC_SYM raises SEQUENCE outside a decode session (30_encoding.md R97). -/
theorem exec_decSym_of_not_decoding {s : State} (he : s.err = 0#8) (hoff : s.decActive = false) :
    exec .decSym s = .next (raised 11#8 s) := by
  obtain ⟨hseq, -⟩ := sessionNeedsCheckedFirst .decSym s he
  exact hseq (ne_true_of_eq_false hoff)

/-- What DEC_SYM does when it comes to a symbol (R241). -/
def symbolRead (a : Sym) (s : State) : State := (consumed (codeword s a).length s).setResult (a.setWidth 32)

theorem codeword_ne_nil {s : State} {a : Sym} (hin : InTable s a) : codeword s a ≠ [] := by
  intro hnil
  have hlen := length_codeword s a
  rw [hnil] at hlen
  exact hin (BitVec.eq_of_toNat_eq hlen.symm)

/-- The walk from the root along bits that lead to an inner node reads them all, a round a bit (R241). -/
theorem walk_from_root {s : State} (hfree : PrefixFree s) {p : List Bool} (hnode : InnerNode s p) (hahead : BitsAhead s p) (n : Nat) :
    walk (n + p.length) [] s = walk n p (consumed p.length s) := by
  induction p using List.reverseRecOn generalizing n with
  | nil => rw [List.length_nil, consumed_zero]; rfl
  | append_singleton p b ih =>
    rw [List.length_append, List.length_singleton]
    calc walk (n + (p.length + 1)) [] s
        = walk (n + 1 + p.length) [] s := by rw [Nat.add_assoc, Nat.add_comm 1]
      _ = walk (n + 1) p (consumed p.length s) := ih (innerNode_of_append hnode) hahead.left (n + 1)
      _ = walk n (p ++ [b]) (consumed 1 (consumed p.length s)) :=
          walk_inner hahead.right n (leafAt_of_innerNode hfree hnode) (hasNodeBelow_iff.mpr hnode)
      _ = walk n (p ++ [b]) (consumed (p.length + 1) s) := by rw [consumed_consumed]

section
variable {s : State} (he : s.err = 0#8) (hon : s.decActive = true)
include he hon

theorem whenNoError_whenDecoding_open (run : Out) : whenNoError s (whenDecoding s run) = run :=
  (whenNoError_of_noError he).trans (if_pos hon)

/-- At the end of the meaningful bits DEC_SYM gives the end marker (R248). -/
theorem exec_decSym_end (hend : s.decPos = s.decLen) : exec .decSym s = .next (s.setResult 0x00000100#32) :=
  (whenNoError_whenDecoding_open he hon _).trans (if_pos hend)

theorem exec_decSym_walk (hne : s.decPos ≠ s.decLen) : exec .decSym s = walk maxCodeLen [] s :=
  (whenNoError_whenDecoding_open he hon _).trans (if_neg hne)

/-- DEC_SYM comes to every inner node the next bits lead to, with a round left there (R241, R247). -/
theorem exec_decSym_reaches (hfree : PrefixFree s) {p : List Bool} (hnode : InnerNode s p) (hahead : BitsAhead s p)
    (hne : s.decPos ≠ s.decLen) : ∃ n, exec .decSym s = walk (n + 1) p (consumed p.length s) := by
  obtain ⟨n, hn⟩ := Nat.exists_eq_add_of_lt (length_lt_of_innerNode hnode)
  rw [Nat.add_assoc, Nat.add_comm p.length] at hn
  exact ⟨n, by rw [exec_decSym_walk he hon hne, hn, walk_from_root hfree hnode hahead]⟩

/-- When a codeword lies ahead DEC_SYM reads its symbol (R241). -/
theorem exec_decSym_symbol (hfree : PrefixFree s) {a : Sym} (hin : InTable s a) (hahead : BitsAhead s (codeword s a)) :
    exec .decSym s = .next (symbolRead a s) := by
  obtain ⟨p, b, hcode⟩ := (List.eq_nil_or_concat' _).resolve_left (codeword_ne_nil hin)
  have hleaf := leafAt_codeword hfree hin
  have hne := hahead.decPos_ne_decLen (codeword_ne_nil hin)
  have hnode : InnerNode s p := ⟨a, hin, by simp [hcode], by simp [hcode]⟩
  rw [hcode] at hahead hleaf
  obtain ⟨n, hwalk⟩ := exec_decSym_reaches he hon hfree hnode hahead.left hne
  rw [hwalk, walk_leaf hahead.right n hleaf, consumed_consumed, symbolRead, hcode, List.length_append, List.length_singleton]

end

/-! ## DEC_START with ERR = 0 and no session -/

section
variable {s : State} (he : s.err = 0#8) (hc : NoSession s) (hv : s.tableValid = true)
include he hc hv

theorem exec_decStart (hfit : s.arg.toNat ≤ s.params.pbufBits) : exec .decStart s = .next (s.setDec true 0#32 s.arg) :=
  (whenNoError_whenNoSession_idle he hc _).trans ((if_pos hv).trans (if_neg (Nat.not_lt.mpr hfit)))

theorem exec_decStart_range (hlong : s.params.pbufBits < s.arg.toNat) : exec .decStart s = .next (raised 8#8 s) := by
  refine (whenNoError_whenNoSession_idle he hc _).trans ?_
  rw [if_pos hv, if_pos hlong, raise_of_noError .range he]
  rfl

end

/-- DEC_DONE, as STATUS shows it (10_state.md R34). -/
theorem status_decDone_iff (s : State) : (status s).getLsbD 12 = true ↔ s.decActive = true ∧ s.decPos = s.decLen := by
  obtain ⟨-, -, -, -, -, hdone, -⟩ := statusViewAndDecDone s
  exact hdone

/-! ## Payload bits past DEC_LEN -/

/-- An outcome with the payload replaced. -/
def withPayload (q : Payload) : Out → Out
  | .next t => .next (t.setPbuf q)
  | .fault f => .fault f
  | .refused r => .refused r

theorem raise_setPbuf (e : ErrCode) (q : Payload) (s : State) : raise e (s.setPbuf q) = (raise e s).setPbuf q := by
  by_cases he : s.err = 0#8
  · rw [raise_of_noError e he, raise_of_noError (s := s.setPbuf q) e he]
    rfl
  · rw [raise_of_error e he, raise_of_error (s := s.setPbuf q) e he]

section
variable {s : State} {q : Payload} (hle : s.decPos.toNat ≤ s.decLen.toNat) (hsame : ∀ i < s.decLen.toNat, q.bit? i = s.pbuf.bit? i)
include hle hsame

/-- The walk reads no bit at or past DEC_LEN, and carries the payload along (R243). -/
theorem walk_setPbuf (n : Nat) (p : List Bool) : walk n p (s.setPbuf q) = withPayload q (walk n p s) := by
  induction n generalizing p s with
  | zero => exact congrArg Host.Outcome.next (raise_setPbuf .corruptStream q s)
  | succ n ih =>
    by_cases hend : s.decPos = s.decLen
    · rw [walk_truncated n hend, walk_truncated (s := s.setPbuf q) n hend, raise_setPbuf]
      rfl
    have hnat : s.decPos.toNat ≠ s.decLen.toNat := fun heq => hend (BitVec.eq_of_toNat_eq heq)
    have hbit : (s.setPbuf q).pbuf.bit? s.decPos.toNat = s.pbuf.bit? s.decPos.toNat := hsame s.decPos.toNat (by omega)
    cases hread : s.pbuf.bit? s.decPos.toNat with
    | none =>
      rw [walk_unspecified n hend hread, walk_unspecified (s := s.setPbuf q) n hend (hbit.trans hread)]
      rfl
    | some b =>
      have hahead : BitsAhead s [b] := ⟨holdsBits_singleton_iff.mpr hread, by rw [List.length_singleton]; omega⟩
      have hahead' : BitsAhead (s.setPbuf q) [b] := ⟨holdsBits_singleton_iff.mpr (hbit.trans hread), hahead.fits⟩
      have hnext : (consumed 1 s).decPos.toNat ≤ s.decLen.toNat := (toNat_decPos_consumed hahead.fits).trans_le hahead.fits
      cases hleaf : leafAt s (p ++ [b]) with
      | some a =>
        rw [walk_leaf hahead n hleaf, walk_leaf hahead' n hleaf]
        rfl
      | none =>
        cases hbelow : hasNodeBelow s (p ++ [b]) with
        | true =>
          rw [walk_inner hahead n hleaf hbelow, walk_inner hahead' n hleaf hbelow]
          exact ih (s := consumed 1 s) hnext hsame (p ++ [b])
        | false =>
          rw [walk_noEdge hahead n hleaf hbelow, walk_noEdge hahead' n hleaf hbelow]
          exact congrArg Host.Outcome.next (raise_setPbuf .corruptStream q (consumed 1 s))

/-- DEC_SYM's answer over another payload with the same meaningful bits is the same but for the payload (R243). -/
theorem exec_decSym_setPbuf : exec .decSym (s.setPbuf q) = withPayload q (exec .decSym s) := by
  by_cases he : s.err = 0#8
  case neg => rw [exec_of_gated rfl he, exec_of_gated (s := s.setPbuf q) rfl he]; rfl
  cases hon : s.decActive with
  | false =>
    have hunmet : ¬ sessionMet s (sessionNeed .decSym) := ne_true_of_eq_false hon
    rw [exec_of_need_unmet he hunmet, exec_of_need_unmet (s := s.setPbuf q) (i := .decSym) he hunmet, raise_setPbuf]
    rfl
  | true =>
    by_cases hend : s.decPos = s.decLen
    · rw [exec_decSym_end he hon hend, exec_decSym_end (s := s.setPbuf q) he hon hend]
      rfl
    · rw [exec_decSym_walk he hon hend, exec_decSym_walk (s := s.setPbuf q) he hon hend, walk_setPbuf hle hsame]

end

/-! ## A session over an encoded text -/

theorem encodedBits_append (s : State) (text more : List Sym) : encodedBits s (text ++ more) = encodedBits s text ++ encodedBits s more :=
  List.flatMap_append

section
variable {text : List Sym} {s : State} (he : s.err = 0#8) (hon : s.decActive = true) (hfree : PrefixFree s)
  (hin : ∀ a ∈ text, InTable s a) (hahead : BitsAhead s (encodedBits s text))
include he hon hfree hin hahead

/-- One DEC_SYM a symbol reads the codewords of a text (R244). -/
theorem runCommands_decSym (rest : List Instr) :
    ∃ r, runCommands (List.replicate text.length .decSym ++ rest) s =
      runCommands rest ((consumed (encodedBits s text).length s).setResult r) := by
  induction text generalizing s with
  | nil => exact ⟨s.result, congrArg (runCommands rest) (consumed_zero s).symm⟩
  | cons a text ih =>
    obtain ⟨ha, htext⟩ := List.forall_mem_cons.mp hin
    have hbits : encodedBits s (a :: text) = codeword s a ++ encodedBits s text := rfl
    rw [hbits] at hahead
    obtain ⟨hholds, hfits⟩ := hahead.right
    obtain ⟨r, hrest⟩ := ih (s := symbolRead a s) he hon hfree htext ⟨hholds, hfits⟩
    refine ⟨r, (runCommands_cons_of_exec (exec_decSym_symbol he hon hfree ha hahead.left) _).trans (hrest.trans ?_)⟩
    rw [hbits, List.length_append, ← consumed_consumed]
    rfl

/-- After those of a text, one more DEC_SYM. -/
theorem runCommands_decSym_one_more :
    ∃ r, runCommands (List.replicate (text.length + 1) .decSym) s =
      runCommands [.decSym] ((consumed (encodedBits s text).length s).setResult r) := by
  rw [List.replicate_succ']
  exact runCommands_decSym he hon hfree hin hahead [.decSym]

end

/-- DEC_START of the length of an encoded text at payload bit 0 leaves its bits ahead. -/
theorem bitsAhead_decStart {s : State} {text : List Sym} (hholds : HoldsBits s.pbuf 0 (encodedBits s text))
    (hlen : s.arg.toNat = (encodedBits s text).length) : BitsAhead (s.setDec true 0#32 s.arg) (encodedBits s text) :=
  ⟨hholds, by simp [hlen]⟩

section
variable {s : State} (he : s.err = 0#8) (hc : NoSession s) (hv : s.tableValid = true) (hfit : s.arg.toNat ≤ s.params.pbufBits)
  (hfree : PrefixFree s) {text : List Sym} (hin : ∀ a ∈ text, InTable s a) (hholds : HoldsBits s.pbuf 0 (encodedBits s text))
  (hlen : s.arg.toNat = (encodedBits s text).length)
include he hc hv hfit hfree hin hholds hlen

/-- DEC_SYM number n + 1 of a decode session gives symbol n of the text (R244). -/
theorem runCommands_decodeSession_symbol {n : Nat} (hn : n < text.length) :
    ∃ u, runCommands (.decStart :: List.replicate (n + 1) .decSym) s = .next u ∧ u.result = text[n].setWidth 32 ∧ u.err = 0#8 := by
  have hahead := bitsAhead_decStart hholds hlen
  have hsplit : encodedBits s text = encodedBits s (text.take n) ++ encodedBits s (text[n] :: text.drop (n + 1)) := by
    rw [← encodedBits_append, List.getElem_cons_drop, List.take_append_drop]
  rw [hsplit] at hahead
  obtain ⟨r, hread⟩ := runCommands_decSym_one_more (s := s.setDec true 0#32 s.arg) he rfl hfree
    (fun a ha => hin a (List.mem_of_mem_take ha)) hahead.left
  rw [List.length_take_of_le hn.le] at hread
  have hsymbol := exec_decSym_symbol (s := (consumed _ (s.setDec true 0#32 s.arg)).setResult r) he rfl hfree
    (hin text[n] (List.getElem_mem hn)) (hahead.right.left.setResult r)
  exact ⟨_, (runCommands_cons_of_exec (exec_decStart he hc hv hfit) _).trans (hread.trans (runCommands_cons_of_exec hsymbol [])), rfl, he⟩

/-- After the last symbol a decode session gives the end marker (R244, R248). -/
theorem runCommands_decodeSession_end :
    ∃ u, runCommands (.decStart :: List.replicate (text.length + 1) .decSym) s = .next u ∧ u.result = 0x00000100#32 ∧ u.err = 0#8 ∧
      u.decPos = u.decLen := by
  have hahead := bitsAhead_decStart hholds hlen
  obtain ⟨r, hread⟩ := runCommands_decSym_one_more (s := s.setDec true 0#32 s.arg) he rfl hfree hin hahead
  have hend : (consumed (encodedBits s text).length (s.setDec true 0#32 s.arg)).decPos = s.arg := by
    refine BitVec.eq_of_toNat_eq ((toNat_decPos_consumed hahead.fits).trans ?_)
    simp [hlen]
  have hmarker := exec_decSym_end (s := (consumed (encodedBits s text).length (s.setDec true 0#32 s.arg)).setResult r) he rfl hend
  exact ⟨_, (runCommands_cons_of_exec (exec_decStart he hc hv hfit) _).trans (hread.trans (runCommands_cons_of_exec hmarker [])), rfl, he,
    hend⟩

end

/-- The state an encode session of a text leaves (44_encoder.md R224). -/
def textEncoded (text : List Sym) (s : State) : State := sessionFinished (appendBits (encodedBits s text) (s.setEnc true 0#32))

/-! ## The settled statements -/

/-- Settles O47: in the prefix-free table of a session the walk along the codeword passes inner nodes to its leaf. -/
theorem decSymRecoversSymbol : Obligations.DecSymRecoversSymbol := by
  refine ⟨wordOf_encode .decSym, fun s => ⟨exec_of_gated rfl, exec_decSym_of_not_decoding, fun a hs he hon hin hfit hholds => ?_⟩⟩
  rw [← length_codeword] at hfit ⊢
  have hfree := hs.validPrefixFree (hs.sessionHasTable (.inr hon))
  exact ⟨symbolRead a s, exec_decSym_symbol he hon hfree hin ⟨hholds, hfit⟩, rfl, toNat_decPos_consumed hfit⟩

/-- Settles O48: DEC_SYM reaches the inner node, and the round there ends the walk. -/
theorem decSymStreamErrors : Obligations.DecSymStreamErrors := by
  intro s p hs he hon hholds hnode
  have hfree := hs.validPrefixFree (hs.sessionHasTable (.inr hon))
  refine ⟨fun hp hend => ?_, fun b hlt hbit hedge => ?_, fun hlt hnone => ?_⟩
  · have hahead : BitsAhead s p := ⟨hholds, hend.le⟩
    have hpos : (consumed p.length s).decPos = s.decLen := BitVec.eq_of_toNat_eq ((toNat_decPos_consumed hend.le).trans hend)
    obtain ⟨n, hwalk⟩ := exec_decSym_reaches he hon hfree hnode hahead (hahead.decPos_ne_decLen hp)
    rw [hwalk, walk_truncated n hpos, raise_of_noError (s := consumed p.length s) .truncatedStream he, hpos]
    rfl
  · have hahead : BitsAhead s (p ++ [b]) := BitsAhead.concat ⟨hholds, hlt.le⟩ hlt hbit
    obtain ⟨n, hwalk⟩ := exec_decSym_reaches he hon hfree hnode hahead.left (hahead.decPos_ne_decLen (by simp))
    rw [hwalk, walk_noEdge hahead.right n (leafAt_of_no_codeword hedge) (hasNodeBelow_of_no_codeword hedge), consumed_consumed,
      raise_of_noError (s := consumed (p.length + 1) s) .corruptStream he]
    exact ⟨_, rfl, rfl, toNat_decPos_consumed hlt⟩
  · have hpos := toNat_decPos_consumed hlt.le
    have hne := decPos_ne_decLen_of_lt ((Nat.le_add_right _ _).trans_lt hlt)
    obtain ⟨n, hwalk⟩ := exec_decSym_reaches he hon hfree hnode ⟨hholds, hlt.le⟩ hne
    rw [← hpos] at hlt hnone ⊢
    rw [hwalk, walk_unspecified n (decPos_ne_decLen_of_lt hlt) hnone]

/-- Settles O49: DEC_SYM carries the payload along, and reads of it only meaningful bits. -/
theorem decoderIgnoresBitsPastLength : Obligations.DecoderIgnoresBitsPastLength := by
  intro s q hle hsame
  have hexec := exec_decSym_setPbuf hle hsame
  refine ⟨fun t ht => ?_, fun f hf => ?_⟩
  · rw [ht] at hexec
    exact hexec
  · rw [hf] at hexec
    exact hexec

/-- Settles O51: the codewords of the text stand from payload bit 0, and DEC_SYM reads them one after the other. -/
theorem roundTripRecoversText : Obligations.RoundTripRecoversText := by
  intro s text hs he henc hdec hv hin hfit
  obtain ⟨t, hrun, -, -, -, hlen, hholds, -⟩ := encodeWritesConcatenation s text hs he henc hdec hv hin hfit
  obtain rfl : textEncoded text s = t :=
    Host.Outcome.next.inj ((runCommands_encodeSession he ⟨henc, hdec⟩ hv hin hfit).symm.trans hrun)
  have hfree := hs.validPrefixFree hv
  refine ⟨_, hrun, he, fun n hn => ?_, ?_⟩
  · exact runCommands_decodeSession_symbol (s := (textEncoded text s).setArg (textEncoded text s).result) he ⟨rfl, hdec⟩ hv
      (hlen.trans_le hfit) hfree hin hholds hlen hn
  · exact runCommands_decodeSession_end (s := (textEncoded text s).setArg (textEncoded text s).result) he ⟨rfl, hdec⟩ hv
      (hlen.trans_le hfit) hfree hin hholds hlen

/-- Settles O45: past the checks the session is open at payload bit 0, which is its end when ARG is 0. -/
theorem decStartCommand : Obligations.DecStartCommand := by
  refine ⟨wordOf_encode .decStart, fun s => ⟨exec_of_gated rfl, exec_of_session_open rfl,
    fun he henc hdec => exec_decStart_noTable he ⟨henc, hdec⟩, fun he henc hdec => exec_decStart_range he ⟨henc, hdec⟩,
    fun he henc hdec hv hfit => ⟨_, exec_decStart he ⟨henc, hdec⟩ hv hfit, rfl, ?_⟩⟩⟩
  exact (status_decDone_iff _).trans ⟨fun hdone => hdone.2.symm, fun harg => ⟨rfl, harg.symm⟩⟩

/-- Settles O46: the marker leaves DEC_POS at DEC_LEN, and it is above every symbol. -/
theorem decSymEndMarker : Obligations.DecSymEndMarker := by
  intro s he hon hend
  refine ⟨_, exec_decSym_end he hon hend, rfl, (status_decDone_iff _).mpr ⟨hon, hend⟩,
    exec_decSym_end (s := s.setResult 0x00000100#32) he hon hend, fun a heq => ?_⟩
  have hnat : 0x100 = a.toNat := (congrArg BitVec.toNat heq).trans (BitVec.toNat_setWidth_of_le (by decide))
  have ha := a.isLt
  omega

/-- Settles O50: the command has no gate, and writes RESULT and no other field. -/
theorem decPosCommand : Obligations.DecPosCommand := ⟨wordOf_encode .decPos, fun _ => rfl⟩

end Sys2Proof.Machine
end

section
/-! PROOFS of the statements of 46_payload_buffer.md: PBUF_WR (R270; O52) and PBUF_RD (R271; O53). -/

namespace Sys2Proof.Machine

/-! ## The bits of a payload byte -/

theorem div_of_byteBit (k : Nat) {j : Nat} (hj : j < 8) : (8 * k + j) / 8 = k := by omega

/-- The first payload bit of a byte stands in its bit 7 (R270). -/
theorem bitPlace_of_byteBit (k : Nat) {j : Nat} (hj : j < 8) : bitPlace (8 * k + j) = 7 - j := by
  unfold bitPlace
  omega

/-- Two bytes are equal when the payload bits they hold are. -/
theorem eq_of_byteBits_eq {x y : Byte} (h : ∀ j < 8, x.getLsbD (7 - j) = y.getLsbD (7 - j)) : x = y := by
  refine BitVec.eq_of_getLsbD_eq fun i hi => ?_
  have hplace : 7 - (7 - i) = i := by omega
  exact hplace ▸ h (7 - i) (by omega)

/-- All eight bits of a byte are written exactly when its byte of the written store is 0xFF (20_memory.md R67). -/
theorem eq_0xFF_iff_byteBits {x : Byte} : x = 0xFF#8 ↔ ∀ j < 8, x.getLsbD (7 - j) = true := by
  have hones : ∀ j < 8, (0xFF#8).getLsbD (7 - j) = true := by decide
  constructor
  · rintro rfl
    exact hones
  · exact fun h => eq_of_byteBits_eq fun j hj => (h j hj).trans (hones j hj).symm

namespace Payload

variable (p : Payload)

theorem bit_of_byteBit (k : Nat) {j : Nat} (hj : j < 8) :
    p.bit? (8 * k + j) = if (p.written.read k).getLsbD (7 - j) then some ((p.data.read k).getLsbD (7 - j)) else none := by
  rw [bit?, div_of_byteBit k hj, bitPlace_of_byteBit k hj]

theorem bit_eq_none_iff (k : Nat) {j : Nat} (hj : j < 8) :
    p.bit? (8 * k + j) = none ↔ ¬ (p.written.read k).getLsbD (7 - j) = true := by
  simp [p.bit_of_byteBit k hj]

/-- PbufRead has no byte exactly when one of its payload bits is unspecified (R65, R67). -/
theorem byte_eq_none_iff {k : Nat} : p.byte? k = none ↔ ∃ j < 8, p.bit? (8 * k + j) = none := by
  calc p.byte? k = none
      ↔ ¬ p.written.read k = 0xFF#8 := by simp [byte?]
    _ ↔ ∃ j < 8, ¬ (p.written.read k).getLsbD (7 - j) = true := by
      rw [eq_0xFF_iff_byteBits]
      simp only [not_forall, exists_prop]
    _ ↔ ∃ j < 8, p.bit? (8 * k + j) = none := exists_congr fun j => and_congr_right fun hj => (p.bit_eq_none_iff k hj).symm

/-- The byte PbufRead answers holds the eight payload bits, the first in bit 7 (R65, R270). -/
theorem bit_of_byte {k : Nat} {v : Byte} (h : p.byte? k = some v) {j : Nat} (hj : j < 8) :
    p.bit? (8 * k + j) = some (v.getLsbD (7 - j)) := by
  obtain ⟨hwritten, rfl⟩ : p.written.read k = 0xFF#8 ∧ p.data.read k = v := by simpa [byte?] using h
  rw [p.bit_of_byteBit k hj, if_pos (eq_0xFF_iff_byteBits.mp hwritten j hj)]

/-- Eight specified payload bits, the first in bit 7, are the byte PbufRead answers (R65, R270). -/
theorem byte_of_bits {k : Nat} {v : Byte} (h : ∀ j < 8, p.bit? (8 * k + j) = some (v.getLsbD (7 - j))) : p.byte? k = some v := by
  cases hbyte : p.byte? k with
  | none =>
    obtain ⟨j, hj, hnone⟩ := p.byte_eq_none_iff.mp hbyte
    exact nomatch (h j hj).symm.trans hnone
  | some u =>
    exact congrArg some (eq_of_byteBits_eq fun j hj => Option.some.inj ((p.bit_of_byte hbyte hj).symm.trans (h j hj)))

/-- PbufWrite writes the eight payload bits of its byte, the first from bit 7 (R65, R270). -/
theorem bit_writeByte_same (k : Nat) (v : Byte) {j : Nat} (hj : j < 8) : (p.writeByte k v).bit? (8 * k + j) = some (v.getLsbD (7 - j)) := by
  rw [bit_writeByte, if_pos (div_of_byteBit k hj), bitPlace_of_byteBit k hj]

theorem bit_writeByte_other {k m : Nat} (h : m ≠ k) (v : Byte) {j : Nat} (hj : j < 8) :
    (p.writeByte k v).bit? (8 * m + j) = p.bit? (8 * m + j) := by
  rw [bit_writeByte, if_neg ((div_of_byteBit m hj).trans_ne h)]

end Payload

/-! ## PBUF_WR with ERR = 0 and no session -/

section
variable {s : State} (he : s.err = 0#8) (hc : NoSession s) {k : BitVec 16} (v : Byte)
include he hc

theorem exec_pbufWr_range (hk : s.params.pbufBytes ≤ k.toNat) : exec (.pbufWr k v) s = .next (raised 8#8 s) := by
  refine (whenNoError_whenNoSession_idle he hc _).trans ((if_pos hk).trans ?_)
  rw [raise_of_noError .range he]
  rfl

theorem exec_pbufWr (hk : k.toNat < s.params.pbufBytes) : exec (.pbufWr k v) s = .next (s.setPbuf (s.pbuf.writeByte k.toNat v)) :=
  (whenNoError_whenNoSession_idle he hc _).trans (if_neg (Nat.not_le.mpr hk))

end

/-! ## PBUF_RD -/

section
variable {s : State} {k : BitVec 16}

theorem exec_pbufRd_range (hk : s.params.pbufBytes ≤ k.toNat) : exec (.pbufRd k) s = .next (raise .range s) := if_pos hk

theorem exec_pbufRd_some (hk : k.toNat < s.params.pbufBytes) {v : Byte} (hv : s.pbuf.byte? k.toNat = some v) :
    exec (.pbufRd k) s = .next (s.setResult (v.setWidth 32)) := by
  refine (if_neg (Nat.not_le.mpr hk)).trans ?_
  rw [hv]

theorem exec_pbufRd_none (hk : k.toNat < s.params.pbufBytes) (hnone : s.pbuf.byte? k.toNat = none) :
    exec (.pbufRd k) s = .fault (.unspecifiedByte k.toNat) := by
  refine (if_neg (Nat.not_le.mpr hk)).trans ?_
  rw [hnone]

end

/-! ## The settled statements -/

/-- Settles O52: past the checks one byte is written whole, and a payload bit belongs to the byte of its index divided by 8. -/
theorem pbufWrCommand : Obligations.PbufWrCommand := by
  refine fun k v => ⟨wordOf_encode (.pbufWr k v), fun s => ⟨exec_of_gated rfl, exec_of_session_open rfl,
    fun he henc hdec => exec_pbufWr_range he ⟨henc, hdec⟩ v, fun he henc hdec hk => ?_⟩⟩
  refine ⟨_, exec_pbufWr he ⟨henc, hdec⟩ v hk, rfl, ?_, fun j => s.pbuf.bit_writeByte_same k.toNat v,
    fun m hm => ⟨?_, fun j => s.pbuf.bit_writeByte_other hm v⟩⟩
  · exact (s.pbuf.byte_writeByte k.toNat k.toNat v).trans (if_pos rfl)
  · exact (s.pbuf.byte_writeByte k.toNat m v).trans (if_neg hm)

/-- Settles O53: the index is checked first; then the eight bits of the byte decide between its value and the fault. -/
theorem pbufRdCommand : Obligations.PbufRdCommand := by
  refine fun k => ⟨wordOf_encode (.pbufRd k), fun s => ⟨fun hk he => ?_, fun hk he => ?_,
    fun v hk hbits => exec_pbufRd_some hk (s.pbuf.byte_of_bits hbits),
    fun hk hbit => exec_pbufRd_none hk (s.pbuf.byte_eq_none_iff.mpr hbit)⟩⟩
  · rw [exec_pbufRd_range hk, raise_of_noError .range he]
    rfl
  · rw [exec_pbufRd_range hk, raise_of_error .range he]

end Sys2Proof.Machine
end

section
/-! PROOFS of the statements of 60_exceptions.md and 70_reset_and_hazards.md: the errors a command can leave (R282; O56), `raise` (R281, R284; O12)
and the power-on reset event (R310; O11). -/

namespace Sys2Proof.Machine

/-! ## The errors of a command's answers -/

theorem raise_err_of_noError {s : State} (he : s.err = 0#8) (e : ErrCode) : (raise e s).err = errCode e := by
  rw [raise_of_noError e he]

/-- A command may end without an error: 0 heads every row of R282's table. -/
theorem zero_mem_possibleErrors (i : Instr) : 0#8 ∈ possibleErrors i := by
  cases i <;> exact List.mem_cons_self

theorem err_mem_possibleErrors_of_noError {t : State} (ht : t.err = 0#8) (i : Instr) : t.err ∈ possibleErrors i :=
  ht ▸ zero_mem_possibleErrors i

/-- A raise ends a command within its row when the row lists the code. -/
theorem err_raise_mem_possibleErrors {s : State} (he : s.err = 0#8) {e : ErrCode} {i : Instr} (hmem : errCode e ∈ possibleErrors i) :
    (raise e s).err ∈ possibleErrors i :=
  raise_err_of_noError he e ▸ hmem

theorem streamError_mem_possibleErrors {e : ErrCode} (h : e = .truncatedStream ∨ e = .corruptStream) :
    errCode e ∈ possibleErrors .decSym := by
  rcases h with rfl | rfl <;> decide

/-- Every answer of a command begun with ERR = 0 stays within the command's row: the raising answers by their code, the others with ERR = 0. -/
theorem Answer.err_mem_possibleErrors {s t : State} {i : Instr} (h : Answer s i t) (hs : s.err = 0#8) : t.err ∈ possibleErrors i := by
  cases h with
  | raised he e hmem => exact err_raise_mem_possibleErrors hs hmem
  | buildEmpty => exact err_raise_mem_possibleErrors (s := clearTable s) hs (by decide)
  | commitEmpty | commitClash => exact err_raise_mem_possibleErrors (s := invalidateTable s) hs (by decide)
  | decError he ha q e hq hstream =>
    exact err_raise_mem_possibleErrors (s := s.setDec s.decActive q s.decLen) hs (streamError_mem_possibleErrors hstream)
  | readRange k => exact err_raise_mem_possibleErrors hs (List.mem_cons_of_mem _ List.mem_cons_self)
  | reset | clrErr => exact err_mem_possibleErrors_of_noError rfl _
  | _ => exact err_mem_possibleErrors_of_noError hs _

/-! ## The settled statements -/

/-- Settles O56, answer by answer. -/
theorem errorsOfEachCommand : Obligations.ErrorsOfEachCommand := fun _ _ _ he h => (exec_answer h).err_mem_possibleErrors he

/-- Settles O12: the list pairs each error with its `errCode`, which `raise` latches when ERR is 0. -/
theorem raiseLatchesFirstError : Obligations.RaiseLatchesFirstError := by
  intro s e code hmem
  have hcode : code = errCode e := by
    obtain ⟨e', -, heq⟩ := List.mem_map (f := fun e => (e, errCode e)) (l := [.emptyAlphabet, .unknownSymbol, .truncatedStream,
      .corruptStream, .badTable, .noTable, .overflow, .range, .bufFull, .illegalCmd, .sequence]).mp hmem
    cases heq
    rfl
  subst hcode
  exact ⟨raise_of_noError e, raise_of_error e⟩

/-- Settles O11: the step takes the event from the queue, and the event is `powerOn`. -/
theorem powerOnResetEvent : Obligations.PowerOnResetEvent := by
  intro s rest hpending
  calc step s
      = hostEvent .powerOnReset (s.setPending rest) := step_of_pending_cons hpending
    _ = .next (powerOn (s.setPending rest)) := rfl
    _ = .next { State.reset with params := s.params, pending := rest, reads := s.reads } := rfl

end Sys2Proof.Machine
end
